-- ==== Sys2Proof/Word.lean ====
section
/-! DEFINITION. The word types of the engine: bytes of the wire and of the buffers, 16-bit wire fields, 32-bit registers. -/

namespace Sys2Proof

/-- A byte of a wire string or of a buffer (00_scope.md R7). -/
abbrev Byte := BitVec 8

/-- A 16-bit wire field: an address, a request type, a length (30_encoding.md R80, R88). -/
abbrev Half := BitVec 16

/-- An engine register (10_state.md R21; 00_scope.md R9). -/
abbrev Word := BitVec 32

end Sys2Proof
end

