-- ==== Sys2Proof/Machine/Bytes.lean ====
section
/-! DEFINITION. The byte-string and field-placement primitives of the spec's notation (00_scope.md R7 to R10). -/

namespace Sys2Proof.Machine

/-- `x << lo` in a register or wire field of `w` bits: the field `x` placed with its lowest bit at bit `lo` (R8). -/
def placeAt {w n : Nat} (lo : Nat) (x : BitVec n) : BitVec w := x.setWidth w <<< lo

/-- `BE16(v)` of R7: the two bytes of `v`, most significant first. -/
def be16 (v : Half) : List Byte := [v.extractLsb' 8 8, v.extractLsb' 0 8]

/-- `BE16⁻¹(s)` of R7: the big-endian value of the first two bytes. The rules apply it to strings of length 2. -/
def unBe16 (s : List Byte) : Half := placeAt 8 (s.getD 0 0) ||| placeAt 0 (s.getD 1 0)

/-- `s[a..b)` of R7: bytes `a` up to `b - 1`. -/
def slice (s : List Byte) (a b : Nat) : List Byte := (s.drop a).take (b - a)

/-- A truth value as a one-bit field. -/
def bit (b : Bool) : BitVec 1 := BitVec.ofBool b

/-- `⊕` of two byte strings, byte by byte (44_crypto.md R232, R238). -/
def xorBytes (a b : List Byte) : List Byte := List.zipWith (· ^^^ ·) a b

end Sys2Proof.Machine
end

