-- ==== Sys2Proof/Syntax.lean ====
section
/-! DEFINITION. The commands of the engine, one constructor per row of the opcode table (30_encoding.md R91), each with the
command-word fields its rule reads (R92): nothing else of the word reaches a meaning (R93). -/

namespace Sys2Proof

/-- A command. The fields are the raw MODE fields and IMM of the command word; reserved values of them are ill-formed
(`Instr.wellFormed`) and end in IllegalCommandError (R94). -/
inductive Instr where
  /-- ADDR_PARSE, opcode 0x01 (R117): FORM = MODE[1:0], HINT = MODE[3:2]. -/
  | addrParse (form hint : BitVec 2)
  /-- ADDR_RENDER, opcode 0x02 (R120): FMT = MODE[1:0]. -/
  | addrRender (fmt : BitVec 2)
  /-- TBL_RESOLVE, opcode 0x08 (R145): DIR = MODE[7], TABLE = MODE[2:0]. -/
  | tblResolve (dir : BitVec 1) (table : BitVec 3)
  /-- APCI_PACK, opcode 0x09 (R148). -/
  | apciPack
  /-- APCI_UNPACK, opcode 0x0A (R150). -/
  | apciUnpack
  /-- CEMI_ENCODE, opcode 0x10 (R176). -/
  | cemiEncode
  /-- CEMI_DECODE, opcode 0x11 (R178). -/
  | cemiDecode
  /-- HDR_ENCODE, opcode 0x18 (R203). -/
  | hdrEncode
  /-- HDR_DECODE, opcode 0x19 (R204). -/
  | hdrDecode
  /-- SEC_NONCE, opcode 0x20 (R264): KIND = MODE[0]. -/
  | secNonce (kind : BitVec 1)
  /-- CMAC_GEN, opcode 0x21 (R265). -/
  | cmacGen
  /-- SEC_UNWRAP, opcode 0x22 (R266). -/
  | secUnwrap
  /-- SEC_TIMER_VERIFY, opcode 0x23 (R270). -/
  | secTimerVerify
  /-- SEC_WRAP, opcode 0x24 (R272). -/
  | secWrap
  /-- DPT_DECODE, opcode 0x28 (R294). -/
  | dptDecode
  /-- DPT_ENCODE, opcode 0x29 (R295). -/
  | dptEncode
  /-- BUILD_ACTION, opcode 0x30 (R313): FORM and HINT as ADDR_PARSE, IMM = the address length A (R311). -/
  | buildAction (form hint : BitVec 2) (imm : Half)
  /-- BUILD_STATUS, opcode 0x31 (R314): fields as BUILD_ACTION. -/
  | buildStatus (form hint : BitVec 2) (imm : Half)
  /-- BUILD_RESPONSE, opcode 0x32 (R315): fields as BUILD_ACTION. -/
  | buildResponse (form hint : BitVec 2) (imm : Half)
  /-- DECODE, opcode 0x33 (R317). -/
  | decode
deriving DecidableEq, Repr

end Sys2Proof
end

