-- ==== Sys2Proof/WellFormed.lean ====
section
/-! DEFINITION. The well-formed commands: those whose listed MODE fields hold no reserved value (30_encoding.md R92, R94). -/

namespace Sys2Proof

/-- FORM 3 and HINT 3 are illegal in ADDR_PARSE and the BUILD_* commands, FMT 3 in ADDR_RENDER, TABLE 5 to 7 in TBL_RESOLVE
(R92). -/
def Instr.wellFormed : Instr → Bool
  | .addrParse form hint => form != 3 && hint != 3
  | .addrRender fmt => fmt != 3
  | .tblResolve _ table => decide (table.toNat < 5)
  | .apciPack => true
  | .apciUnpack => true
  | .cemiEncode => true
  | .cemiDecode => true
  | .hdrEncode => true
  | .hdrDecode => true
  | .secNonce _ => true
  | .cmacGen => true
  | .secUnwrap => true
  | .secTimerVerify => true
  | .secWrap => true
  | .dptDecode => true
  | .dptEncode => true
  | .buildAction form hint _ => form != 3 && hint != 3
  | .buildStatus form hint _ => form != 3 && hint != 3
  | .buildResponse form hint _ => form != 3 && hint != 3
  | .decode => true

/-- The well-formed commands, as a proposition. -/
abbrev Instr.WellFormed (i : Instr) : Prop := i.wellFormed = true

end Sys2Proof
end

