-- ==== Sys2Proof/Decode.lean ====
section
/-! DEFINITION. Reading a command from the command word and writing it back (30_encoding.md R90 to R94). -/

namespace Sys2Proof

open Machine

/-- Why a command word names no command. -/
inductive DecodeError where
  /-- The opcode is not in the opcode map (R91, R94). The ENGINE step then ends with IllegalCommandError: safe. -/
  | illegalOpcode (opcode : Byte)
deriving DecidableEq, Repr

/-- OPCODE, CMD[7:0] (R90). -/
def opcodeOf (w : Word) : Byte := w.extractLsb' 0 8

/-- MODE, CMD[15:8] (R90). -/
def modeOf (w : Word) : Byte := w.extractLsb' 8 8

/-- IMM, CMD[31:16] (R90). -/
def immOf (w : Word) : Half := w.extractLsb' 16 16

/-- MODE[1:0]: FORM, or FMT of ADDR_RENDER (R92). -/
def formOf (w : Word) : BitVec 2 := (modeOf w).extractLsb' 0 2

/-- MODE[3:2]: HINT (R92). -/
def hintOf (w : Word) : BitVec 2 := (modeOf w).extractLsb' 2 2

/-- MODE[2:0]: TABLE (R92). -/
def tableOf (w : Word) : BitVec 3 := (modeOf w).extractLsb' 0 3

/-- MODE[7]: DIR (R92). -/
def dirOf (w : Word) : BitVec 1 := (modeOf w).extractLsb' 7 1

/-- MODE[0]: KIND (R92). -/
def kindOf (w : Word) : BitVec 1 := (modeOf w).extractLsb' 0 1

/-- The command a command word names (R91, R92). The word is decoded by its opcode alone, as the opcode table's mask has it;
a reserved MODE value is an ill-formed command, and its meaning raises IllegalCommandError (R94; log 5). -/
def decode (w : Word) : Except DecodeError Instr :=
  match (opcodeOf w).toNat with
  | 0x01 => .ok (.addrParse (formOf w) (hintOf w))
  | 0x02 => .ok (.addrRender (formOf w))
  | 0x08 => .ok (.tblResolve (dirOf w) (tableOf w))
  | 0x09 => .ok .apciPack
  | 0x0A => .ok .apciUnpack
  | 0x10 => .ok .cemiEncode
  | 0x11 => .ok .cemiDecode
  | 0x18 => .ok .hdrEncode
  | 0x19 => .ok .hdrDecode
  | 0x20 => .ok (.secNonce (kindOf w))
  | 0x21 => .ok .cmacGen
  | 0x22 => .ok .secUnwrap
  | 0x23 => .ok .secTimerVerify
  | 0x24 => .ok .secWrap
  | 0x28 => .ok .dptDecode
  | 0x29 => .ok .dptEncode
  | 0x30 => .ok (.buildAction (formOf w) (hintOf w) (immOf w))
  | 0x31 => .ok (.buildStatus (formOf w) (hintOf w) (immOf w))
  | 0x32 => .ok (.buildResponse (formOf w) (hintOf w) (immOf w))
  | 0x33 => .ok .decode
  | _ => .error (.illegalOpcode (opcodeOf w))

/-- `CMD = IMM << 16 | MODE << 8 | OPCODE` (R90). -/
def commandWord (imm : Half) (mode opcode : Byte) : Word :=
  placeAt 16 imm ||| placeAt 8 mode ||| placeAt 0 opcode

/-- The MODE byte of FORM and HINT (R92). -/
def modeFormHint (form hint : BitVec 2) : Byte := placeAt 2 hint ||| placeAt 0 form

/-- The opcode of a command (R91). -/
def Instr.opcode : Instr → Byte
  | .addrParse _ _ => 0x01
  | .addrRender _ => 0x02
  | .tblResolve _ _ => 0x08
  | .apciPack => 0x09
  | .apciUnpack => 0x0A
  | .cemiEncode => 0x10
  | .cemiDecode => 0x11
  | .hdrEncode => 0x18
  | .hdrDecode => 0x19
  | .secNonce _ => 0x20
  | .cmacGen => 0x21
  | .secUnwrap => 0x22
  | .secTimerVerify => 0x23
  | .secWrap => 0x24
  | .dptDecode => 0x28
  | .dptEncode => 0x29
  | .buildAction _ _ _ => 0x30
  | .buildStatus _ _ _ => 0x31
  | .buildResponse _ _ _ => 0x32
  | .decode => 0x33

/-- The MODE byte of a command; MODE bits the command does not list are written 0 (R92). -/
def Instr.mode : Instr → Byte
  | .addrParse form hint => modeFormHint form hint
  | .addrRender fmt => placeAt 0 fmt
  | .tblResolve dir table => placeAt 7 dir ||| placeAt 0 table
  | .apciPack => 0
  | .apciUnpack => 0
  | .cemiEncode => 0
  | .cemiDecode => 0
  | .hdrEncode => 0
  | .hdrDecode => 0
  | .secNonce kind => placeAt 0 kind
  | .cmacGen => 0
  | .secUnwrap => 0
  | .secTimerVerify => 0
  | .secWrap => 0
  | .dptDecode => 0
  | .dptEncode => 0
  | .buildAction form hint _ => modeFormHint form hint
  | .buildStatus form hint _ => modeFormHint form hint
  | .buildResponse form hint _ => modeFormHint form hint
  | .decode => 0

/-- The IMM field of a command; a command that reads no IMM writes 0 there (R90). -/
def Instr.imm : Instr → Half
  | .addrParse _ _ => 0
  | .addrRender _ => 0
  | .tblResolve _ _ => 0
  | .apciPack => 0
  | .apciUnpack => 0
  | .cemiEncode => 0
  | .cemiDecode => 0
  | .hdrEncode => 0
  | .hdrDecode => 0
  | .secNonce _ => 0
  | .cmacGen => 0
  | .secUnwrap => 0
  | .secTimerVerify => 0
  | .secWrap => 0
  | .dptDecode => 0
  | .dptEncode => 0
  | .buildAction _ _ imm => imm
  | .buildStatus _ _ imm => imm
  | .buildResponse _ _ imm => imm
  | .decode => 0

/-- The command word of a command (R90). -/
def encode (i : Instr) : Word := commandWord i.imm i.mode i.opcode

/-- The bits of the command word that the command's row names: OPCODE, its listed MODE fields and, for BUILD_*, IMM (R92).
Every other bit is ignored (R93). -/
def Instr.usedBits : Instr → Word
  | .addrParse _ _ => 0x00000FFF
  | .addrRender _ => 0x000003FF
  | .tblResolve _ _ => 0x000087FF
  | .apciPack => 0x000000FF
  | .apciUnpack => 0x000000FF
  | .cemiEncode => 0x000000FF
  | .cemiDecode => 0x000000FF
  | .hdrEncode => 0x000000FF
  | .hdrDecode => 0x000000FF
  | .secNonce _ => 0x000001FF
  | .cmacGen => 0x000000FF
  | .secUnwrap => 0x000000FF
  | .secTimerVerify => 0x000000FF
  | .secWrap => 0x000000FF
  | .dptDecode => 0x000000FF
  | .dptEncode => 0x000000FF
  | .buildAction _ _ _ => 0xFFFF0FFF
  | .buildStatus _ _ _ => 0xFFFF0FFF
  | .buildResponse _ _ _ => 0xFFFF0FFF
  | .decode => 0x000000FF

/-- The command word whose lowest `nbits` bits are those of `w`, every bit above them 0. CMD is one 32-bit register, written
in one access (20_memory.md R63), so there is one word and no byte order to choose. -/
def tableWord (nbits w : Nat) : Word := BitVec.ofNat 32 (w % 2 ^ nbits)

/-- The command the decoder reads from the table's numbering of a command word. -/
def decodeTableWord (nbits w : Nat) : Option Instr :=
  match decode (tableWord nbits w) with
  | .ok i => some i
  | .error _ => none

end Sys2Proof
end

