-- ==== Sys2Proof/Machine/Crypto.lean ====
section
/-! DEFINITION. The cryptographic primitives of 44_crypto.md: AES-128 encryption (R230 to R234), AES-CMAC (R235, R236) and
the default keystream cipher (R238). -/

namespace Sys2Proof.Machine

/-- A column of the AES state, or a word of the key schedule: four bytes, row 0 first (R230, R233). -/
structure Column where
  a0 : Byte
  a1 : Byte
  a2 : Byte
  a3 : Byte
deriving DecidableEq, Repr

/-- A 16-byte block: the AES state, a key or a round key as four columns, `s[r][c] = B[r + 4c]` (R230). -/
structure Block where
  c0 : Column
  c1 : Column
  c2 : Column
  c3 : Column
deriving DecidableEq, Repr

/-- Bytewise `⊕` of two columns (R233). -/
def Column.xor (x y : Column) : Column := ⟨x.a0 ^^^ y.a0, x.a1 ^^^ y.a1, x.a2 ^^^ y.a2, x.a3 ^^^ y.a3⟩

/-- Bytewise `⊕` of two blocks (R234 AddRoundKey, R236). -/
def Block.xor (x y : Block) : Block := ⟨x.c0.xor y.c0, x.c1.xor y.c1, x.c2.xor y.c2, x.c3.xor y.c3⟩

/-- A function on bytes applied to each byte of a column. -/
def Column.map (f : Byte → Byte) (x : Column) : Column := ⟨f x.a0, f x.a1, f x.a2, f x.a3⟩

/-- The bytes of a column, row 0 first. -/
def Column.bytes (x : Column) : List Byte := [x.a0, x.a1, x.a2, x.a3]

/-- The 16 bytes of a block in wire order (R230 unload). -/
def Block.bytes (b : Block) : List Byte := b.c0.bytes ++ b.c1.bytes ++ b.c2.bytes ++ b.c3.bytes

/-- The column that starts at byte `i` of `s`; bytes past the end are 0. -/
def Column.ofBytes (s : List Byte) (i : Nat) : Column := ⟨s.getD i 0, s.getD (i + 1) 0, s.getD (i + 2) 0, s.getD (i + 3) 0⟩

/-- The block of the first 16 bytes of `s` (R230 load), filled with zero bytes where `s` is shorter (the padding of R236). -/
def Block.ofBytes (s : List Byte) : Block :=
  ⟨Column.ofBytes s 0, Column.ofBytes s 4, Column.ofBytes s 8, Column.ofBytes s 12⟩

/-- The block of 16 zero bytes, `0^16` of R235. -/
def Block.zero : Block := Block.ofBytes []

/-- A block as one 128-bit big-endian integer (R235). -/
def Block.toBits (b : Block) : BitVec 128 :=
  placeAt 120 b.c0.a0 ||| placeAt 112 b.c0.a1 ||| placeAt 104 b.c0.a2 ||| placeAt 96 b.c0.a3 |||
  placeAt 88 b.c1.a0 ||| placeAt 80 b.c1.a1 ||| placeAt 72 b.c1.a2 ||| placeAt 64 b.c1.a3 |||
  placeAt 56 b.c2.a0 ||| placeAt 48 b.c2.a1 ||| placeAt 40 b.c2.a2 ||| placeAt 32 b.c2.a3 |||
  placeAt 24 b.c3.a0 ||| placeAt 16 b.c3.a1 ||| placeAt 8 b.c3.a2 ||| placeAt 0 b.c3.a3

/-- Byte `i` of a 128-bit big-endian integer, byte 0 the most significant. -/
def byteOfBits (x : BitVec 128) (i : Nat) : Byte := x.extractLsb' (8 * (15 - i)) 8

/-- The block of a 128-bit big-endian integer. -/
def Block.ofBits (x : BitVec 128) : Block :=
  ⟨⟨byteOfBits x 0, byteOfBits x 1, byteOfBits x 2, byteOfBits x 3⟩,
   ⟨byteOfBits x 4, byteOfBits x 5, byteOfBits x 6, byteOfBits x 7⟩,
   ⟨byteOfBits x 8, byteOfBits x 9, byteOfBits x 10, byteOfBits x 11⟩,
   ⟨byteOfBits x 12, byteOfBits x 13, byteOfBits x 14, byteOfBits x 15⟩⟩

/-- The S-box of R231 as the spec prints it: one 16-byte row a line, row 0x first, column x0 the most significant byte. -/
def sboxRows : List (BitVec 128) :=
  [0x637c777bf26b6fc53001672bfed7ab76#128,
   0xca82c97dfa5947f0add4a2af9ca472c0#128,
   0xb7fd9326363ff7cc34a5e5f171d83115#128,
   0x04c723c31896059a071280e2eb27b275#128,
   0x09832c1a1b6e5aa0523bd6b329e32f84#128,
   0x53d100ed20fcb15b6acbbe394a4c58cf#128,
   0xd0efaafb434d338545f9027f503c9fa8#128,
   0x51a3408f929d38f5bcb6da2110fff3d2#128,
   0xcd0c13ec5f974417c4a77e3d645d1973#128,
   0x60814fdc222a908846eeb814de5e0bdb#128,
   0xe0323a0a4906245cc2d3ac629195e479#128,
   0xe7c8376d8dd54ea96c56f4ea657aae08#128,
   0xba78252e1ca6b4c6e8dd741f4bbd8b8a#128,
   0x703eb5664803f60e613557b986c11d9e#128,
   0xe1f8981169d98e949b1e87e9ce5528df#128,
   0x8ca1890dbfe6426841992d0fb054bb16#128]

/-- `SBOX[x]` (R231): row the high nibble, column the low nibble. -/
def sbox (x : Byte) : Byte := byteOfBits (sboxRows.getD (x.toNat / 16) 0) (x.toNat % 16)

/-- `xtime(a)` (R232). -/
def xtime (a : Byte) : Byte := (a <<< 1) ^^^ (if a.getLsbD 7 then 0x1B else 0)

/-- `a • 3` (R232). -/
def times3 (a : Byte) : Byte := xtime a ^^^ a

/-- RotWord (R233). -/
def rotWord (t : Column) : Column := ⟨t.a1, t.a2, t.a3, t.a0⟩

/-- The four words that follow the round key `k` in the key schedule, with round constant `rc` (R233). -/
def nextRoundKey (rc : Byte) (k : Block) : Block :=
  let t := (rotWord k.c3).map sbox
  let w0 := k.c0.xor ⟨t.a0 ^^^ rc, t.a1, t.a2, t.a3⟩
  let w1 := k.c1.xor w0
  let w2 := k.c2.xor w1
  let w3 := k.c3.xor w2
  ⟨w0, w1, w2, w3⟩

/-- The round constants `Rcon` (R233). -/
def rcon : List Byte := [0x01, 0x02, 0x04, 0x08, 0x10, 0x20, 0x40, 0x80, 0x1B, 0x36]

/-- The round keys after `k`, one for each round constant. -/
def roundKeysFrom (k : Block) : List Byte → List Block
  | [] => []
  | rc :: rest => nextRoundKey rc k :: roundKeysFrom (nextRoundKey rc k) rest

/-- SubBytes (R234). -/
def subBytes (s : Block) : Block := ⟨s.c0.map sbox, s.c1.map sbox, s.c2.map sbox, s.c3.map sbox⟩

/-- ShiftRows (R234): row r rotated left by r columns. -/
def shiftRows (s : Block) : Block :=
  ⟨⟨s.c0.a0, s.c1.a1, s.c2.a2, s.c3.a3⟩,
   ⟨s.c1.a0, s.c2.a1, s.c3.a2, s.c0.a3⟩,
   ⟨s.c2.a0, s.c3.a1, s.c0.a2, s.c1.a3⟩,
   ⟨s.c3.a0, s.c0.a1, s.c1.a2, s.c2.a3⟩⟩

/-- MixColumns of one column (R234). -/
def mixColumn (x : Column) : Column :=
  ⟨xtime x.a0 ^^^ times3 x.a1 ^^^ x.a2 ^^^ x.a3,
   x.a0 ^^^ xtime x.a1 ^^^ times3 x.a2 ^^^ x.a3,
   x.a0 ^^^ x.a1 ^^^ xtime x.a2 ^^^ times3 x.a3,
   times3 x.a0 ^^^ x.a1 ^^^ x.a2 ^^^ xtime x.a3⟩

/-- MixColumns (R234). -/
def mixColumns (s : Block) : Block := ⟨mixColumn s.c0, mixColumn s.c1, mixColumn s.c2, mixColumn s.c3⟩

/-- The rounds of R234 on the state `s`, one for each round key: the last has no MixColumns. -/
def aesRounds (s : Block) : List Block → Block
  | [] => s
  | [k] => (shiftRows (subBytes s)).xor k
  | k :: k' :: rest => aesRounds ((mixColumns (shiftRows (subBytes s))).xor k) (k' :: rest)

/-- `AES(K, B)` (R230, R234). -/
def aes (k b : Block) : Block := aesRounds (b.xor k) (roundKeysFrom k rcon)

/-- `dbl(X)` (R235). -/
def dbl (x : Block) : Block :=
  Block.ofBits ((x.toBits <<< 1) ^^^ (if x.toBits.getLsbD 127 then 0x87 else 0))

/-- The subkey `K1` (R235). -/
def cmacK1 (k : Block) : Block := dbl (aes k Block.zero)

/-- The subkey `K2` (R235). -/
def cmacK2 (k : Block) : Block := dbl (cmacK1 k)

/-- The last block `M_last` of R236: `m` holds what is left of the message, 0 to 16 bytes. -/
def cmacLast (k : Block) (m : List Byte) : Block :=
  if m.length = 16 then (Block.ofBytes m).xor (cmacK1 k) else (Block.ofBytes (m ++ [0x80])).xor (cmacK2 k)

/-- The chain of R236 from the chaining value `x`: `n` whole blocks, then the last one. -/
def cmacChain (k : Block) : Nat → Block → List Byte → Block
  | 0, x, m => aes k (x.xor (cmacLast k m))
  | n + 1, x, m => cmacChain k n (aes k (x.xor (Block.ofBytes (m.take 16)))) (m.drop 16)

/-- `CMAC(K, M)` (R236): `ceil(len(M) / 16) - 1` whole blocks stand before the last, none where M is empty. -/
def cmac (k : Block) (m : List Byte) : List Byte := (cmacChain k ((m.length + 15) / 16 - 1) Block.zero m).bytes

/-- `count` keystream blocks from counter `j` on (R238): `AES(K, N ‖ u8(j mod 256))`. -/
def keystreamBlocks (k : Block) (nonce : List Byte) : Nat → Nat → List Byte
  | 0, _ => []
  | count + 1, j =>
    (aes k (Block.ofBytes (nonce ++ [BitVec.ofNat 8 j]))).bytes ++ keystreamBlocks k nonce count (j + 1)

/-- `Keystream(K, N, n)` (R238): the first `n` bytes of the blocks with counters 1, 2, … modulo 256. -/
def keystream (k : Block) (nonce : List Byte) (n : Nat) : List Byte :=
  (keystreamBlocks k nonce ((n + 15) / 16) 1).take n

/-- `SEC_CIPHER_default(K, N_dec, C)` (R238): the byte string XORed with its keystream, in both directions. -/
def keystreamCipher (k : Block) (nonce c : List Byte) : List Byte := xorBytes c (keystream k nonce c.length)

end Sys2Proof.Machine
end

