-- ==== Sys2Proof/Machine/Tables.lean ====
section
/-! DEFINITION. The static code tables (41_apci_tpci.md R140 to R144, 43_header.md R200): constants, row by row as the spec
prints them. A row's index is its symbol in hardware (R140). -/

namespace Sys2Proof.Machine

/-- One row of a code table: the code, and the symbol's name as the spec prints it (the index is the row's place). -/
structure TableRow where
  code : Word
  symbol : String
deriving DecidableEq, Repr

/-- The legacy APCI action table, the default of `ACTION_TABLE` (R141). -/
def actionTable : List TableRow :=
  [⟨0, "group_read"⟩,
   ⟨1, "group_resp"⟩,
   ⟨2, "group_write"⟩,
   ⟨3, "individual_write"⟩,
   ⟨4, "individual_read"⟩,
   ⟨5, "individual_resp"⟩,
   ⟨6, "adc_read"⟩,
   ⟨7, "adc_resp"⟩,
   ⟨8, "memory_read"⟩,
   ⟨9, "memory_resp"⟩,
   ⟨10, "memory_write"⟩,
   ⟨11, "user_msg"⟩,
   ⟨12, "descriptor_read"⟩,
   ⟨13, "descriptor_resp"⟩,
   ⟨14, "restart"⟩,
   ⟨15, "escape"⟩]

/-- The TPCI table (R142). -/
def tpciTable : List TableRow :=
  [⟨0, "unnumbered_data"⟩,
   ⟨1, "numbered_data"⟩,
   ⟨2, "unnumbered_control"⟩,
   ⟨3, "numbered_control"⟩]

/-- The CEMI message-code table, the default of `MSG_CODE_TABLE` (R143). -/
def msgCodeTable : List TableRow :=
  [⟨0x10, "raw_request"⟩,
   ⟨0x11, "data_request"⟩,
   ⟨0x13, "poll_data_request"⟩,
   ⟨0x25, "poll_data_connection"⟩,
   ⟨0x29, "data_indicator"⟩,
   ⟨0x2B, "busmon_indicator"⟩,
   ⟨0x2D, "raw_indicator"⟩,
   ⟨0x2E, "data_connection"⟩,
   ⟨0x2F, "raw_connection"⟩]

/-- The priority table (R144). -/
def priorityTable : List TableRow :=
  [⟨0, "system"⟩,
   ⟨1, "alarm"⟩,
   ⟨2, "high"⟩,
   ⟨3, "low"⟩]

/-- The request-type table, the default of `REQ_TYPE_TABLE` (R200). -/
def reqTypeTable : List TableRow :=
  [⟨0x0201, "search_request"⟩,
   ⟨0x0202, "search_response"⟩,
   ⟨0x0203, "description_request"⟩,
   ⟨0x0204, "description_response"⟩,
   ⟨0x0205, "connect_request"⟩,
   ⟨0x0206, "connect_response"⟩,
   ⟨0x0207, "connectionstate_request"⟩,
   ⟨0x0208, "connectionstate_response"⟩,
   ⟨0x0209, "disconnect_request"⟩,
   ⟨0x020A, "disconnect_response"⟩,
   ⟨0x0310, "device_configuration_request"⟩,
   ⟨0x0311, "device_configuration_ack"⟩,
   ⟨0x0420, "tunnelling_request"⟩,
   ⟨0x0421, "tunnelling_ack"⟩,
   ⟨0x0530, "routing_indication"⟩,
   ⟨0x0531, "routing_lost_message"⟩,
   ⟨0x0532, "routing_busy"⟩,
   ⟨0x0740, "remote_diagnostic_request"⟩,
   ⟨0x0741, "remote_diagnostic_response"⟩,
   ⟨0x0950, "secure_wrapper"⟩,
   ⟨0x0951, "secure_session_request"⟩,
   ⟨0x0952, "secure_session_response"⟩,
   ⟨0x0953, "secure_session_authenticate"⟩,
   ⟨0x0954, "secure_session_status"⟩,
   ⟨0x0955, "secure_timer_notify"⟩]

end Sys2Proof.Machine
end

