-- ==== Sys2Proof/Config.lean ====
section
/-! DEFINITION. The implementation parameters of 00_scope.md R6. The OPEN ones are an argument of the model: the codecs, execAt,
stepAt and coreAt take them. exec, step and core are the model at the defaults the spec prints (log 6). -/

namespace Sys2Proof

open Machine

/-- The OPEN parameters of R6 (92_eei_decisions.md D13, D14, D34), and `ACTION_TABLE`, which R141 lets a model swap too. -/
structure OpenParams where
  /-- `ACTION_TABLE` (R141). -/
  actionTable : List TableRow
  /-- `MSG_CODE_TABLE` (R143). -/
  msgCodeTable : List TableRow
  /-- `REQ_TYPE_TABLE` (R200). -/
  reqTypeTable : List TableRow
  /-- `REQ_SECURE_WRAPPER` (R81). -/
  reqSecureWrapper : Half
  /-- `REQ_SECURE_TIMER_NOTIFY` (R81). -/
  reqSecureTimerNotify : Half
  /-- `REQ_SESSION_SET` (R318). -/
  reqSessionSet : List Half
  /-- `SEC_CIPHER` (R238): key, N_dec and ciphertext to the plaintext, or to failure (R269). -/
  secCipher : Block → List Byte → List Byte → Option (List Byte)
  /-- The encryption direction of `SEC_CIPHER`, which SEC_WRAP uses (R272; 92_eei_decisions.md D34). -/
  secEncipher : Block → List Byte → List Byte → List Byte

/-- The contract of R238 and R272 on a replaced `SEC_CIPHER`: on success it returns len(C) bytes, and the encryption direction
matches it. -/
structure OpenParams.CipherContract (o : OpenParams) : Prop where
  length : ∀ k n c p, o.secCipher k n c = some p → p.length = c.length
  encipher_length : ∀ k n p, (o.secEncipher k n p).length = p.length
  inverse : ∀ k n p, o.secCipher k n (o.secEncipher k n p) = some p

/-- The parameters of R6 that a rule reads: the OPEN ones and the fixed ones. `KEY_BITS` is 128 by the type of a key (`Block`). -/
structure Params extends OpenParams where
  /-- `BUF_BYTES`: the capacity of a buffer, and so the longest datagram (R6; 10_state.md R31; 92_eei_decisions.md D50). -/
  bufBytes : Nat
  /-- `MAX_DATA`: the most data bytes a CEMI frame carries (R174). -/
  maxData : Nat
  /-- `DPT_REGISTRY` (R290). -/
  dptRegistry : List Word
  /-- `DEFAULT_VERSION` of the builders (R310). -/
  defaultVersion : Byte
  /-- `DEFAULT_REQ_TYPE` of the builders (R310). -/
  defaultReqType : Half

/-- The defaults that R6 shows for the OPEN parameters (log 6). -/
def Config.openDefaults : OpenParams where
  actionTable := Machine.actionTable
  msgCodeTable := Machine.msgCodeTable
  reqTypeTable := Machine.reqTypeTable
  reqSecureWrapper := 0x0950
  reqSecureTimerNotify := 0x0955
  reqSessionSet := [0x0951, 0x0952, 0x0953, 0x0954]
  secCipher := fun k n c => some (keystreamCipher k n c)
  secEncipher := keystreamCipher

/-- The parameters of an engine with the OPEN values `o`: every other one takes the value R6 shows. -/
def Config.paramsAt (o : OpenParams) : Params where
  toOpenParams := o
  bufBytes := 65535
  maxData := 255
  dptRegistry := [0x00090001]
  defaultVersion := 0x10
  defaultReqType := 0x0530

/-- The parameters at the defaults of R6. -/
def Config.params : Params := Config.paramsAt Config.openDefaults

end Sys2Proof
end

