-- ==== Sys2Proof/Machine/State.lean ====
section
/-! DEFINITION. The state of the engine (10_state.md), its error codes (60_exceptions.md R400), what a step can answer, and the
reset state (70_reset_and_hazards.md R451). -/

namespace Sys2Proof.Machine

/-- A buffer of bytes by index: the cells that are not 0, in rising order of index (`Memory.wf`). An unlisted index reads 0,
the reset content of both buffers (R31, R32). -/
abbrev Memory := List Host.Cell

/-- The errors that end a command (R400), codes 1 to 10; code 0 is the normal end. -/
inductive ErrCode where
  /-- Code 1: raised by ADDR_PARSE and BUILD_*. -/
  | addressFormat
  /-- Code 2: raised by HDR_DECODE, SEC_UNWRAP, SEC_TIMER_VERIFY, DECODE. -/
  | headerLength
  /-- Code 3: raised by CEMI_DECODE, APCI_UNPACK, DECODE, DPT_DECODE, SEC_NONCE, SEC_WRAP, BUILD_*. -/
  | frameTruncated
  /-- Code 4: raised by DPT_DECODE, DPT_ENCODE. -/
  | unknownDatapoint
  /-- Code 5: raised by DPT_ENCODE. -/
  | range
  /-- Code 6: raised by SEC_UNWRAP, SEC_TIMER_VERIFY, DECODE. -/
  | authentication
  /-- Code 7: raised by CMAC_GEN, SEC_UNWRAP, SEC_TIMER_VERIFY, SEC_WRAP, DECODE. -/
  | keyRequired
  /-- Code 8: raised by CEMI_ENCODE, BUILD_ACTION, BUILD_RESPONSE, HDR_ENCODE, SEC_WRAP. -/
  | encodeLength
  /-- Code 9: raised for every illegal encoding (R94). -/
  | illegalCommand
  /-- Code 10: raised by SEC_UNWRAP, SEC_TIMER_VERIFY, DECODE. -/
  | unsupportedFrame
deriving DecidableEq, Repr

/-- The states of the secure state machine that STATUS.SEC_STATE reports (R33, R262). -/
inductive SecState where
  | none
  | wrapped
  | authenticated
  | rejected
deriving DecidableEq, Repr

/-- RES0 to RES11 (R30). -/
structure Results where
  r0 : Word := 0
  r1 : Word := 0
  r2 : Word := 0
  r3 : Word := 0
  r4 : Word := 0
  r5 : Word := 0
  r6 : Word := 0
  r7 : Word := 0
  r8 : Word := 0
  r9 : Word := 0
  r10 : Word := 0
  r11 : Word := 0
deriving DecidableEq, Repr

/-- What the environment of the ENGINE does next (10_state.md R20, 20_memory.md R62 to R64, 70_reset_and_hazards.md R450;
log 1). -/
inductive Event where
  /-- A host write of `data` to `addr`, `bits` bits wide; an 8-bit write carries the lowest 8 bits of `data` (log 9). -/
  | write (addr : BitVec 18) (bits : Nat) (data : Word)
  /-- A host read of `addr`, `bits` bits wide; the value goes to `busData` (log 3). -/
  | read (addr : BitVec 18) (bits : Nat)
  /-- The ENGINE's turn: its step happens before the host's next access. -/
  | engine
  /-- The platform's reset (R450; log 8). -/
  | reset
deriving DecidableEq, Repr

/-- The state of one engine (R21), with what stands outside it: the events still to come and the last value read. -/
structure State where
  /-- CMD (R23). -/
  cmd : Word
  /-- STATUS (R22): fields in Flags.lean. -/
  status : Word
  /-- OPT (R24). -/
  opt : Word
  /-- SRC (R25). -/
  src : Word
  /-- IN_LEN (R26). -/
  inLen : Word
  /-- OUT_LEN (R26). -/
  outLen : Word
  /-- ARG0 to ARG3 (R29). -/
  arg0 : Word
  arg1 : Word
  arg2 : Word
  arg3 : Word
  /-- KEY0 to KEY3 (R27). -/
  key0 : Word
  key1 : Word
  key2 : Word
  key3 : Word
  /-- KEYCTL (R28). -/
  keyctl : Word
  /-- RES0 to RES11 (R30). -/
  res : Results
  /-- IN_BUF by index (R31). -/
  inBuf : Memory
  /-- OUT_BUF by index (R32). -/
  outBuf : Memory
  /-- IN, the input bytes sampled when the pending command started (R31, R34, R401); empty when none is pending. -/
  inSample : List Byte
  /-- MODEL: the events the environment still issues, the next one first (log 1). -/
  env : List Event
  /-- MODEL: the value the host's last read returned (log 3). -/
  busData : Word
deriving DecidableEq, Repr

/-- Why the machine stops: it never does. Every error is the end of a command (R403, R406) and every host access has a
result (R64), so the type has no constructor (log 11): safe. -/
inductive Fault : Type
deriving DecidableEq, Repr

/-- Why a command has no meaning. -/
inductive Refusal where
  /-- Raised by an arm of exec whose command is not modelled yet. No arm is: safe. -/
  | notModelled (mnemonic : String)
deriving DecidableEq, Repr

/-- The machine right after reset (R451): nothing pending, nothing for the environment to do. -/
def State.reset : State where
  cmd := 0x00000000
  status := 0x00000000
  opt := 0x0000296F
  src := 0x00000001
  inLen := 0x00000000
  outLen := 0x00000000
  arg0 := 0x00000000
  arg1 := 0x00000000
  arg2 := 0x00000000
  arg3 := 0x00000000
  key0 := 0x00000000
  key1 := 0x00000000
  key2 := 0x00000000
  key3 := 0x00000000
  keyctl := 0x00000000
  res := {}
  inBuf := []
  outBuf := []
  inSample := []
  env := []
  busData := 0

end Sys2Proof.Machine
end

