-- ==== Sys2Proof/Machine/Flags.lean ====
section
/-! DEFINITION. The fields of STATUS, the engine's only flags (10_state.md R22, R33; 60_exceptions.md R400). -/

namespace Sys2Proof.Machine

/-- ERR_CODE of an error (R400). -/
def ErrCode.code : ErrCode → Byte
  | .addressFormat => 1
  | .headerLength => 2
  | .frameTruncated => 3
  | .unknownDatapoint => 4
  | .range => 5
  | .authentication => 6
  | .keyRequired => 7
  | .encodeLength => 8
  | .illegalCommand => 9
  | .unsupportedFrame => 10

/-- The SEC_STATE encoding (R33). -/
def SecState.code : SecState → BitVec 2
  | .none => 0
  | .wrapped => 1
  | .authenticated => 2
  | .rejected => 3

/-- The STATUS word of its fields (R22): ERR is 1 if and only if ERR_CODE is not 0, and the reserved bits are 0. -/
def statusWord (busy done : Bool) (errCode : Byte) (sec : SecState) : Word :=
  placeAt 0 (bit busy) ||| placeAt 1 (bit done) ||| placeAt 2 (bit (errCode != 0)) ||| placeAt 8 errCode |||
    placeAt 16 sec.code

/-- STATUS.BUSY (R22). -/
def State.busy (s : State) : Bool := s.status.getLsbD 0

/-- STATUS.DONE (R22). -/
def State.done (s : State) : Bool := s.status.getLsbD 1

/-- STATUS.ERR (R22). -/
def State.err (s : State) : Bool := s.status.getLsbD 2

/-- STATUS.ERR_CODE (R22). -/
def State.errCode (s : State) : Byte := s.status.extractLsb' 8 8

/-- STATUS.SEC_STATE (R22, R33). -/
def State.secState (s : State) : BitVec 2 := s.status.extractLsb' 16 2

end Sys2Proof.Machine
end

