-- ==== Sys2Proof/Machine/Operands.lean ====
section
/-! DEFINITION. The operands of the commands: the MODE fields (30_encoding.md R92), the key (10_state.md R27, R28), the caller
options (R24, R25), and the fields of a CEMI frame to encode (42_cemi.md R176). -/

namespace Sys2Proof.Machine

/-- The family of an address (40_address.md R110). -/
inductive Family where
  | individual
  | group3
  | group2
deriving DecidableEq, Repr

/-- The family's number (R110, R116). -/
def Family.code : Family → BitVec 2
  | .individual => 0
  | .group3 => 1
  | .group2 => 2

/-- `is_group` of a family (R115). -/
def Family.isGroup : Family → Bool
  | .individual => false
  | .group3 => true
  | .group2 => true

/-- FORM: where an address comes from (R92, R117). -/
inductive Form where
  | int
  | bytes
  | str
deriving DecidableEq, Repr

/-- The FORM field; value 3 is illegal (R92, R94). -/
def formOperand (form : BitVec 2) : Option Form :=
  match form.toNat with
  | 0 => some .int
  | 1 => some .bytes
  | 2 => some .str
  | _ => none

/-- The HINT field as the family it stands for, `fam_of_hint` (R117); value 3 is illegal (R92, R94). -/
def hintOperand (hint : BitVec 2) : Option Family :=
  match hint.toNat with
  | 0 => some .group3
  | 1 => some .group2
  | 2 => some .individual
  | _ => none

/-- The FMT field as the family it renders (R92, R119); value 3 is illegal (R94). -/
def fmtOperand (fmt : BitVec 2) : Option Family :=
  match fmt.toNat with
  | 0 => some .individual
  | 1 => some .group3
  | 2 => some .group2
  | _ => none

/-- The four key bytes of a KEY register, bits [31:24] first (R27). -/
def keyColumn (w : Word) : Column :=
  ⟨w.extractLsb' 24 8, w.extractLsb' 16 8, w.extractLsb' 8 8, w.extractLsb' 0 8⟩

/-- `KEY`: the 16 key bytes in the order AES consumes them (R10, R27, 44_crypto.md R230). -/
def State.key (s : State) : Block := ⟨keyColumn s.key0, keyColumn s.key1, keyColumn s.key2, keyColumn s.key3⟩

/-- KEYCTL.KEY_VALID (R28). -/
def State.keyValid (s : State) : Bool := s.keyctl.getLsbD 0

/-- OPT.PRIORITY (R24). -/
def State.optPriority (s : State) : BitVec 2 := s.opt.extractLsb' 0 2

/-- OPT.NO_REPEAT (R24). -/
def State.optNoRepeat (s : State) : BitVec 1 := s.opt.extractLsb' 2 1

/-- OPT.BROADCAST (R24). -/
def State.optBroadcast (s : State) : BitVec 1 := s.opt.extractLsb' 3 1

/-- OPT.HOP_COUNT (R24). -/
def State.optHopCount (s : State) : BitVec 3 := s.opt.extractLsb' 4 3

/-- OPT.TWO_LEVEL_GROUP (R24). -/
def State.optTwoLevelGroup (s : State) : Bool := s.opt.getLsbD 7

/-- OPT.MSG_CODE (R24). -/
def State.optMsgCode (s : State) : Byte := s.opt.extractLsb' 8 8

/-- SRC[15:0], the builders' source address (R25). -/
def State.srcAddress (s : State) : Half := s.src.extractLsb' 0 16

/-- The fields of a CEMI frame to encode (42_cemi.md R170, R176); info_length and the reserved bit are always written 0. -/
structure CemiFields where
  msg : Byte
  std : BitVec 1
  noRepeat : BitVec 1
  broadcast : BitVec 1
  priority : BitVec 2
  ack : BitVec 1
  err : BitVec 1
  isGroup : BitVec 1
  hop : BitVec 3
  eff : BitVec 4
  tpci : BitVec 2
  seq : BitVec 4
  src : Half
  dst : Half
  code : BitVec 10
deriving DecidableEq, Repr

/-- The operands of CEMI_ENCODE in ARG0, ARG1 and ARG2 (R176). -/
def cemiOperands (s : State) : CemiFields where
  msg := s.arg0.extractLsb' 0 8
  std := s.arg0.extractLsb' 8 1
  noRepeat := s.arg0.extractLsb' 9 1
  broadcast := s.arg0.extractLsb' 10 1
  priority := s.arg0.extractLsb' 11 2
  ack := s.arg0.extractLsb' 13 1
  err := s.arg0.extractLsb' 14 1
  isGroup := s.arg0.extractLsb' 15 1
  hop := s.arg0.extractLsb' 16 3
  eff := s.arg0.extractLsb' 19 4
  tpci := s.arg0.extractLsb' 23 2
  seq := s.arg0.extractLsb' 25 4
  src := s.arg1.extractLsb' 0 16
  dst := s.arg1.extractLsb' 16 16
  code := s.arg2.extractLsb' 0 10

end Sys2Proof.Machine
end

