-- ==== Sys2Proof/Machine/Ops.lean ====
section
/-! DEFINITION. The shared operations: the buffers, the start of a command (60_exceptions.md R401), its normal end (R402) and
its error end (R403), and the host's accesses (20_memory.md R62 to R65, 70_reset_and_hazards.md R452). -/

namespace Sys2Proof.Machine

/-! ### The buffers -/

/-- The byte at index `a`: an unlisted index reads 0 (R31, R32, R451). -/
def Memory.read : Memory → Nat → Byte
  | [], _ => 0
  | (k, v) :: rest, a => if k = a then v else Memory.read rest a

/-- Writing `b` at index `a`; writing 0, what an unlisted index reads as, removes the cell. -/
def Memory.write : Memory → Nat → Byte → Memory
  | [], a, b => if b = 0 then [] else [(a, b)]
  | (k, v) :: rest, a, b =>
    if a < k then (if b = 0 then (k, v) :: rest else (a, b) :: (k, v) :: rest)
    else if a = k then (if b = 0 then rest else (a, b) :: rest)
    else (k, v) :: Memory.write rest a b

/-- The cells of a byte string laid from index `i` on. -/
def Memory.ofBytesFrom (i : Nat) : List Byte → Memory
  | [] => []
  | b :: rest => if b = 0 then Memory.ofBytesFrom (i + 1) rest else (i, b) :: Memory.ofBytesFrom (i + 1) rest

/-- A buffer that holds the byte string from index 0 and 0 in every other place (`OutWrite`, R10). -/
def Memory.ofBytes (l : List Byte) : Memory := Memory.ofBytesFrom 0 l

/-- The first `n` bytes of a buffer. -/
def Memory.bytes (m : Memory) (n : Nat) : List Byte := (List.range n).map m.read

/-- The canonical form from index `lo` on: indices strictly rising and below 65535 (R31, R32), no cell that holds 0. -/
def Memory.wfFrom (lo : Nat) : Memory → Bool
  | [] => true
  | (k, v) :: rest => decide (lo ≤ k) && decide (k < 65535) && (v != 0) && Memory.wfFrom (k + 1) rest

/-- The canonical form of a buffer. -/
def Memory.wf (m : Memory) : Bool := Memory.wfFrom 0 m

/-! ### Result registers -/

/-- `RES[i]` (R30). -/
def Results.get (r : Results) : Nat → Word
  | 0 => r.r0
  | 1 => r.r1
  | 2 => r.r2
  | 3 => r.r3
  | 4 => r.r4
  | 5 => r.r5
  | 6 => r.r6
  | 7 => r.r7
  | 8 => r.r8
  | 9 => r.r9
  | 10 => r.r10
  | 11 => r.r11
  | _ => 0

/-- `RES[i] <- v` (R10). -/
def Results.set (r : Results) (i : Nat) (v : Word) : Results :=
  match i with
  | 0 => { r with r0 := v }
  | 1 => { r with r1 := v }
  | 2 => { r with r2 := v }
  | 3 => { r with r3 := v }
  | 4 => { r with r4 := v }
  | 5 => { r with r5 := v }
  | 6 => { r with r6 := v }
  | 7 => { r with r7 := v }
  | 8 => { r with r8 := v }
  | 9 => { r with r9 := v }
  | 10 => { r with r10 := v }
  | 11 => { r with r11 := v }
  | _ => r

/-! ### A command's start and its two ends -/

/-- The sample `IN = IN_BUF[0..IN_LEN)` that a command start takes (R31). -/
def State.inputBytes (s : State) : List Byte := s.inBuf.bytes (s.inLen.extractLsb' 0 16).toNat

/-- Command start (R401): the value stored in CMD, IN sampled, STATUS BUSY with every other field 0, results and output cleared.
Nothing else changes. -/
def State.commandStart (s : State) (v : Word) : State :=
  { s with
    cmd := v
    inSample := s.inputBytes
    status := statusWord true false 0 .none
    res := {}
    outLen := 0
    outBuf := [] }

/-- What a command that ends normally leaves: its results (a register it does not write stays 0, R30), its output and the
SEC_STATE it reached (log 4). -/
structure Done where
  res : Results := {}
  out : List Byte := []
  sec : SecState := .none
deriving DecidableEq, Repr

/-- `raise E`: the error, and the SEC_STATE last written before it (R403). -/
structure Raised where
  err : ErrCode
  sec : SecState := .none
deriving DecidableEq, Repr

/-- Normal end (R402): results, output and SEC_STATE as the rule wrote them, ERR and ERR_CODE 0, the key and KEY_VALID cleared,
BUSY 0 and DONE 1. The sample does not outlive the command (R34; log 10). -/
def State.normalEnd (s : State) (d : Done) : State :=
  { s with
    res := d.res
    outLen := BitVec.ofNat 32 d.out.length
    outBuf := Memory.ofBytes d.out
    status := statusWord false true 0 d.sec
    key0 := 0
    key1 := 0
    key2 := 0
    key3 := 0
    keyctl := 0
    inSample := [] }

/-- Error end, what `raise E` does (R403), the engine's whole exception entry (R406): results and output cleared, SEC_STATE as
last written, ERR 1 and the code, the key and KEY_VALID cleared, BUSY 0 and DONE 1. There is no return from it (R407): the
next command start clears it (R405, `State.commandStart`). -/
def State.errorEnd (s : State) (e : Raised) : State :=
  { s with
    res := {}
    outLen := 0
    outBuf := []
    status := statusWord false true e.err.code e.sec
    key0 := 0
    key1 := 0
    key2 := 0
    key3 := 0
    keyctl := 0
    inSample := [] }

/-- The end of a command, by what its rule came to (R402, R403). -/
def State.finish (s : State) : Except Raised Done → State
  | .ok d => s.normalEnd d
  | .error e => s.errorEnd e

/-- The error end of an illegal encoding (R94). -/
def illegal : Except Raised Done := .error ⟨.illegalCommand, .none⟩

/-! ### Host accesses -/

/-- A read of the register at window offset `off` (R21): KEY registers and unmapped offsets read 0 (R27, R64). -/
def State.readReg (s : State) (off : Nat) : Word :=
  match off with
  | 0x000 => s.cmd
  | 0x004 => s.status
  | 0x008 => s.opt
  | 0x00C => s.src
  | 0x010 => s.inLen
  | 0x014 => s.outLen
  | 0x018 => s.arg0
  | 0x01C => s.arg1
  | 0x020 => s.arg2
  | 0x024 => s.arg3
  | 0x040 => s.keyctl
  | 0x080 => s.res.r0
  | 0x084 => s.res.r1
  | 0x088 => s.res.r2
  | 0x08C => s.res.r3
  | 0x090 => s.res.r4
  | 0x094 => s.res.r5
  | 0x098 => s.res.r6
  | 0x09C => s.res.r7
  | 0x0A0 => s.res.r8
  | 0x0A4 => s.res.r9
  | 0x0A8 => s.res.r10
  | 0x0AC => s.res.r11
  | _ => 0

/-- A write of the register at window offset `off` while BUSY = 0 (R21, R23 to R29): reserved bits stay 0, and a write to a
read-only or unmapped offset is ignored (R64). A write of CMD starts a command (R401). -/
def State.writeReg (s : State) (off : Nat) (v : Word) : State :=
  match off with
  | 0x000 => s.commandStart v
  | 0x008 => { s with opt := v &&& 0x0000FFFF }
  | 0x00C => { s with src := v &&& 0x0000FFFF }
  | 0x010 => { s with inLen := v &&& 0x0000FFFF }
  | 0x018 => { s with arg0 := v }
  | 0x01C => { s with arg1 := v }
  | 0x020 => { s with arg2 := v }
  | 0x024 => { s with arg3 := v }
  | 0x030 => { s with key0 := v }
  | 0x034 => { s with key1 := v }
  | 0x038 => { s with key2 := v }
  | 0x03C => { s with key3 := v }
  | 0x040 => { s with keyctl := v &&& 0x00000001 }
  | _ => s

/-- What a host address names, for an access of a given width (R62, R63): anything else is the `none` of R64. -/
inductive Location where
  /-- A register of the window, by its offset. -/
  | register (off : Nat)
  /-- IN_BUF[i]. -/
  | inBuf (i : Nat)
  /-- OUT_BUF[i]. -/
  | outBuf (i : Nat)
  /-- Unmapped, or an access of the wrong width or alignment. -/
  | none
deriving DecidableEq, Repr

/-- The location of a host access (R62 to R64). -/
def locate (addr : BitVec 18) (bits : Nat) : Location :=
  let a := addr.toNat
  if a < 0x100 then (if bits = 32 ∧ a % 4 = 0 then .register a else .none)
  else if 0x10000 ≤ a ∧ a ≤ 0x1FFFE then (if bits = 8 then .inBuf (a - 0x10000) else .none)
  else if 0x20000 ≤ a ∧ a ≤ 0x2FFFE then (if bits = 8 then .outBuf (a - 0x20000) else .none)
  else .none

/-- The value a host read returns (R62 to R65, R452); a byte stands in the lowest bits (log 9). -/
def State.hostRead (s : State) (addr : BitVec 18) (bits : Nat) : Word :=
  match locate addr bits with
  | .register off => s.readReg off
  | .inBuf i => (s.inBuf.read i).setWidth 32
  | .outBuf i => (s.outBuf.read i).setWidth 32
  | .none => 0

/-- The effect of a host write (R62 to R65): ignored while BUSY = 1 (R452), and at read-only and unmapped locations (R64). -/
def State.hostWrite (s : State) (addr : BitVec 18) (bits : Nat) (data : Word) : State :=
  if s.busy then s
  else
    match locate addr bits with
    | .register off => s.writeReg off data
    | .inBuf i => { s with inBuf := s.inBuf.write i (data.extractLsb' 0 8) }
    | .outBuf _ => s
    | .none => s

/-- The platform's reset (R450, R451): every piece of the engine's state takes its reset value, whatever it was doing. The host
is not reset: the events still to come and the last value it read stay (log 8). -/
def State.platformReset (s : State) : State := { State.reset with env := s.env, busData := s.busData }

end Sys2Proof.Machine
end

