-- ==== Sys2Proof/Machine/Address.lean ====
section
/-! DEFINITION. The address codec (40_address.md): ADDR_PARSE (R117) and ADDR_RENDER (R120). -/

namespace Sys2Proof.Machine

/-- ASCII `/`. -/
def slash : Byte := 0x2F

/-- ASCII `.`. -/
def dot : Byte := 0x2E

/-- A byte string cut at every separator: one part more than there are separators. -/
def splitAtSep (sep : Byte) : List Byte → List (List Byte)
  | [] => [[]]
  | c :: cs =>
    if c = sep then [] :: splitAtSep sep cs
    else
      match splitAtSep sep cs with
      | [] => [[c]]
      | part :: parts => (c :: part) :: parts

/-- A decimal digit, 0x30 to 0x39 (R111). -/
def isDigit (c : Byte) : Bool := decide (0x30 ≤ c.toNat) && decide (c.toNat ≤ 0x39)

/-- DEC: one or more decimal digits (R111). -/
def isDec (s : List Byte) : Bool := !s.isEmpty && s.all isDigit

/-- The decimal value of a digit string, read without a bound (R111). -/
def decValue (s : List Byte) : Nat := s.foldl (fun acc c => 10 * acc + (c.toNat - 0x30)) 0

/-- A string that matched a pattern of R111, with its fields' values. -/
inductive Friendly where
  | group3 (main middle sub : Nat)
  | group2 (main sub : Nat)
  | individual (area line device : Nat)
deriving DecidableEq, Repr

/-- The pattern of R111 that a string matches, if any. -/
def matchFriendly (s : List Byte) : Option Friendly :=
  match splitAtSep slash s with
  | [a, b, c] => if isDec a && isDec b && isDec c then some (.group3 (decValue a) (decValue b) (decValue c)) else none
  | [a, b] => if isDec a && isDec b then some (.group2 (decValue a) (decValue b)) else none
  | _ =>
    match splitAtSep dot s with
    | [a, b, c] => if isDec a && isDec b && isDec c then some (.individual (decValue a) (decValue b) (decValue c)) else none
    | _ => none

/-- Every field fits its width (R112). -/
def Friendly.inRange : Friendly → Bool
  | .group3 main middle sub => decide (main ≤ 15) && decide (middle ≤ 7) && decide (sub ≤ 255)
  | .group2 main sub => decide (main ≤ 15) && decide (sub ≤ 2047)
  | .individual area line device => decide (area ≤ 15) && decide (line ≤ 15) && decide (device ≤ 255)

/-- The value of a matched string (R113), its fields in the bit places of R88. -/
def Friendly.value : Friendly → Half
  | .group3 main middle sub => placeAt 11 (BitVec.ofNat 4 main) ||| placeAt 8 (BitVec.ofNat 3 middle) ||| placeAt 0 (BitVec.ofNat 8 sub)
  | .group2 main sub => placeAt 11 (BitVec.ofNat 4 main) ||| placeAt 0 (BitVec.ofNat 11 sub)
  | .individual area line device =>
    placeAt 12 (BitVec.ofNat 4 area) ||| placeAt 8 (BitVec.ofNat 4 line) ||| placeAt 0 (BitVec.ofNat 8 device)

/-- The family of a matched string (R111, R123). -/
def Friendly.family : Friendly → Family
  | .group3 _ _ _ => .group3
  | .group2 _ _ => .group2
  | .individual _ _ _ => .individual

/-- A parsed address: its 16-bit value, its family, and whether it came in a raw form (R110, R116). -/
structure Address where
  value : Half
  family : Family
  raw : Bool
deriving DecidableEq, Repr

/-- ParseAddress (R117): `n` the integer of FORM_INT, `s` the byte string of the other forms, `hint` the family of raw forms. -/
def parseAddress (form : Form) (hint : Family) (n : Word) (s : List Byte) : Except ErrCode Address :=
  match form with
  | .int => if 0xFFFF < n.toNat then .error .addressFormat else .ok ⟨n.setWidth 16, hint, true⟩
  | .bytes => if s.length ≠ 2 then .error .addressFormat else .ok ⟨unBe16 s, hint, true⟩
  | .str =>
    match matchFriendly s with
    | some f => if f.inRange then .ok ⟨f.value, f.family, false⟩ else .error .addressFormat
    | none => if s.length = 2 then .ok ⟨unBe16 s, hint, true⟩ else .error .addressFormat

/-- ADDRWORD (R116). -/
def addrWord (a : Address) : Word :=
  placeAt 0 a.value ||| placeAt 16 a.family.code ||| placeAt 18 (bit a.family.isGroup) ||| placeAt 19 (bit a.raw)

/-- ADDR_PARSE (R117). -/
def addrParse (form hint : BitVec 2) (s : State) : Except Raised Done :=
  match formOperand form, hintOperand hint with
  | some f, some h =>
    match parseAddress f h s.arg0 s.inSample with
    | .ok a => .ok { res := { r0 := addrWord a } }
    | .error e => .error ⟨e, .none⟩
  | _, _ => illegal

/-- The ASCII digit of a value below 10. -/
def digit (n : Nat) : Byte := BitVec.ofNat 8 (0x30 + n)

/-- The decimal digits of `n`, with at most `fuel` of them. -/
def decDigits : Nat → Nat → List Byte
  | 0, _ => []
  | fuel + 1, n => if n < 10 then [digit n] else decDigits fuel (n / 10) ++ [digit (n % 10)]

/-- `dec(n)`: the decimal value in ASCII with no leading zeros, zero as "0" (R118). -/
def dec (n : Nat) : List Byte := decDigits (n + 1) n

/-- Render(v, fmt) (R119). -/
def render (v : Half) : Family → List Byte
  | .individual =>
    dec (v.extractLsb' 12 4).toNat ++ [dot] ++ dec (v.extractLsb' 8 4).toNat ++ [dot] ++ dec (v.extractLsb' 0 8).toNat
  | .group3 =>
    dec (v.extractLsb' 11 4).toNat ++ [slash] ++ dec (v.extractLsb' 8 3).toNat ++ [slash] ++ dec (v.extractLsb' 0 8).toNat
  | .group2 => dec (v.extractLsb' 11 4).toNat ++ [slash] ++ dec (v.extractLsb' 0 11).toNat

/-- ADDR_RENDER (R120). -/
def addrRender (fmt : BitVec 2) (s : State) : Except Raised Done :=
  match fmtOperand fmt with
  | some f => .ok { out := render (s.arg0.extractLsb' 0 16) f }
  | none => illegal

/-- The meaning of ADDR_PARSE (R117). -/
def execAddrParse (form hint : BitVec 2) (s : State) : Host.Outcome State Fault Refusal :=
  .next (s.finish (addrParse form hint s))

/-- The meaning of ADDR_RENDER (R120). -/
def execAddrRender (fmt : BitVec 2) (s : State) : Host.Outcome State Fault Refusal :=
  .next (s.finish (addrRender fmt s))

end Sys2Proof.Machine
end

