-- ==== Sys2Proof/Machine/Apci.lean ====
section
/-! DEFINITION. The APCI/TPCI tables and the bit-width packing rule (41_apci_tpci.md): TBL_RESOLVE (R145), APCI_PACK (R148)
and APCI_UNPACK (R150). -/

namespace Sys2Proof.Machine

/-- The table that TABLE selects (R145); values 5 to 7 are illegal (R92, R94). -/
def tableOperand (P : Params) (table : BitVec 3) : Option (List TableRow) :=
  match table.toNat with
  | 0 => some P.actionTable
  | 1 => some tpciTable
  | 2 => some P.msgCodeTable
  | 3 => some P.reqTypeTable
  | 4 => some priorityTable
  | _ => none

/-- The sentinel for "unknown" (R152). -/
def sentinel : Word := 0xFFFFFFFF

/-- The lookup of TBL_RESOLVE (R145): code to index where `dir` is 0, index to code where it is 1; the key is compared in all 32
bits. -/
def lookup (t : List TableRow) (dir : BitVec 1) (key : Word) : Option Word :=
  if dir = 0 then (t.findIdx? (fun row => row.code == key)).map (BitVec.ofNat 32)
  else t[key.toNat]?.map TableRow.code

/-- TBL_RESOLVE (R145): an unknown key is not an error. -/
def tblResolve (P : Params) (dir : BitVec 1) (table : BitVec 3) (s : State) : Except Raised Done :=
  match tableOperand P table with
  | none => illegal
  | some t =>
    match lookup t dir s.arg0 with
    | some x => .ok { res := { r0 := 1, r1 := x } }
    | none => .ok { res := { r0 := 0, r1 := sentinel } }

/-- What packing comes to (R147): the APCI field, data6, and whether the first data byte rides in data6. -/
structure Packed where
  apci : BitVec 4
  f6 : BitVec 6
  carries : Bool
deriving DecidableEq, Repr

/-- Pack(code, has_data, d) (R147): a base code (at most 15) may carry a first data byte of at most 63; an extended code fills
both fields. -/
def pack (code : BitVec 10) (hasData : Bool) (d : Byte) : Packed :=
  if code.toNat ≤ 15 then
    if hasData ∧ d.toNat ≤ 63 then ⟨code.setWidth 4, d.setWidth 6, true⟩ else ⟨code.setWidth 4, 0, false⟩
  else ⟨code.extractLsb' 6 4, code.extractLsb' 0 6, false⟩

/-- APCI_PACK (R148). -/
def apciPack (s : State) : Except Raised Done :=
  let p := pack (s.arg0.extractLsb' 0 10) (s.arg1.getLsbD 8) (s.arg1.extractLsb' 0 8)
  .ok { res := { r0 := placeAt 0 p.apci ||| placeAt 4 p.f6 ||| placeAt 10 (bit p.carries) } }

/-- What unpacking comes to (R149): the reconstructed payload, whether its first byte rode in data6, and how many trailing bytes
lie past it. -/
structure Unpacked where
  data : List Byte
  packed : Bool
  excess : Nat
deriving DecidableEq, Repr

/-- Unpack(apci, f6, dl, trailing) (R149). The apci field takes no part in it: the codes are read from the fields themselves. -/
def unpack (f6 : BitVec 6) (dl : Nat) (trailing : List Byte) : Except ErrCode Unpacked :=
  if trailing.length + 1 < dl then .error .frameTruncated
  else if trailing.length < dl then .ok ⟨f6.setWidth 8 :: trailing, true, 0⟩
  else .ok ⟨trailing.take dl, false, trailing.length - dl⟩

/-- APCI_UNPACK (R150). -/
def apciUnpack (s : State) : Except Raised Done :=
  let a : BitVec 4 := s.arg0.extractLsb' 0 4
  let f : BitVec 6 := s.arg0.extractLsb' 4 6
  let dl : Byte := s.arg0.extractLsb' 10 8
  let code10 : BitVec 10 := placeAt 6 a ||| placeAt 0 f
  match unpack f dl.toNat s.inSample with
  | .ok u =>
    .ok
      { res := { r0 := placeAt 0 a ||| placeAt 4 code10 ||| placeAt 14 (bit u.packed), r1 := BitVec.ofNat 32 u.excess }
        out := u.data }
  | .error e => .error ⟨e, .none⟩

/-- The meaning of TBL_RESOLVE (R145) in an engine with the OPEN values `o` (R6). -/
def execTblResolveAt (o : OpenParams) (dir : BitVec 1) (table : BitVec 3) (s : State) : Host.Outcome State Fault Refusal :=
  .next (s.finish (tblResolve (Config.paramsAt o) dir table s))

/-- The meaning of TBL_RESOLVE (R145) at the defaults of R6 (log 6). -/
def execTblResolve (dir : BitVec 1) (table : BitVec 3) (s : State) : Host.Outcome State Fault Refusal :=
  execTblResolveAt Config.openDefaults dir table s

/-- The meaning of APCI_PACK (R148). -/
def execApciPack (s : State) : Host.Outcome State Fault Refusal := .next (s.finish (apciPack s))

/-- The meaning of APCI_UNPACK (R150). -/
def execApciUnpack (s : State) : Host.Outcome State Fault Refusal := .next (s.finish (apciUnpack s))

end Sys2Proof.Machine
end

