-- ==== Sys2Proof/Machine/Cemi.lean ====
section
/-! DEFINITION. The CEMI frame codec (42_cemi.md): CEMI_ENCODE (R176) and CEMI_DECODE (R178). -/

namespace Sys2Proof.Machine

/-- Control field 1 (R172), the reserved bit is written 0. -/
def ctrl1 (f : CemiFields) : Byte := 
  placeAt 7 f.std ||| placeAt 5 f.noRepeat ||| placeAt 4 f.broadcast ||| placeAt 2 f.priority ||| placeAt 1 f.ack ||| placeAt 0 f.err

/-- Control field 2 (R173). -/
def ctrl2 (f : CemiFields) : Byte := placeAt 7 f.isGroup ||| placeAt 4 f.hop ||| placeAt 0 f.eff

/-- The APDU word W (30_encoding.md R87). -/
def apduWord (f : CemiFields) (p : Packed) : Half := 
  placeAt 14 f.tpci ||| placeAt 10 f.seq ||| placeAt 6 p.apci ||| placeAt 0 p.f6

/-- CemiEncode(f, d) (R176): data_length is the logical length (R174), info_length is 0 (R171). -/
def cemiEncodeFrame (P : Params) (f : CemiFields) (d : List Byte) : Except ErrCode (List Byte) :=
  if P.maxData < d.length then .error .encodeLength
  else
    let p := pack f.code (!d.isEmpty) (d.headD 0)
    let trailing := if p.carries then d.tail else d
    .ok ([f.msg, 0, ctrl1 f, ctrl2 f] ++ be16 f.src ++ be16 f.dst ++ [BitVec.ofNat 8 d.length] ++ be16 (apduWord f p) ++ trailing)

/-- CEMI_ENCODE (R176). -/
def cemiEncode (P : Params) (s : State) : Except Raised Done :=
  match cemiEncodeFrame P (cemiOperands s) s.inSample with
  | .ok out => .ok { out := out }
  | .error e => .error ⟨e, .none⟩

/-- A decoded CEMI frame (R177). -/
structure CemiFrame where
  msg : Byte
  info : Byte
  ctrl1 : Byte
  ctrl2 : Byte
  src : Half
  dst : Half
  dl : Byte
  apdu : Half
  packed : Bool
  trailing : Nat
  excess : Nat
  data : List Byte
deriving DecidableEq, Repr

/-- tpci, W[15:14] (R87). -/
def CemiFrame.tpci (f : CemiFrame) : BitVec 2 := f.apdu.extractLsb' 14 2

/-- tpci_seq, W[13:10] (R87). -/
def CemiFrame.seq (f : CemiFrame) : BitVec 4 := f.apdu.extractLsb' 10 4

/-- code4, W[9:6] (R87, R149). -/
def CemiFrame.code4 (f : CemiFrame) : BitVec 4 := f.apdu.extractLsb' 6 4

/-- code10, W[9:0] (R149). -/
def CemiFrame.code10 (f : CemiFrame) : BitVec 10 := f.apdu.extractLsb' 0 10

/-- data6, W[5:0] (R87). -/
def CemiFrame.data6 (f : CemiFrame) : BitVec 6 := f.apdu.extractLsb' 0 6

/-- is_group_address, control field 2 bit 7 (R86). -/
def CemiFrame.isGroup (f : CemiFrame) : BitVec 1 := f.ctrl2.extractLsb' 7 1

/-- CemiDecode(b) (R177): every field value is accepted, and no additional information is skipped (R175). -/
def cemiDecodeFrame (b : List Byte) : Except ErrCode CemiFrame :=
  if b.length < 11 then .error .frameTruncated
  else
    let w := unBe16 (slice b 9 11)
    match unpack (w.extractLsb' 0 6) (b.getD 8 0).toNat (b.drop 11) with
    | .error e => .error e
    | .ok u =>
      .ok
        { msg := b.getD 0 0
          info := b.getD 1 0
          ctrl1 := b.getD 2 0
          ctrl2 := b.getD 3 0
          src := unBe16 (slice b 4 6)
          dst := unBe16 (slice b 6 8)
          dl := b.getD 8 0
          apdu := w
          packed := u.packed
          trailing := b.length - 11
          excess := u.excess
          data := u.data }

/-- The control fields decomposed, the fifth word of the CEMI result block (R179). -/
def controlWord (c1 c2 : Byte) : Word :=
  placeAt 0 (c1.extractLsb' 7 1) ||| placeAt 1 (c1.extractLsb' 6 1) ||| placeAt 2 (c1.extractLsb' 5 1) |||
  placeAt 3 (c1.extractLsb' 4 1) ||| placeAt 4 (c1.extractLsb' 2 2) ||| placeAt 6 (c1.extractLsb' 1 1) |||
  placeAt 7 (c1.extractLsb' 0 1) ||| placeAt 8 (c2.extractLsb' 7 1) ||| placeAt 9 (c2.extractLsb' 4 3) |||
  placeAt 12 (c2.extractLsb' 0 4)

/-- WriteCemiBlock(b, fr): six result registers from base `b` (R179). -/
def writeCemiBlock (b : Nat) (fr : CemiFrame) (r : Results) : Results :=
  let r := r.set b (placeAt 0 fr.msg ||| placeAt 8 fr.info ||| placeAt 16 fr.ctrl1 ||| placeAt 24 fr.ctrl2)
  let r := r.set (b + 1) (placeAt 0 fr.src ||| placeAt 16 fr.dst)
  let r := r.set (b + 2) (placeAt 0 fr.dl ||| placeAt 8 fr.apdu ||| placeAt 24 (bit fr.packed) ||| placeAt 25 fr.isGroup)
  let r := r.set (b + 3)
    (placeAt 0 fr.code4 ||| placeAt 4 fr.code10 ||| placeAt 14 fr.tpci ||| placeAt 16 fr.seq ||| placeAt 20 fr.data6)
  let r := r.set (b + 4) (controlWord fr.ctrl1 fr.ctrl2)
  r.set (b + 5) (placeAt 0 (BitVec.ofNat 16 fr.trailing) ||| placeAt 16 (BitVec.ofNat 16 fr.excess))

/-- CEMI_DECODE (R178). -/
def cemiDecode (s : State) : Except Raised Done :=
  match cemiDecodeFrame s.inSample with
  | .ok fr => .ok { res := writeCemiBlock 0 fr {}, out := fr.data }
  | .error e => .error ⟨e, .none⟩

/-- The meaning of CEMI_ENCODE (R176). -/
def execCemiEncode (s : State) : Host.Outcome State Fault Refusal := .next (s.finish (cemiEncode Config.params s))

/-- The meaning of CEMI_DECODE (R178). -/
def execCemiDecode (s : State) : Host.Outcome State Fault Refusal := .next (s.finish (cemiDecode s))

end Sys2Proof.Machine
end

