-- ==== Sys2Proof/Machine/Header.lean ====
section
/-! DEFINITION. The KNXnet/IP header codec (43_header.md): HDR_ENCODE (R203) and HDR_DECODE (R204). -/

namespace Sys2Proof.Machine

/-- A header as encoded (R201): the length byte is always 6, and request_length is written as given. -/
def encodeHeader (version : Byte) (rt rl : Half) : List Byte := [6, version] ++ be16 rt ++ be16 rl

/-- HDR_ENCODE (R203). -/
def hdrEncode (P : Params) (s : State) : Except Raised Done :=
  if P.bufBytes < 6 + s.inSample.length then .error ⟨.encodeLength, .none⟩
  else
    .ok
      { out := encodeHeader (s.arg0.extractLsb' 0 8) (s.arg1.extractLsb' 0 16) (s.arg2.extractLsb' 0 16) ++ s.inSample }

/-- The secure-wrapper tail (30_encoding.md R82). -/
structure WrapperTail where
  sid : Half
  ts : List Byte
  ser : List Byte
  tag : List Byte
  c : List Byte
  cmac : List Byte
deriving DecidableEq, Repr

/-- The secure-timer-notify tail (R83). -/
structure TimerTail where
  ts : List Byte
  ser : List Byte
  tag : List Byte
  cmac : List Byte
deriving DecidableEq, Repr

/-- The payload's shape, keyed by request_type (R81). -/
inductive Tail where
  | plain
  | wrapper (t : WrapperTail)
  | timer (t : TimerTail)
deriving DecidableEq, Repr

/-- The variant number (R81). -/
def Tail.variant : Tail → BitVec 2
  | .plain => 0
  | .wrapper _ => 1
  | .timer _ => 2

/-- A decoded header (R202). -/
structure Header where
  hl : Byte
  ver : Byte
  rt : Half
  rl : Half
  known : Bool
  payload : List Byte
  tail : Tail
deriving DecidableEq, Repr

/-- A request type is a row of `REQ_TYPE_TABLE` (R200). -/
def knownType (P : Params) (rt : Half) : Bool := P.reqTypeTable.any (fun row => row.code == rt.setWidth 32)

/-- The wrapper tail of a datagram of `rl` bytes, `L = rl - 38` (R82, R202). -/
def wrapperTail (b : List Byte) (rl : Nat) : WrapperTail where
  sid := unBe16 (slice b 6 8)
  ts := slice b 8 14
  ser := slice b 14 20
  tag := slice b 20 22
  c := slice b 22 (22 + (rl - 38))
  cmac := slice b (22 + (rl - 38)) rl

/-- The timer tail of a datagram: bytes [36, rl) are no part of it (R83, R207). -/
def timerTail (b : List Byte) : TimerTail where
  ts := slice b 6 12
  ser := slice b 12 18
  tag := slice b 18 20
  cmac := slice b 20 36

/-- HdrDecode(b) (R202): header_length and version are reported and not checked (R208). -/
def hdrDecodeBytes (P : Params) (b : List Byte) : Except ErrCode Header :=
  if b.length < 6 then .error .headerLength
  else
    let rt := unBe16 (slice b 2 4)
    let rl := unBe16 (slice b 4 6)
    let h (t : Tail) : Header := ⟨b.getD 0 0, b.getD 1 0, rt, rl, knownType P rt, slice b 6 rl.toNat, t⟩
    if rl.toNat < 6 ∨ b.length < rl.toNat then .error .headerLength
    else if rt = P.reqSecureWrapper then
      if rl.toNat < 38 then .error .headerLength else .ok (h (.wrapper (wrapperTail b rl.toNat)))
    else if rt = P.reqSecureTimerNotify then
      if rl.toNat < 36 then .error .headerLength else .ok (h (.timer (timerTail b)))
    else .ok (h .plain)

/-- header_length, version and request_type, the first header result word (R204). -/
def headerWord0 (h : Header) : Word := placeAt 0 h.hl ||| placeAt 8 h.ver ||| placeAt 16 h.rt

/-- request_length, variant and type_known, the second header result word (R204). -/
def headerWord1 (h : Header) : Word := placeAt 0 h.rl ||| placeAt 16 h.tail.variant ||| placeAt 18 (bit h.known)

/-- session_id and L, the third header result word of a wrapper (R204). -/
def wrapperWord (t : WrapperTail) : Word := placeAt 0 t.sid ||| placeAt 16 (BitVec.ofNat 16 t.c.length)

/-- The third header result word: 0 where there is no wrapper tail (R204). -/
def Tail.word2 : Tail → Word
  | .plain => 0
  | .wrapper t => wrapperWord t
  | .timer _ => 0

/-- HDR_DECODE (R204). It authenticates nothing and leaves SEC_STATE alone. -/
def hdrDecode (P : Params) (s : State) : Except Raised Done :=
  match hdrDecodeBytes P s.inSample with
  | .ok h => .ok { res := { r0 := headerWord0 h, r1 := headerWord1 h, r2 := h.tail.word2 }, out := h.payload }
  | .error e => .error ⟨e, .none⟩

/-- The meaning of HDR_ENCODE (R203). -/
def execHdrEncode (s : State) : Host.Outcome State Fault Refusal := .next (s.finish (hdrEncode Config.params s))

/-- The meaning of HDR_DECODE (R204) in an engine with the OPEN values `o` (R6). -/
def execHdrDecodeAt (o : OpenParams) (s : State) : Host.Outcome State Fault Refusal :=
  .next (s.finish (hdrDecode (Config.paramsAt o) s))

/-- The meaning of HDR_DECODE (R204) at the defaults of R6 (log 6). -/
def execHdrDecode (s : State) : Host.Outcome State Fault Refusal := execHdrDecodeAt Config.openDefaults s

end Sys2Proof.Machine
end

