-- ==== Sys2Proof/Machine/Secure.lean ====
section
/-! DEFINITION. The secure frame processor (45_secure.md): SEC_NONCE (R264), CMAC_GEN (R265), SEC_UNWRAP (R266),
SEC_TIMER_VERIFY (R270) and SEC_WRAP (R272). -/

namespace Sys2Proof.Machine

/-- N_auth (R260): `fields` is timestamp ‖ serial ‖ tag, `l` the length of the encrypted frame. -/
def nonceAuth (fields : List Byte) (l : Half) : List Byte := fields ++ be16 l

/-- N_dec (R261). -/
def nonceDec (fields : List Byte) : List Byte := fields ++ [0x01]

/-- SEC_NONCE (R264). -/
def secNonce (kind : BitVec 1) (s : State) : Except Raised Done :=
  if s.inSample.length < 14 then .error ⟨.frameTruncated, .none⟩
  else if kind = 0 then .ok { out := nonceAuth (slice s.inSample 0 14) (s.arg0.extractLsb' 0 16) }
  else .ok { out := nonceDec (slice s.inSample 0 14) }

/-- CMAC_GEN (R265). -/
def cmacGen (s : State) : Except Raised Done :=
  if s.keyValid then .ok { out := cmac s.key s.inSample } else .error ⟨.keyRequired, .none⟩

/-- The tag of a wrapper: the CMAC of N_auth ‖ C (R268). -/
def wrapperTag (key : Block) (ts ser tag c : List Byte) : List Byte :=
  cmac key (nonceAuth (ts ++ ser ++ tag) (BitVec.ofNat 16 c.length) ++ c)

/-- UnwrapCore(b) (R267 to R269): parse and key check, authentication, decryption, in that order (R263). -/
def unwrapCore (P : Params) (key : Block) (keyValid : Bool) (b : List Byte) :
    Except Raised (Header × WrapperTail × List Byte) :=
  match hdrDecodeBytes P b with
  | .error e => .error ⟨e, .none⟩
  | .ok h =>
    match h.tail with
    | .plain => .error ⟨.unsupportedFrame, .none⟩
    | .timer _ => .error ⟨.unsupportedFrame, .none⟩
    | .wrapper t =>
      if keyValid = false then .error ⟨.keyRequired, .wrapped⟩
      else if wrapperTag key t.ts t.ser t.tag t.c ≠ t.cmac then .error ⟨.authentication, .rejected⟩
      else
        match P.secCipher key (nonceDec (t.ts ++ t.ser ++ t.tag)) t.c with
        | none => .error ⟨.authentication, .rejected⟩
        | some p => .ok (h, t, p)

/-- SEC_UNWRAP (R266). -/
def secUnwrap (P : Params) (s : State) : Except Raised Done :=
  match unwrapCore P s.key s.keyValid s.inSample with
  | .error e => .error e
  | .ok (h, t, p) =>
    .ok
      { res :=
          { r0 := headerWord0 h
            r1 := placeAt 0 h.rl ||| placeAt 16 (1 : BitVec 2) ||| placeAt 18 (1 : BitVec 1)
            r2 := wrapperWord t }
        out := p
        sec := .authenticated }

/-- TimerCore(b) (R271): the CMAC message is the nonce alone, with length 0. -/
def timerCore (P : Params) (key : Block) (keyValid : Bool) (b : List Byte) : Except Raised (Header × TimerTail) :=
  match hdrDecodeBytes P b with
  | .error e => .error ⟨e, .none⟩
  | .ok h =>
    match h.tail with
    | .plain => .error ⟨.unsupportedFrame, .none⟩
    | .wrapper _ => .error ⟨.unsupportedFrame, .none⟩
    | .timer t =>
      if keyValid = false then .error ⟨.keyRequired, .wrapped⟩
      else if cmac key (nonceAuth (t.ts ++ t.ser ++ t.tag) 0) ≠ t.cmac then .error ⟨.authentication, .rejected⟩
      else .ok (h, t)

/-- SEC_TIMER_VERIFY (R270). -/
def secTimerVerify (P : Params) (s : State) : Except Raised Done :=
  match timerCore P s.key s.keyValid s.inSample with
  | .error e => .error e
  | .ok (h, t) =>
    .ok
      { res :=
          { r0 := headerWord0 h
            r1 := placeAt 0 h.rl ||| placeAt 16 (2 : BitVec 2) ||| placeAt 18 (1 : BitVec 1) }
        out := t.ts ++ t.ser ++ t.tag
        sec := .authenticated }

/-- The wrapper datagram of plaintext `p` under the tail fields given (R272). -/
def wrapDatagram (P : Params) (key : Block) (version : Byte) (sid ts ser tag p : List Byte) : List Byte :=
  let c := P.secEncipher key (nonceDec (ts ++ ser ++ tag)) p
  encodeHeader version P.reqSecureWrapper (BitVec.ofNat 16 (38 + p.length)) ++ sid ++ ts ++ ser ++ tag ++ c ++
    wrapperTag key ts ser tag c

/-- SEC_WRAP (R272). -/
def secWrap (P : Params) (s : State) : Except Raised Done :=
  let b := s.inSample
  let p := b.drop 16
  if b.length < 16 then .error ⟨.frameTruncated, .none⟩
  else if P.bufBytes < 38 + p.length then .error ⟨.encodeLength, .none⟩
  else if s.keyValid = false then .error ⟨.keyRequired, .none⟩
  else
    .ok
      { out :=
          wrapDatagram P s.key (s.arg0.extractLsb' 0 8) (slice b 0 2) (slice b 2 8) (slice b 8 14) (slice b 14 16) p }

/-- The meaning of SEC_NONCE (R264). -/
def execSecNonce (kind : BitVec 1) (s : State) : Host.Outcome State Fault Refusal := .next (s.finish (secNonce kind s))

/-- The meaning of CMAC_GEN (R265). -/
def execCmacGen (s : State) : Host.Outcome State Fault Refusal := .next (s.finish (cmacGen s))

/-- The meaning of SEC_UNWRAP (R266) in an engine with the OPEN values `o` (R6). -/
def execSecUnwrapAt (o : OpenParams) (s : State) : Host.Outcome State Fault Refusal :=
  .next (s.finish (secUnwrap (Config.paramsAt o) s))

/-- The meaning of SEC_UNWRAP (R266) at the defaults of R6 (log 6). -/
def execSecUnwrap (s : State) : Host.Outcome State Fault Refusal := execSecUnwrapAt Config.openDefaults s

/-- The meaning of SEC_TIMER_VERIFY (R270) in an engine with the OPEN values `o` (R6). -/
def execSecTimerVerifyAt (o : OpenParams) (s : State) : Host.Outcome State Fault Refusal :=
  .next (s.finish (secTimerVerify (Config.paramsAt o) s))

/-- The meaning of SEC_TIMER_VERIFY (R270) at the defaults of R6 (log 6). -/
def execSecTimerVerify (s : State) : Host.Outcome State Fault Refusal := execSecTimerVerifyAt Config.openDefaults s

/-- The meaning of SEC_WRAP (R272) in an engine with the OPEN values `o` (R6). -/
def execSecWrapAt (o : OpenParams) (s : State) : Host.Outcome State Fault Refusal :=
  .next (s.finish (secWrap (Config.paramsAt o) s))

/-- The meaning of SEC_WRAP (R272) at the defaults of R6 (log 6). -/
def execSecWrap (s : State) : Host.Outcome State Fault Refusal := execSecWrapAt Config.openDefaults s

end Sys2Proof.Machine
end

