-- ==== Sys2Proof/Machine/Datagram.lean ====
section
/-! DEFINITION. The datagram builder and the decode entry point (47_datagram.md): BUILD_ACTION (R313), BUILD_STATUS (R314),
BUILD_RESPONSE (R315) and DECODE (R317). -/

namespace Sys2Proof.Machine

/-- The fields a builder writes (R310): options from OPT and SRC, the rest fixed. -/
def builderFields (s : State) (a : Address) (code : BitVec 10) : CemiFields where
  msg := s.optMsgCode
  std := 1
  noRepeat := s.optNoRepeat
  broadcast := s.optBroadcast
  priority := s.optPriority
  ack := 0
  err := 0
  isGroup := bit a.family.isGroup
  hop := s.optHopCount
  eff := 0
  tpci := 0
  seq := 0
  src := s.srcAddress
  dst := a.value
  code := code

/-- The address and the data of a builder (R311): for FORM_INT the address is ARG0 and all of IN is data, else the first `imm`
bytes of IN are the address. -/
def builderInputs (form : Form) (hint : Family) (imm : Half) (s : State) : Except ErrCode (Address × List Byte) :=
  match form with
  | .int =>
    match parseAddress .int hint s.arg0 [] with
    | .ok a => .ok (a, s.inSample)
    | .error e => .error e
  | _ =>
    if s.inSample.length < imm.toNat then .error .frameTruncated
    else
      match parseAddress form hint 0 (s.inSample.take imm.toNat) with
      | .ok a => .ok (a, s.inSample.drop imm.toNat)
      | .error e => .error e

/-- A plain datagram of a CEMI frame: the header of R310 with the length it computes, then the frame (R316). -/
def plainDatagram (P : Params) (c : List Byte) : List Byte :=
  encodeHeader P.defaultVersion P.defaultReqType (BitVec.ofNat 16 (6 + c.length)) ++ c

/-- Build(code, use_data) (R316). -/
def build (P : Params) (code : BitVec 10) (useData : Bool) (form hint : BitVec 2) (imm : Half) (s : State) :
    Except Raised Done :=
  match formOperand form, hintOperand hint with
  | some f, some h =>
    match builderInputs f h imm s with
    | .error e => .error ⟨e, .none⟩
    | .ok (a, d) =>
      match cemiEncodeFrame P (builderFields s a code) (if useData then d else []) with
      | .error e => .error ⟨e, .none⟩
      | .ok c => .ok { res := { r0 := addrWord a }, out := plainDatagram P c }
  | _, _ => illegal

/-- DestFmt(fr): the destination's display format (R318). -/
def destFmt (s : State) (fr : CemiFrame) : BitVec 2 :=
  if fr.isGroup = 0 then 0 else if s.optTwoLevelGroup then 2 else 1

/-- The display formats word of DECODE (R317, R318): the source is always individual. -/
def displayWord (s : State) (fr : CemiFrame) : Word :=
  placeAt 0 (destFmt s fr) ||| placeAt 2 (0 : BitVec 2) ||| placeAt 4 (1 : BitVec 1)

/-- DECODE's second result word: the header's, with the authenticated bit and the route (R317). -/
def routeWord (h : Header) (auth : Bool) (route : BitVec 3) : Word :=
  headerWord1 h ||| placeAt 19 (bit auth) ||| placeAt 20 route

/-- DECODE of a secure wrapper (R317): the plaintext's own errors end the command with SEC_STATE AUTHENTICATED. -/
def decodeWrapper (P : Params) (s : State) : Except Raised Done :=
  match unwrapCore P s.key s.keyValid s.inSample with
  | .error e => .error e
  | .ok (h, t, p) =>
    match hdrDecodeBytes P p with
    | .error e => .error ⟨e, .authenticated⟩
    | .ok ih =>
      if ih.tail ≠ .plain ∨ ih.rt ∈ P.reqSessionSet then .error ⟨.unsupportedFrame, .authenticated⟩
      else
        match cemiDecodeFrame ih.payload with
        | .error e => .error ⟨e, .authenticated⟩
        | .ok fr =>
          .ok
            { res :=
                writeCemiBlock 3 fr
                  { r0 := headerWord0 h
                    r1 := routeWord h true 1
                    r2 := wrapperWord t
                    r9 := headerWord0 ih
                    r10 := headerWord1 ih
                    r11 := displayWord s fr }
              out := fr.data
              sec := .authenticated }

/-- DECODE of a secure timer notify (R317). -/
def decodeTimer (P : Params) (s : State) : Except Raised Done :=
  match timerCore P s.key s.keyValid s.inSample with
  | .error e => .error e
  | .ok (h, t) =>
    .ok
      { res := { r0 := headerWord0 h, r1 := routeWord h true 2 }
        out := t.ts ++ t.ser ++ t.tag
        sec := .authenticated }

/-- DECODE of a datagram with no secure tail (R317): a session service's payload is returned unparsed (R318), every other
payload is a CEMI frame. -/
def decodePlain (P : Params) (s : State) (h : Header) : Except Raised Done :=
  if h.rt ∈ P.reqSessionSet then .ok { res := { r0 := headerWord0 h, r1 := routeWord h false 3 }, out := h.payload }
  else
    match cemiDecodeFrame h.payload with
    | .error e => .error ⟨e, .none⟩
    | .ok fr =>
      .ok
        { res := writeCemiBlock 3 fr { r0 := headerWord0 h, r1 := routeWord h false 0, r11 := displayWord s fr }
          out := fr.data }

/-- DECODE (R317). -/
def decodeDatagram (P : Params) (s : State) : Except Raised Done :=
  match hdrDecodeBytes P s.inSample with
  | .error e => .error ⟨e, .none⟩
  | .ok h =>
    match h.tail with
    | .wrapper _ => decodeWrapper P s
    | .timer _ => decodeTimer P s
    | .plain => decodePlain P s h

/-- The meaning of BUILD_ACTION (R313): code 2, group_write. -/
def execBuildAction (form hint : BitVec 2) (imm : Half) (s : State) : Host.Outcome State Fault Refusal :=
  .next (s.finish (build Config.params 2 true form hint imm s))

/-- The meaning of BUILD_STATUS (R314): code 0, group_read, with no data. -/
def execBuildStatus (form hint : BitVec 2) (imm : Half) (s : State) : Host.Outcome State Fault Refusal :=
  .next (s.finish (build Config.params 0 false form hint imm s))

/-- The meaning of BUILD_RESPONSE (R315): code 1, group_resp. -/
def execBuildResponse (form hint : BitVec 2) (imm : Half) (s : State) : Host.Outcome State Fault Refusal :=
  .next (s.finish (build Config.params 1 true form hint imm s))

/-- The meaning of DECODE (R317) in an engine with the OPEN values `o` (R6). -/
def execDecodeAt (o : OpenParams) (s : State) : Host.Outcome State Fault Refusal :=
  .next (s.finish (decodeDatagram (Config.paramsAt o) s))

/-- The meaning of DECODE (R317) at the defaults of R6 (log 6). -/
def execDecode (s : State) : Host.Outcome State Fault Refusal := execDecodeAt Config.openDefaults s

end Sys2Proof.Machine
end

