-- ==== Sys2Proof/Machine/Datapoint.lean ====
section
/-! DEFINITION. The datapoint codec for DPT 9.001 (46_datapoint.md): DPT_DECODE (R294) and DPT_ENCODE (R295). -/

namespace Sys2Proof.Machine

/-- The fields of a DPT 9.001 pair (30_encoding.md R89). -/
structure Dpt9 where
  sign : BitVec 1
  exponent : BitVec 4
  mantissa : BitVec 11
deriving DecidableEq, Repr

/-- The fields of the bytes `b0 b1` (R89). -/
def Dpt9.ofBytes (b0 b1 : Byte) : Dpt9 :=
  ⟨b0.extractLsb' 7 1, b0.extractLsb' 3 4, placeAt 8 (b0.extractLsb' 0 3) ||| placeAt 0 b1⟩

/-- The two bytes of the fields (R89, R293). -/
def Dpt9.bytes (d : Dpt9) : List Byte :=
  [placeAt 7 d.sign ||| placeAt 3 d.exponent ||| placeAt 0 (d.mantissa.extractLsb' 8 3), d.mantissa.extractLsb' 0 8]

/-- sign[0] | exponent[4:1] | mantissa[15:5], the second result word of both commands (R294, R295). -/
def Dpt9.word (d : Dpt9) : Word := placeAt 0 d.sign ||| placeAt 1 d.exponent ||| placeAt 5 d.mantissa

/-- Dpt9Decode (R292): the value in hundredths. -/
def Dpt9.value (d : Dpt9) : Int :=
  (if d.sign = 1 then (d.mantissa.toNat : Int) - 2048 else (d.mantissa.toNat : Int)) * 2 ^ d.exponent.toNat

/-- The halving loop of R293 from `raw` at exponent `e`: floor halving while `raw` does not fit. R293 bounds it by exponent 15,
so `fuel` 16 never runs out on a value in range (log 15). -/
def halve : Nat → Int → Nat → Int × Nat
  | 0, raw, e => (raw, e)
  | fuel + 1, raw, e => if raw < -2048 ∨ 2047 < raw then halve fuel (raw / 2) (e + 1) else (raw, e)

/-- The fields of a halved value (R293): 11-bit two's complement with the sign apart. -/
def dpt9Fields (raw : Int) (e : Nat) : Dpt9 :=
  if raw < 0 then ⟨1, BitVec.ofNat 4 e, BitVec.ofNat 11 (2048 + raw).toNat⟩
  else ⟨0, BitVec.ofNat 4 e, BitVec.ofNat 11 raw.toNat⟩

/-- Dpt9Encode(V) (R293). -/
def dpt9Encode (v : Int) : Except ErrCode Dpt9 :=
  if v < -27300 ∨ 67076000 < v then .error .range
  else .ok (dpt9Fields (halve 16 v 0).1 (halve 16 v 0).2)

/-- DPT_DECODE (R294): the id is checked before any other input (R290). -/
def dptDecode (P : Params) (s : State) : Except Raised Done :=
  if P.dptRegistry.contains s.arg0 = false then .error ⟨.unknownDatapoint, .none⟩
  else if s.inSample.length < 2 then .error ⟨.frameTruncated, .none⟩
  else
    let d := Dpt9.ofBytes (s.inSample.getD 0 0) (s.inSample.getD 1 0)
    .ok { res := { r0 := BitVec.ofInt 32 d.value, r1 := d.word } }

/-- DPT_ENCODE (R295). -/
def dptEncode (P : Params) (s : State) : Except Raised Done :=
  if P.dptRegistry.contains s.arg0 = false then .error ⟨.unknownDatapoint, .none⟩
  else
    match dpt9Encode s.arg1.toInt with
    | .ok d => .ok { res := { r1 := d.word }, out := d.bytes }
    | .error e => .error ⟨e, .none⟩

/-- The meaning of DPT_DECODE (R294). -/
def execDptDecode (s : State) : Host.Outcome State Fault Refusal := .next (s.finish (dptDecode Config.params s))

/-- The meaning of DPT_ENCODE (R295). -/
def execDptEncode (s : State) : Host.Outcome State Fault Refusal := .next (s.finish (dptEncode Config.params s))

end Sys2Proof.Machine
end

