-- ==== Sys2Proof/Machine/Dispatch.lean ====
section
/-! DEFINITION. The meaning of each command: one arm per constructor of Instr. -/

namespace Sys2Proof.Machine

def exec (i : Instr) (s : State) : Host.Outcome State Fault Refusal :=
  match i with
  | .addrParse form hint => Sys2Proof.Machine.execAddrParse form hint s
  | .addrRender fmt => Sys2Proof.Machine.execAddrRender fmt s
  | .tblResolve dir table => Sys2Proof.Machine.execTblResolve dir table s
  | .apciPack => Sys2Proof.Machine.execApciPack s
  | .apciUnpack => Sys2Proof.Machine.execApciUnpack s
  | .cemiEncode => Sys2Proof.Machine.execCemiEncode s
  | .cemiDecode => Sys2Proof.Machine.execCemiDecode s
  | .hdrEncode => Sys2Proof.Machine.execHdrEncode s
  | .hdrDecode => Sys2Proof.Machine.execHdrDecode s
  | .secNonce kind => Sys2Proof.Machine.execSecNonce kind s
  | .cmacGen => Sys2Proof.Machine.execCmacGen s
  | .secUnwrap => Sys2Proof.Machine.execSecUnwrap s
  | .secTimerVerify => Sys2Proof.Machine.execSecTimerVerify s
  | .secWrap => Sys2Proof.Machine.execSecWrap s
  | .dptDecode => Sys2Proof.Machine.execDptDecode s
  | .dptEncode => Sys2Proof.Machine.execDptEncode s
  | .buildAction form hint imm => Sys2Proof.Machine.execBuildAction form hint imm s
  | .buildStatus form hint imm => Sys2Proof.Machine.execBuildStatus form hint imm s
  | .buildResponse form hint imm => Sys2Proof.Machine.execBuildResponse form hint imm s
  | .decode => Sys2Proof.Machine.execDecode s

end Sys2Proof.Machine
end

