-- ==== Sys2Proof/Machine/Open.lean ====
section
/-! DEFINITION. The commands of an engine with any OPEN values (00_scope.md R6; 92_eei_decisions.md D13, D14, D34). -/

namespace Sys2Proof.Machine

/-- What a command does in an engine with the OPEN values `o`: TBL_RESOLVE, HDR_DECODE, SEC_UNWRAP, SEC_TIMER_VERIFY, SEC_WRAP and
DECODE read them, and no other command does. At the defaults it is exec (`execAt_openDefaults`). -/
def execAt (o : OpenParams) (i : Instr) (s : State) : Host.Outcome State Fault Refusal :=
  match i with
  | .addrParse form hint => execAddrParse form hint s
  | .addrRender fmt => execAddrRender fmt s
  | .tblResolve dir table => execTblResolveAt o dir table s
  | .apciPack => execApciPack s
  | .apciUnpack => execApciUnpack s
  | .cemiEncode => execCemiEncode s
  | .cemiDecode => execCemiDecode s
  | .hdrEncode => execHdrEncode s
  | .hdrDecode => execHdrDecodeAt o s
  | .secNonce kind => execSecNonce kind s
  | .cmacGen => execCmacGen s
  | .secUnwrap => execSecUnwrapAt o s
  | .secTimerVerify => execSecTimerVerifyAt o s
  | .secWrap => execSecWrapAt o s
  | .dptDecode => execDptDecode s
  | .dptEncode => execDptEncode s
  | .buildAction form hint imm => execBuildAction form hint imm s
  | .buildStatus form hint imm => execBuildStatus form hint imm s
  | .buildResponse form hint imm => execBuildResponse form hint imm s
  | .decode => execDecodeAt o s

end Sys2Proof.Machine
end

