-- ==== Sys2Proof/Machine/Step.lean ====
section
/-! DEFINITION. One step of the machine (10_state.md R20): the next event of the environment, or the ENGINE's turn. -/

namespace Sys2Proof.Machine

/-- What an engine does with a command: `exec` at the defaults of R6, `execAt o` at the OPEN values `o`. -/
abbrev Meaning := Instr → State → Host.Outcome State Fault Refusal

/-- The ENGINE's step on a pending command (R20): the command that CMD names, or the error end of an illegal opcode (R94). -/
def State.runPendingBy (ex : Meaning) (s : State) : Host.Outcome State Fault Refusal :=
  match decode s.cmd with
  | .ok i => ex i s
  | .error _ => .next (s.finish illegal)

/-- The ENGINE's turn: its step where a command is pending (R20), nothing where the engine is idle (R418; log 16). -/
def State.engineTurnBy (ex : Meaning) (s : State) : Host.Outcome State Fault Refusal :=
  if s.busy then s.runPendingBy ex else .next s

/-- One step: the environment's next event, or the ENGINE's turn where the environment has nothing left to do (R20, R459;
log 1). -/
def stepBy (ex : Meaning) (s : State) : Host.Outcome State Fault Refusal :=
  match s.env with
  | [] => s.engineTurnBy ex
  | .engine :: rest => State.engineTurnBy ex { s with env := rest }
  | .reset :: rest => .next (State.platformReset { s with env := rest })
  | .write addr bits data :: rest => .next (State.hostWrite { s with env := rest } addr bits data)
  | .read addr bits :: rest => .next { s with env := rest, busData := s.hostRead addr bits }

/-- One step of an engine with the OPEN values `o` (R6). -/
def stepAt (o : OpenParams) (s : State) : Host.Outcome State Fault Refusal := stepBy (execAt o) s

/-- The ENGINE's turn at the defaults of R6 (log 6). -/
def State.engineTurn (s : State) : Host.Outcome State Fault Refusal := s.engineTurnBy exec

/-- One step at the defaults of R6 (log 6). -/
def step (s : State) : Host.Outcome State Fault Refusal := stepBy exec s

/-- The machine with the OPEN values `o` (R6); `Sys2Proof.core` is the machine at their defaults. -/
def coreAt (o : OpenParams) : Host.Core where
  State := State
  Fault := Fault
  Refusal := Refusal
  step := stepAt o
  reset := State.reset

/-- `s` with the command word of the table's numbering written to CMD as the host writes it (R401; log 2), and the ENGINE's
turn next. -/
def State.withFetchWord (s : State) (nbits w : Nat) : State :=
  match s.env with
  | [] => s.commandStart (tableWord nbits w)
  | e :: rest => { s.commandStart (tableWord nbits w) with env := .engine :: e :: rest }

end Sys2Proof.Machine
end

