-- ==== Sys2Proof/Safety.lean ====
section
/-! DEFINITION. The terms the statements use: how a command ended, what it left unchanged, and the invariant of the state. -/

namespace Sys2Proof.Machine

/-- Everything a command never writes is as it was (10_state.md R29, R31; 60_exceptions.md R401): CMD, OPT, SRC, IN_LEN, ARG0 to
ARG3, every byte of IN_BUF, and what belongs to the host. -/
structure SameInputs (s t : State) : Prop where
  cmd : t.cmd = s.cmd
  opt : t.opt = s.opt
  src : t.src = s.src
  inLen : t.inLen = s.inLen
  arg0 : t.arg0 = s.arg0
  arg1 : t.arg1 = s.arg1
  arg2 : t.arg2 = s.arg2
  arg3 : t.arg3 = s.arg3
  inBuf : t.inBuf = s.inBuf
  inBytes : ∀ i, t.inBuf.read i = s.inBuf.read i
  env : t.env = s.env
  busData : t.busData = s.busData

/-- The key and KEY_VALID are cleared and nothing of the sample is left (60_exceptions.md R402, R403; 10_state.md R27, R34). -/
structure Cleared (t : State) : Prop where
  key0 : t.key0 = 0
  key1 : t.key1 = 0
  key2 : t.key2 = 0
  key3 : t.key3 = 0
  keyctl : t.keyctl = 0
  inSample : t.inSample = []

/-- Every piece of the engine's state has its value of 70_reset_and_hazards.md R451, and no command is pending. -/
structure AtReset (t : State) : Prop where
  cmd : t.cmd = 0x00000000
  status : t.status = 0x00000000
  opt : t.opt = 0x0000296F
  src : t.src = 0x00000001
  inLen : t.inLen = 0
  outLen : t.outLen = 0
  arg0 : t.arg0 = 0
  arg1 : t.arg1 = 0
  arg2 : t.arg2 = 0
  arg3 : t.arg3 = 0
  key0 : t.key0 = 0
  key1 : t.key1 = 0
  key2 : t.key2 = 0
  key3 : t.key3 = 0
  keyctl : t.keyctl = 0
  res : ∀ k, t.res.get k = 0
  inBuf : ∀ i, t.inBuf.read i = 0
  outBuf : ∀ i, t.outBuf.read i = 0
  inSample : t.inSample = []
  idle : t.busy = false

/-- From `s` the command ended normally in `t` (R402): with these results, this output (every other byte of OUT_BUF is 0, R32)
and this SEC_STATE; ERR and ERR_CODE are 0, BUSY is 0 and DONE is 1. -/
structure EndedNormally (s t : State) (res : Results) (out : List Byte) (sec : SecState) : Prop where
  status : t.status = statusWord false true 0 sec
  res : t.res = res
  outLen : t.outLen = BitVec.ofNat 32 out.length
  outBytes : ∀ i, t.outBuf.read i = out.getD i 0
  cleared : Cleared t
  frame : SameInputs s t

/-- From `s` the command ended in `t` with error `e` and this SEC_STATE (R403): no result, no output, ERR is 1 and ERR_CODE the
code of `e`, BUSY is 0 and DONE is 1. -/
structure EndedWithError (s t : State) (e : ErrCode) (sec : SecState) : Prop where
  status : t.status = statusWord false true e.code sec
  res : t.res = {}
  outLen : t.outLen = 0
  outBytes : ∀ i, t.outBuf.read i = 0
  cleared : Cleared t
  frame : SameInputs s t

/-- The command `i` run on `s` answers a next state in which it has ended normally. -/
def Completes (i : Instr) (s : State) (res : Results) (out : List Byte) (sec : SecState) : Prop :=
  ∃ t, exec i s = .next t ∧ EndedNormally s t res out sec

/-- The command `i` run on `s` answers a next state in which it has ended with the error `e`. -/
def Raises (i : Instr) (s : State) (e : ErrCode) (sec : SecState) : Prop :=
  ∃ t, exec i s = .next t ∧ EndedWithError s t e sec

/-- `Completes` in an engine with the OPEN values `o` (R6). -/
def CompletesAt (o : OpenParams) (i : Instr) (s : State) (res : Results) (out : List Byte) (sec : SecState) : Prop :=
  ∃ t, execAt o i s = .next t ∧ EndedNormally s t res out sec

/-- `Raises` in an engine with the OPEN values `o` (R6). -/
def RaisesAt (o : OpenParams) (i : Instr) (s : State) (e : ErrCode) (sec : SecState) : Prop :=
  ∃ t, execAt o i s = .next t ∧ EndedWithError s t e sec

/-- It is the ENGINE's turn: the environment has nothing to do, or gives the turn away. -/
def EnginesTurn (s : State) (rest : List Event) : Prop := (s.env = [] ∧ rest = []) ∨ s.env = .engine :: rest

/-- The status words a state can hold: those of a state after reset, of a pending command, and of an ended one (R22, R400). -/
def LegalStatus (w : Word) : Prop :=
  w = 0 ∨ w = statusWord true false 0 .none ∨ (∃ sec, w = statusWord false true 0 sec) ∨
    ∃ (e : ErrCode) (sec : SecState), w = statusWord false true e.code sec

/-- The invariant of the machine's state. -/
structure State.Inv (s : State) : Prop where
  /-- STATUS is legal: its reserved bits are 0 and ERR is 1 exactly where ERR_CODE is not 0 (R22). -/
  status : LegalStatus s.status
  /-- The reserved bits of OPT, SRC, IN_LEN, OUT_LEN and KEYCTL are 0 (R21, R24 to R26, R28). -/
  opt : s.opt.extractLsb' 16 16 = 0
  src : s.src.extractLsb' 16 16 = 0
  inLen : s.inLen.extractLsb' 16 16 = 0
  outLen : s.outLen.extractLsb' 16 16 = 0
  keyctl : s.keyctl.extractLsb' 1 31 = 0
  /-- Both buffers keep their canonical form. -/
  inBuf : s.inBuf.wf = true
  outBuf : s.outBuf.wf = true
  /-- Every byte of OUT_BUF at or beyond OUT_LEN is 0 (R32). -/
  outZero : ∀ i, s.outLen.toNat ≤ i → s.outBuf.read i = 0
  /-- While a command is pending its sample is IN_BUF[0..IN_LEN) and nothing of a result shows (R401, R452). -/
  pending : s.busy = true → s.inSample = s.inputBytes ∧ s.res = {} ∧ s.outLen = 0 ∧ s.outBuf = []
  /-- While none is pending there is no sample (R34). -/
  idle : s.busy = false → s.inSample = []

/-! ### The spec's formulas in plain arithmetic, for statements -/

/-- `s[i] * 256 + s[i+1]`: the big-endian field at byte `i` (00_scope.md R7, 20_memory.md R60). -/
def wireHalf (b : List Byte) (i : Nat) : Nat := 256 * (b.getD i 0).toNat + (b.getD (i + 1) 0).toNat

/-- The command words R94 calls illegal: an opcode outside R91's map, or a reserved value in a MODE field of R92. -/
def IllegalWord (w : Word) : Prop :=
  let op := w.toNat % 256
  let low2 := w.toNat / 256 % 4
  op = 0 ∨ (3 ≤ op ∧ op ≤ 7) ∨ (0x0B ≤ op ∧ op ≤ 0x0F) ∨ (0x12 ≤ op ∧ op ≤ 0x17) ∨ (0x1A ≤ op ∧ op ≤ 0x1F) ∨
    (0x25 ≤ op ∧ op ≤ 0x27) ∨ (0x2A ≤ op ∧ op ≤ 0x2F) ∨ 0x34 ≤ op ∨
    ((op = 1 ∨ op = 0x30 ∨ op = 0x31 ∨ op = 0x32) ∧ (low2 = 3 ∨ w.toNat / 1024 % 4 = 3)) ∨
    (op = 2 ∧ low2 = 3) ∨ (op = 8 ∧ 5 ≤ w.toNat / 256 % 8)

/-- An access that R64 answers with 0 or ignores: at an unmapped address, or of the wrong width or alignment (20_memory.md
R62 to R64; the unmapped offsets are those 10_state.md R21 lists). -/
def NoSuchAccess (addr : BitVec 18) (bits : Nat) : Prop :=
  let a := addr.toNat
  (a < 0x100 ∧
      (bits ≠ 32 ∨ a % 4 ≠ 0 ∨ a = 0x28 ∨ a = 0x2C ∨ (0x44 ≤ a ∧ a ≤ 0x7C) ∨ 0xB0 ≤ a)) ∨
    (0x100 ≤ a ∧ a < 0x10000) ∨ a = 0x1FFFF ∨ 0x2FFFF ≤ a ∨ (0x10000 ≤ a ∧ a ≤ 0x2FFFE ∧ bits ≠ 8)

/-- A location the host may only read: STATUS, OUT_LEN, RES0 to RES11, OUT_BUF (20_memory.md R64). -/
def ReadOnly (addr : BitVec 18) : Prop :=
  let a := addr.toNat
  a = 0x04 ∨ a = 0x14 ∨ (0x80 ≤ a ∧ a ≤ 0xAF) ∨ (0x20000 ≤ a ∧ a ≤ 0x2FFFE)

/-- `fam_of_hint` (40_address.md R117). -/
def hintFamily (hint : BitVec 2) : Nat := if hint = 0 then 1 else if hint = 1 then 2 else 0

/-- ADDRWORD (40_address.md R116) of the value `v`, the family `fam` and the raw bit. -/
def addressWord (v fam raw : Nat) : Word :=
  BitVec.ofNat 32 (v + 65536 * fam + (if fam = 0 then 0 else 262144) + 524288 * raw)

/-- The string matches a pattern of R111, whatever the values of its fields. -/
def FriendlyString (str : List Byte) : Prop :=
  ∃ a b c, isDec a = true ∧ isDec b = true ∧ isDec c = true ∧
    (str = a ++ slash :: b ++ slash :: c ∨ str = a ++ slash :: b ∨ str = a ++ dot :: b ++ dot :: c)

/-- The string is a friendly address of value `v` in family `fam`: a pattern of R111 with every field in range (R112, R113). -/
def FriendlyAddress (str : List Byte) (v fam : Nat) : Prop :=
  ∃ a b c, isDec a = true ∧ isDec b = true ∧ isDec c = true ∧
    ((str = a ++ slash :: b ++ slash :: c ∧ decValue a ≤ 15 ∧ decValue b ≤ 7 ∧ decValue c ≤ 255 ∧ fam = 1 ∧
        v = 2048 * decValue a + 256 * decValue b + decValue c) ∨
      (str = a ++ slash :: b ∧ decValue a ≤ 15 ∧ decValue b ≤ 2047 ∧ fam = 2 ∧ v = 2048 * decValue a + decValue b) ∨
      (str = a ++ dot :: b ++ dot :: c ∧ decValue a ≤ 15 ∧ decValue b ≤ 15 ∧ decValue c ≤ 255 ∧ fam = 0 ∧
        v = 4096 * decValue a + 256 * decValue b + decValue c))

/-- ParseAddress of R117 as a relation: what the address with this FORM and HINT comes to, from the integer `n` or the byte
string `str`. -/
def ParsesTo (form hint : BitVec 2) (n : Nat) (str : List Byte) (v fam raw : Nat) : Prop :=
  (form = 0 ∧ n ≤ 0xFFFF ∧ v = n ∧ fam = hintFamily hint ∧ raw = 1) ∨
    (form = 1 ∧ str.length = 2 ∧ v = wireHalf str 0 ∧ fam = hintFamily hint ∧ raw = 1) ∨
    (form = 2 ∧ FriendlyAddress str v fam ∧ raw = 0) ∨
    (form = 2 ∧ ¬ FriendlyString str ∧ str.length = 2 ∧ v = wireHalf str 0 ∧ fam = hintFamily hint ∧ raw = 1)

/-- Word `k` of the CEMI result block (42_cemi.md R179) of the frame `f`. -/
def cemiWord (k : Nat) (f : List Byte) (packed excess : Nat) : Word :=
  let n (i : Nat) : Nat := (f.getD i 0).toNat
  let w := wireHalf f 9
  BitVec.ofNat 32
    (match k with
    | 0 => n 0 + 256 * n 1 + 65536 * n 2 + 16777216 * n 3
    | 1 => wireHalf f 4 + 65536 * wireHalf f 6
    | 2 => n 8 + 256 * w + 16777216 * packed + 33554432 * (n 3 / 128)
    | 3 => w / 64 % 16 + 16 * (w % 1024) + 16384 * (w / 16384) + 65536 * (w / 1024 % 16) + 1048576 * (w % 64)
    | 4 =>
      n 2 / 128 + 2 * (n 2 / 64 % 2) + 4 * (n 2 / 32 % 2) + 8 * (n 2 / 16 % 2) + 16 * (n 2 / 4 % 4) + 64 * (n 2 / 2 % 2) +
        128 * (n 2 % 2) + 256 * (n 3 / 128) + 512 * (n 3 / 16 % 8) + 4096 * (n 3 % 16)
    | _ => (f.length - 11) % 65536 + 65536 * (excess % 65536))

/-- The frame `f` is too short for its fields (42_cemi.md R177, 41_apci_tpci.md R149). -/
def FrameBad (f : List Byte) : Prop := f.length < 11 ∨ f.length - 11 + 1 < (f.getD 8 0).toNat

/-- The payload of the frame `f` (R149, R177): its first byte is `data6` exactly where data_length exceeds the trailing bytes. -/
def FrameGives (f data : List Byte) (packed excess : Nat) : Prop :=
  11 ≤ f.length ∧
    (((f.getD 8 0).toNat = f.length - 11 + 1 ∧ data = BitVec.ofNat 8 ((f.getD 10 0).toNat % 64) :: f.drop 11 ∧ packed = 1 ∧
        excess = 0) ∨
      ((f.getD 8 0).toNat ≤ f.length - 11 ∧ data = (f.drop 11).take (f.getD 8 0).toNat ∧ packed = 0 ∧
        excess = f.length - 11 - (f.getD 8 0).toNat))

/-- The request types of the default table (43_header.md R200). -/
def requestTypes : List Nat :=
  [0x0201, 0x0202, 0x0203, 0x0204, 0x0205, 0x0206, 0x0207, 0x0208, 0x0209, 0x020A, 0x0310, 0x0311, 0x0420, 0x0421, 0x0530,
   0x0531, 0x0532, 0x0740, 0x0741, 0x0950, 0x0951, 0x0952, 0x0953, 0x0954, 0x0955]

/-- The length checks of HdrDecode (43_header.md R202, R205 to R207) that a datagram fails. -/
def HeaderBad (b : List Byte) : Prop :=
  b.length < 6 ∨ wireHalf b 4 < 6 ∨ b.length < wireHalf b 4 ∨ (wireHalf b 2 = 0x0950 ∧ wireHalf b 4 < 38) ∨
    (wireHalf b 2 = 0x0955 ∧ wireHalf b 4 < 36)

/-- header_length, version, request_type of a datagram (R204). -/
def headerRes0 (b : List Byte) : Word :=
  BitVec.ofNat 32 ((b.getD 0 0).toNat + 256 * (b.getD 1 0).toNat + 65536 * wireHalf b 2)

/-- request_length, variant, type_known of a datagram, and what DECODE adds above them (R204, R317). -/
def headerRes1 (b : List Byte) (variant above : Nat) : Word :=
  BitVec.ofNat 32 (wireHalf b 4 + 65536 * variant + (if wireHalf b 2 ∈ requestTypes then 262144 else 0) + above)

/-- session_id and L of a wrapper (R204). -/
def headerRes2 (b : List Byte) : Word := BitVec.ofNat 32 (wireHalf b 6 + 65536 * (wireHalf b 4 - 38))

/-- The tag a wrapper must carry (45_secure.md R268): the CMAC of N_auth, which is bytes [8, 22) and L, and the encrypted
frame. -/
def wrapperMac (key : Block) (b : List Byte) : List Byte :=
  cmac key
    (slice b 8 22 ++ be16 (BitVec.ofNat 16 (wireHalf b 4 - 38)) ++ slice b 22 (wireHalf b 4 - 16))

/-- The tag a wrapper carries: the last 16 bytes of the datagram (30_encoding.md R82). -/
def storedMac (b : List Byte) : List Byte := slice b (wireHalf b 4 - 16) (wireHalf b 4)

/-- The plaintext of a wrapper (45_secure.md R269 with 44_crypto.md R238). -/
def wrapperPlain (key : Block) (b : List Byte) : List Byte :=
  xorBytes (slice b 22 (wireHalf b 4 - 16)) (keystream key (slice b 8 22 ++ [0x01]) (wireHalf b 4 - 38))

/-- The tag a timer notify must carry (45_secure.md R271): the CMAC of its bytes [6, 20) and a length of 0. -/
def timerMac (key : Block) (b : List Byte) : List Byte := cmac key (slice b 6 20 ++ [0, 0])

/-- The display word of DECODE (47_datagram.md R317, R318). -/
def displayRes (s : State) (f : List Byte) : Word :=
  BitVec.ofNat 32 (16 + (if (f.getD 3 0).toNat < 128 then 0 else if s.opt.getLsbD 7 then 2 else 1))

/-- The bytes of a frame that follow the APDU word, and the word's low byte, for a base code below 4 (41_apci_tpci.md R147). -/
def packedLow (code : Nat) (d : List Byte) : Byte :=
  BitVec.ofNat 8 (64 * code + (if 0 < d.length ∧ (d.headD 0).toNat ≤ 63 then (d.headD 0).toNat else 0))

/-- The data bytes that trail the APDU word of a base code (R147). -/
def trailingBytes (d : List Byte) : List Byte := if 0 < d.length ∧ (d.headD 0).toNat ≤ 63 then d.tail else d

/-- The datagram of R316 for the address `v` of family `fam`, an action code below 4 and the data `d`, from OPT and SRC. -/
def builtDatagram (s : State) (v fam code : Nat) (d : List Byte) : List Byte :=
  let o (lo w : Nat) : Nat := s.opt.toNat / 2 ^ lo % 2 ^ w
  [0x06, 0x10, 0x05, 0x30] ++ be16 (BitVec.ofNat 16 (17 + (trailingBytes d).length)) ++
    [BitVec.ofNat 8 (o 8 8), 0x00, BitVec.ofNat 8 (128 + 32 * o 2 1 + 16 * o 3 1 + 4 * o 0 2),
     BitVec.ofNat 8 ((if fam = 0 then 0 else 128) + 16 * o 4 3)] ++
    be16 (BitVec.ofNat 16 s.src.toNat) ++ be16 (BitVec.ofNat 16 v) ++
    [BitVec.ofNat 8 d.length, 0x00, packedLow code d] ++ trailingBytes d

/-- `a • b` in GF(2^8) modulo 0x11B (44_crypto.md R232). -/
def gfProduct (a b : Byte) : Byte :=
  ((List.range 8).foldl (fun (p : Byte × Byte) i => (if b.getLsbD i then p.1 ^^^ p.2 else p.1, xtime p.2)) (0, a)).1

end Sys2Proof.Machine
end

