-- ==== Sys2Proof/Certificates/Slice0/Obligations.lean ====
section
/-! DEFINITION. The statements for the provers. `Completes` and `Raises` (Safety.lean) say that exec answers a next state, how the
command ended in it, and that everything a command never writes is as before. exec and step are the model at the defaults of the
OPEN parameters of R6 (log 6); `CompletesAt`, `RaisesAt`, execAt and stepAt are the model at any OPEN values. -/

open Sys2Proof Sys2Proof.Machine

/-! ### The command word -/

/-- R90 to R92: every command is read back from the word its encoding gives, with every field at every value. -/
def Obligations.EncodeThenDecode : Prop := ∀ i : Instr, decode (encode i) = .ok i

/-- R92, R93: a word names a command exactly when its bits that the command's row lists are the command's; every other bit is
ignored. -/
def Obligations.DecodeReadsExactlyTheListedBits : Prop :=
  ∀ (w : Word) (i : Instr), decode w = .ok i ↔ w &&& i.usedBits = encode i

/-- R94: an illegal encoding ends with IllegalCommandError whatever the other inputs are, and no other encoding ends with it. -/
def Obligations.IllegalEncodingsEndTheCommand : Prop :=
  ∀ (s : State) (rest : List Event), s.busy = true → EnginesTurn s rest →
    ∃ t, step s = .next t ∧ (IllegalWord s.cmd → EndedWithError { s with env := rest } t .illegalCommand .none) ∧
      (¬ IllegalWord s.cmd → t.errCode ≠ 9)

/-- R90 to R93: command words written out from the tables of R91 and R92. -/
def Obligations.KnownWordsDecode : Prop :=
  decode 0x00050230 = .ok (.buildAction 2 0 5) ∧ decode 0x00000A01 = .ok (.addrParse 2 2) ∧
    decode 0x00000102 = .ok (.addrRender 1) ∧ decode 0x00008308 = .ok (.tblResolve 1 3) ∧ decode 0x00000120 = .ok (.secNonce 1) ∧
    decode 0x00000033 = .ok .decode ∧ decode 0xFFFFFF22 = .ok .secUnwrap ∧ decode 0x00000003 = .error (.illegalOpcode 3)

/-- R20: on the ENGINE's turn a pending command's step is exec of the command that CMD names; so it is in an engine with any OPEN
values (R6). -/
def Obligations.StepRunsTheDecodedCommand : Prop :=
  ∀ (s : State) (rest : List Event) (i : Instr), EnginesTurn s rest → s.busy = true → decode s.cmd = .ok i →
    step s = exec i { s with env := rest } ∧ ∀ o : OpenParams, stepAt o s = execAt o i { s with env := rest }

/-! ### Reset, start and end of a command -/

/-- R451: the reset value of every piece of the engine's state, with no command pending. -/
def Obligations.ResetValues : Prop := AtReset State.reset

/-- The invariant holds in the reset state (the two fields of the model's own, log 1 and log 3, are not part of it). -/
def Obligations.ResetMeetsTheInvariant : Prop := State.reset.Inv

/-- R21, R22, R31, R32, R452: reserved bits read 0, ERR stands for a code, the buffers stay in canonical form, OUT_BUF is 0 from
OUT_LEN on, and a pending command shows no result: every step keeps it, from every state. -/
def Obligations.StepKeepsTheInvariant : Prop := ∀ s t : State, s.Inv → step s = .next t → t.Inv

/-- R20, R402, R403: on its turn the ENGINE ends the pending command in one step: BUSY 0, DONE 1, the key cleared, ERR exactly
with a code of R400, nothing of a result beside an error, and every input as it was. -/
def Obligations.EngineTurnEndsTheCommand : Prop :=
  ∀ (s : State) (rest : List Event), s.busy = true → EnginesTurn s rest →
    ∃ t, step s = .next t ∧ t.busy = false ∧ t.done = true ∧ Cleared t ∧ SameInputs { s with env := rest } t ∧
      (t.err = true ↔ t.errCode ≠ 0) ∧ t.errCode.toNat ≤ 10 ∧
      (t.errCode ≠ 0 → t.res = {} ∧ t.outLen = 0 ∧ ∀ i, t.outBuf.read i = 0)

/-- R401: all that a host write of CMD does while BUSY = 0. -/
def Obligations.CommandStart : Prop :=
  ∀ (s : State) (rest : List Event) (v : Word), s.busy = false → s.env = .write 0 32 v :: rest →
    ∃ t, step s = .next t ∧ t.cmd = v ∧ t.inSample = (List.range (s.inLen.toNat % 65536)).map s.inBuf.read ∧
      t.busy = true ∧ t.done = false ∧ t.err = false ∧ t.errCode = 0 ∧ t.secState = 0 ∧
      (∀ k, t.res.get k = 0) ∧ t.outLen = 0 ∧ (∀ i, t.outBuf.read i = 0) ∧
      t.opt = s.opt ∧ t.src = s.src ∧ t.inLen = s.inLen ∧ t.arg0 = s.arg0 ∧ t.arg1 = s.arg1 ∧ t.arg2 = s.arg2 ∧
      t.arg3 = s.arg3 ∧ t.key0 = s.key0 ∧ t.key1 = s.key1 ∧ t.key2 = s.key2 ∧ t.key3 = s.key3 ∧ t.keyctl = s.keyctl ∧
      t.inBuf = s.inBuf ∧ t.env = rest ∧ t.busData = s.busData ∧
      (∀ addr bits d, t.hostWrite addr bits d = t) ∧ (∀ i, decode v = .ok i → t.engineTurn = exec i t)

/-- R452: while BUSY = 1 every host write is ignored, STATUS reads as BUSY alone, results and output read 0, the KEY registers
read 0, and every other register its stored value. The last clause is not R452's: that IN_BUF reads its stored byte meanwhile is
read from R31 and R62 (log 18), and that the byte is zero-extended is the model's choice (log 9). -/
def Obligations.BusyWindow : Prop :=
  ∀ s : State, s.Inv → s.busy = true →
    (∀ addr bits v rest, s.env = .write addr bits v :: rest → step s = .next { s with env := rest }) ∧
      s.hostRead 0x004 32 = 1 ∧ (∀ k, k < 12 → s.hostRead (BitVec.ofNat 18 (0x80 + 4 * k)) 32 = 0) ∧
      s.hostRead 0x014 32 = 0 ∧ (∀ i, i < 65535 → s.hostRead (BitVec.ofNat 18 (0x20000 + i)) 8 = 0) ∧
      (∀ k, k < 4 → s.hostRead (BitVec.ofNat 18 (0x30 + 4 * k)) 32 = 0) ∧
      s.hostRead 0x000 32 = s.cmd ∧ s.hostRead 0x008 32 = s.opt ∧ s.hostRead 0x00C 32 = s.src ∧
      s.hostRead 0x010 32 = s.inLen ∧ s.hostRead 0x018 32 = s.arg0 ∧ s.hostRead 0x01C 32 = s.arg1 ∧
      s.hostRead 0x020 32 = s.arg2 ∧ s.hostRead 0x024 32 = s.arg3 ∧ s.hostRead 0x040 32 = s.keyctl ∧
      (∀ i, i < 65535 → s.hostRead (BitVec.ofNat 18 (0x10000 + i)) 8 = (s.inBuf.read i).setWidth 32)

/-- R450: the reset event, in any state, sets every piece of the engine's state to its value of R451; a pending command is
abandoned. That the host's own data outlives it is the model's choice (log 8). -/
def Obligations.PlatformReset : Prop :=
  ∀ (s : State) (rest : List Event), s.env = .reset :: rest →
    ∃ t, step s = .next t ∧ AtReset t ∧ t.env = rest ∧ t.busData = s.busData

/-- R20, R418: where no command is pending the ENGINE's turn changes nothing of the engine (log 16). -/
def Obligations.IdleEngineKeepsItsState : Prop :=
  ∀ (s : State) (rest : List Event), s.busy = false → EnginesTurn s rest → step s = .next { s with env := rest }

/-! ### Host accesses -/

/-- R64: an access to no location, or of the wrong width or alignment, reads 0 or is ignored, and so is a write to a read-only
location; none stops the machine. -/
def Obligations.WrongAccessesAreHarmless : Prop :=
  ∀ (s : State) (rest : List Event) (addr : BitVec 18) (bits : Nat) (v : Word),
    (NoSuchAccess addr bits → s.env = .read addr bits :: rest → step s = .next { s with env := rest, busData := 0 }) ∧
      (NoSuchAccess addr bits → s.env = .write addr bits v :: rest → step s = .next { s with env := rest }) ∧
      (ReadOnly addr → s.env = .write addr bits v :: rest → step s = .next { s with env := rest })

/-- R65: no access but a CMD write while BUSY = 0 has a side effect: a read changes only the value read, and any other write starts
nothing, clears nothing, changes what is read at no other address, and done twice is done once. -/
def Obligations.OnlyACommandWriteHasASideEffect : Prop :=
  ∀ (s : State) (rest : List Event) (addr : BitVec 18) (bits : Nat) (v : Word), s.inBuf.wf = true →
    (s.env = .read addr bits :: rest → step s = .next { s with env := rest, busData := s.hostRead addr bits }) ∧
      (¬ (s.busy = false ∧ addr = 0 ∧ bits = 32) →
        let t := s.hostWrite addr bits v
        t.hostWrite addr bits v = t ∧ t.status = s.status ∧ t.cmd = s.cmd ∧ t.inSample = s.inSample ∧ t.res = s.res ∧
          t.outLen = s.outLen ∧ t.outBuf = s.outBuf ∧ ∀ a b, a ≠ addr → t.hostRead a b = s.hostRead a b) ∧
      (s.busy = false →
        s.hostWrite 0x030 32 v = { s with key0 := v } ∧ s.hostWrite 0x034 32 v = { s with key1 := v } ∧
          s.hostWrite 0x038 32 v = { s with key2 := v } ∧ s.hostWrite 0x03C 32 v = { s with key3 := v })

/-- R21 to R32, R62, R457: in every state a host read at a register's offset returns that register, and one at a byte of OUT_BUF or
IN_BUF that byte, zero-extended (the extension is the model's choice, log 9; that the busy window needs no case is log 18); and a
register written while BUSY = 0 reads back with its reserved bits 0. -/
def Obligations.RegistersReadBack : Prop :=
  ∀ s : State,
    (s.hostRead 0x000 32 = s.cmd ∧ s.hostRead 0x004 32 = s.status ∧ s.hostRead 0x008 32 = s.opt ∧
        s.hostRead 0x00C 32 = s.src ∧ s.hostRead 0x010 32 = s.inLen ∧ s.hostRead 0x014 32 = s.outLen ∧ s.hostRead 0x018 32 = s.arg0 ∧
        s.hostRead 0x01C 32 = s.arg1 ∧ s.hostRead 0x020 32 = s.arg2 ∧ s.hostRead 0x024 32 = s.arg3 ∧
        s.hostRead 0x040 32 = s.keyctl) ∧
      (∀ k, k < 12 → s.hostRead (BitVec.ofNat 18 (0x80 + 4 * k)) 32 = s.res.get k) ∧
      (∀ i, i < 65535 → s.hostRead (BitVec.ofNat 18 (0x20000 + i)) 8 = (s.outBuf.read i).setWidth 32) ∧
      (∀ i, i < 65535 → s.hostRead (BitVec.ofNat 18 (0x10000 + i)) 8 = (s.inBuf.read i).setWidth 32) ∧
      ∀ (v mask : Word) (addr : BitVec 18), s.busy = false →
        (addr, mask) ∈
          [((0x008 : BitVec 18), (0x0000FFFF : Word)), (0x00C, 0x0000FFFF), (0x010, 0x0000FFFF), (0x018, 0xFFFFFFFF),
           (0x01C, 0xFFFFFFFF), (0x020, 0xFFFFFFFF), (0x024, 0xFFFFFFFF), (0x040, 0x00000001)] →
        (s.hostWrite addr 32 v).hostRead addr 32 = v &&& mask

/-- R31, R62: a byte written to IN_BUF while BUSY = 0 reads back, every other byte is as before, and the buffer keeps its
canonical form. -/
def Obligations.InputBufferReadsBack : Prop :=
  ∀ (s : State) (i : Nat) (v : Word), s.busy = false → s.inBuf.wf = true → i < 65535 →
    let t := s.hostWrite (BitVec.ofNat 18 (0x10000 + i)) 8 v
    t.hostRead (BitVec.ofNat 18 (0x10000 + i)) 8 = BitVec.ofNat 32 (v.toNat % 256) ∧
      (∀ j, j ≠ i → t.inBuf.read j = s.inBuf.read j) ∧ t.inBuf.wf = true

/-- R27: where the key bytes stand, that KEY registers take writes and read 0, and that every command's end and reset set them
to 0. -/
def Obligations.KeyRegisters : Prop :=
  ∀ s : State,
    (∀ k, k < 16 →
        s.key.bytes.getD k 0 =
          ([s.key0, s.key1, s.key2, s.key3].getD (k / 4) 0).extractLsb' (24 - 8 * (k % 4)) 8) ∧
      (∀ k, k < 4 → s.hostRead (BitVec.ofNat 18 (0x30 + 4 * k)) 32 = 0) ∧
      (s.busy = false → ∀ v,
        (s.hostWrite 0x030 32 v).key0 = v ∧ (s.hostWrite 0x034 32 v).key1 = v ∧ (s.hostWrite 0x038 32 v).key2 = v ∧
          (s.hostWrite 0x03C 32 v).key3 = v) ∧
      (s.busy = true → ∃ t, s.engineTurn = .next t ∧ t.key0 = 0 ∧ t.key1 = 0 ∧ t.key2 = 0 ∧ t.key3 = 0) ∧
      State.reset.key0 = 0 ∧ State.reset.key1 = 0 ∧ State.reset.key2 = 0 ∧ State.reset.key3 = 0

/-- R28, R412: the KEY registers reach no command's outcome while KEY_VALID is 0, and neither they nor KEYCTL reach that of a
command that needs no key. -/
def Obligations.KeysReachOnlyKeyedCommands : Prop :=
  ∀ (i : Instr) (s : State) (k0 k1 k2 k3 c : Word),
    (s.keyctl.getLsbD 0 = false → exec i { s with key0 := k0, key1 := k1, key2 := k2, key3 := k3 } = exec i s) ∧
      (i ∉ [Instr.cmacGen, .secUnwrap, .secTimerVerify, .secWrap, .decode] →
        exec i { s with key0 := k0, key1 := k1, key2 := k2, key3 := k3, keyctl := c } = exec i s)

/-- R31, R71, R93: a command reads IN_BUF only through the sample taken at its start, and no command reads ARG3; the sample
depends on no byte at or beyond IN_LEN. -/
def Obligations.CommandsReadOnlyTheSample : Prop :=
  (∀ (i : Instr) (s t : State) (m : Memory) (n x : Word), exec i s = .next t →
      exec i { s with inBuf := m, inLen := n, arg3 := x } = .next { t with inBuf := m, inLen := n, arg3 := x }) ∧
    ∀ (s s' : State) (v : Word), s'.inLen = s.inLen →
      (∀ k, k < s.inLen.toNat % 65536 → s'.inBuf.read k = s.inBuf.read k) →
      (s'.commandStart v).inSample = (s.commandStart v).inSample

/-- R93: a command is blind to the registers its rule does not name, and to the reserved bits of OPT and SRC: whatever they hold, it
ends in the same way. -/
def Obligations.UnnamedArgumentsAreIgnored : Prop :=
  ∀ (i : Instr) (s t : State) (x : Word), exec i s = .next t →
    let builds :=
      ∃ form hint imm, i = .buildAction form hint imm ∨ i = .buildStatus form hint imm ∨ i = .buildResponse form hint imm
    (i ∈ [Instr.cemiDecode, .hdrDecode, .cmacGen, .secUnwrap, .secTimerVerify, .decode] →
        exec i { s with arg0 := x } = .next { t with arg0 := x }) ∧
      (i ∉ [Instr.apciPack, .cemiEncode, .hdrEncode, .dptEncode] → exec i { s with arg1 := x } = .next { t with arg1 := x }) ∧
      (i ∉ [Instr.cemiEncode, .hdrEncode] → exec i { s with arg2 := x } = .next { t with arg2 := x }) ∧
      (¬ builds → exec i { s with src := x } = .next { t with src := x }) ∧
      (¬ builds → i ≠ .decode → exec i { s with opt := x } = .next { t with opt := x }) ∧
      (x &&& 0x0000FFFF = s.src &&& 0x0000FFFF → exec i { s with src := x } = .next { t with src := x }) ∧
      (x &&& 0x0000FFFF = s.opt &&& 0x0000FFFF → exec i { s with opt := x } = .next { t with opt := x })

/-! ### Addresses -/

/-- R117: ADDR_PARSE of an integer and of a byte pair; the family is the hint's (R115). -/
def Obligations.AddrParseOfRawForms : Prop :=
  ∀ (hint : BitVec 2) (s : State), hint ≠ 3 →
    (s.arg0.toNat ≤ 0xFFFF →
        Completes (.addrParse 0 hint) s { r0 := addressWord s.arg0.toNat (hintFamily hint) 1 } [] .none) ∧
      (0xFFFF < s.arg0.toNat → Raises (.addrParse 0 hint) s .addressFormat .none) ∧
      (s.inSample.length = 2 →
        Completes (.addrParse 1 hint) s { r0 := addressWord (wireHalf s.inSample 0) (hintFamily hint) 1 } [] .none) ∧
      (s.inSample.length ≠ 2 → Raises (.addrParse 1 hint) s .addressFormat .none)

/-- R112, R113: a string of a pattern of R111 gives its value and the family its separators decide, whatever the hint (R123), or
AddressFormatError where a field exceeds its width. -/
def Obligations.AddrParseOfFriendlyStrings : Prop :=
  ∀ (hint : BitVec 2) (s : State) (a b c : List Byte), hint ≠ 3 → isDec a = true → isDec b = true → isDec c = true →
    let A := decValue a
    let B := decValue b
    let C := decValue c
    (s.inSample = a ++ slash :: b ++ slash :: c →
        if A ≤ 15 ∧ B ≤ 7 ∧ C ≤ 255 then
          Completes (.addrParse 2 hint) s { r0 := addressWord (2048 * A + 256 * B + C) 1 0 } [] .none
        else Raises (.addrParse 2 hint) s .addressFormat .none) ∧
      (s.inSample = a ++ slash :: b →
        if A ≤ 15 ∧ B ≤ 2047 then Completes (.addrParse 2 hint) s { r0 := addressWord (2048 * A + B) 2 0 } [] .none
        else Raises (.addrParse 2 hint) s .addressFormat .none) ∧
      (s.inSample = a ++ dot :: b ++ dot :: c →
        if A ≤ 15 ∧ B ≤ 15 ∧ C ≤ 255 then
          Completes (.addrParse 2 hint) s { r0 := addressWord (4096 * A + 256 * B + C) 0 0 } [] .none
        else Raises (.addrParse 2 hint) s .addressFormat .none)

/-- R114: a string of no pattern is two raw bytes, or AddressFormatError. -/
def Obligations.AddrParseOfOtherStrings : Prop :=
  ∀ (hint : BitVec 2) (s : State), hint ≠ 3 → ¬ FriendlyString s.inSample →
    (s.inSample.length = 2 →
        Completes (.addrParse 2 hint) s { r0 := addressWord (wireHalf s.inSample 0) (hintFamily hint) 1 } [] .none) ∧
      (s.inSample.length ≠ 2 → Raises (.addrParse 2 hint) s .addressFormat .none)

/-- R118: `dec(n)` is decimal, has the value `n`, has no leading zero, and is "0" for zero. -/
def Obligations.DecimalRendering : Prop :=
  dec 0 = [0x30] ∧ ∀ n, isDec (dec n) = true ∧ decValue (dec n) = n ∧ (n ≠ 0 → (dec n).headD 0 ≠ 0x30)

/-- R119, R120: the string ADDR_RENDER writes in each format, and its length. -/
def Obligations.AddrRenderWritesTheString : Prop :=
  ∀ s : State,
    let v := s.arg0.toNat % 65536
    let ind := dec (v / 4096) ++ [dot] ++ dec (v / 256 % 16) ++ [dot] ++ dec (v % 256)
    let g3 := dec (v / 2048 % 16) ++ [slash] ++ dec (v / 256 % 8) ++ [slash] ++ dec (v % 256)
    let g2 := dec (v / 2048 % 16) ++ [slash] ++ dec (v % 2048)
    Completes (.addrRender 0) s {} ind .none ∧ Completes (.addrRender 1) s {} g3 .none ∧ Completes (.addrRender 2) s {} g2 .none ∧
      5 ≤ ind.length ∧ ind.length ≤ 11 ∧ 5 ≤ g3.length ∧ g3.length ≤ 9 ∧ 3 ≤ g2.length ∧ g2.length ≤ 7

/-- R122: what ADDR_RENDER writes in the format of a family, ADDR_PARSE reads back as the same value and family, for every
individual address and every group address with bit 15 clear. -/
def Obligations.AddressRoundTrip : Prop :=
  ∀ (v : Half) (fmt : BitVec 2) (s : State), fmt ≠ 3 → (fmt ≠ 0 → v.toNat < 32768) → s.arg0.extractLsb' 0 16 = v →
    ∃ str, Completes (.addrRender fmt) s {} str .none ∧
      ∀ (hint : BitVec 2) (s' : State), hint ≠ 3 → s'.inSample = str →
        Completes (.addrParse 2 hint) s' { r0 := addressWord v.toNat fmt.toNat 0 } [] .none

/-! ### The tables and the packing rule -/

/-- R145 over the tables of R141 to R144 and R200: a code resolves to its row, a row to its code, an unknown key to the sentinel
(R152), and a reserved TABLE is illegal. The codes of MSG_CODE and REQ_TYPE are the OPEN defaults (log 6). -/
def Obligations.TblResolveLooksUp : Prop :=
  ∀ s : State,
    (∀ table : BitVec 3, ∀ codes : List Nat,
        (table, codes) ∈
          [((0 : BitVec 3), [0, 1, 2, 3, 4, 5, 6, 7, 8, 9, 10, 11, 12, 13, 14, 15]), (1, [0, 1, 2, 3]),
           (2, [0x10, 0x11, 0x13, 0x25, 0x29, 0x2B, 0x2D, 0x2E, 0x2F]), (3, requestTypes), (4, [0, 1, 2, 3])] →
        (∀ i, i < codes.length → s.arg0.toNat = codes.getD i 0 →
            Completes (.tblResolve 0 table) s { r0 := 1, r1 := BitVec.ofNat 32 i } [] .none) ∧
          (s.arg0.toNat ∉ codes → Completes (.tblResolve 0 table) s { r0 := 0, r1 := 0xFFFFFFFF } [] .none) ∧
          (s.arg0.toNat < codes.length →
            Completes (.tblResolve 1 table) s { r0 := 1, r1 := BitVec.ofNat 32 (codes.getD s.arg0.toNat 0) } [] .none) ∧
          (codes.length ≤ s.arg0.toNat → Completes (.tblResolve 1 table) s { r0 := 0, r1 := 0xFFFFFFFF } [] .none)) ∧
      ∀ (dir : BitVec 1) (table : BitVec 3), 5 ≤ table.toNat → Raises (.tblResolve dir table) s .illegalCommand .none

/-- R148 with R147: a base code may carry a byte of at most 63; an extended code fills both fields. -/
def Obligations.ApciPackPacks : Prop :=
  ∀ s : State,
    let code := s.arg0.toNat % 1024
    let d := s.arg1.toNat % 256
    Completes .apciPack s
      { r0 :=
          BitVec.ofNat 32
            (if code ≤ 15 then (if s.arg1.getLsbD 8 = true ∧ d ≤ 63 then code + 16 * d + 1024 else code)
            else code / 64 + 16 * (code % 64)) }
      [] .none

/-- R150 with R149: the packed byte is prepended exactly where data_length exceeds the trailing bytes by one; by more, the frame is
truncated; bytes beyond it are counted. -/
def Obligations.ApciUnpackUnpacks : Prop :=
  ∀ s : State,
    let a := s.arg0.toNat % 16
    let f := s.arg0.toNat / 16 % 64
    let dl := s.arg0.toNat / 1024 % 256
    let n := s.inSample.length
    (n + 1 < dl → Raises .apciUnpack s .frameTruncated .none) ∧
      (dl = n + 1 →
        Completes .apciUnpack s { r0 := BitVec.ofNat 32 (a + 16 * (64 * a + f) + 16384) } (BitVec.ofNat 8 f :: s.inSample)
          .none) ∧
      (dl ≤ n →
        Completes .apciUnpack s { r0 := BitVec.ofNat 32 (a + 16 * (64 * a + f)), r1 := BitVec.ofNat 32 (n - dl) }
          (s.inSample.take dl) .none)

/-- R151: packing then unpacking gives the data and the code back. -/
def Obligations.PackThenUnpack : Prop :=
  ∀ (c : BitVec 10) (d : List Byte), d.length ≤ 255 →
    let p := pack c (decide (1 ≤ d.length)) (d.headD 0)
    let trailing := if p.carries = true then d.tail else d
    unpack p.f6 d.length trailing = .ok ⟨d, p.carries, 0⟩ ∧ (c.toNat ≤ 15 → p.apci.toNat = c.toNat) ∧
      (15 < c.toNat → 64 * p.apci.toNat + p.f6.toNat = c.toNat ∧ p.carries = false)

/-! ### CEMI frames -/

/-- R176 with R172 to R174: the frame CEMI_ENCODE writes, byte by byte, for a packed byte, an unpacked base code and an extended
code; more than 255 data bytes are an error. -/
def Obligations.CemiEncodeWritesTheFrame : Prop :=
  ∀ s : State,
    let f (r : Word) (lo w : Nat) : Nat := r.toNat / 2 ^ lo % 2 ^ w
    let d := s.inSample
    let code := f s.arg2 0 10
    let ctrl1 := 128 * f s.arg0 8 1 + 32 * f s.arg0 9 1 + 16 * f s.arg0 10 1 + 4 * f s.arg0 11 2 + 2 * f s.arg0 13 1 + f s.arg0 14 1
    let ctrl2 := 128 * f s.arg0 15 1 + 16 * f s.arg0 16 3 + f s.arg0 19 4
    let w := 16384 * f s.arg0 23 2 + 1024 * f s.arg0 25 4
    let frame (w : Nat) (trailing : List Byte) : List Byte :=
      [BitVec.ofNat 8 (f s.arg0 0 8), 0x00, BitVec.ofNat 8 ctrl1, BitVec.ofNat 8 ctrl2, BitVec.ofNat 8 (f s.arg1 8 8),
       BitVec.ofNat 8 (f s.arg1 0 8), BitVec.ofNat 8 (f s.arg1 24 8), BitVec.ofNat 8 (f s.arg1 16 8), BitVec.ofNat 8 d.length,
       BitVec.ofNat 8 (w / 256), BitVec.ofNat 8 w] ++ trailing
    (255 < d.length → Raises .cemiEncode s .encodeLength .none) ∧
      (d.length ≤ 255 → code ≤ 15 → d ≠ [] → (d.headD 0).toNat ≤ 63 →
        Completes .cemiEncode s {} (frame (w + 64 * code + (d.headD 0).toNat) d.tail) .none) ∧
      (d.length ≤ 255 → code ≤ 15 → (d = [] ∨ 63 < (d.headD 0).toNat) →
        Completes .cemiEncode s {} (frame (w + 64 * code) d) .none) ∧
      (d.length ≤ 255 → 15 < code → Completes .cemiEncode s {} (frame (w + code) d) .none)

/-- R178 with R177 and R179: the result block and the payload of every frame that is long enough; any other is truncated. -/
def Obligations.CemiDecodeReadsTheFrame : Prop :=
  ∀ s : State,
    let f := s.inSample
    (FrameBad f → Raises .cemiDecode s .frameTruncated .none) ∧
      ∀ data packed excess, FrameGives f data packed excess →
        Completes .cemiDecode s
          { r0 := cemiWord 0 f packed excess, r1 := cemiWord 1 f packed excess, r2 := cemiWord 2 f packed excess,
            r3 := cemiWord 3 f packed excess, r4 := cemiWord 4 f packed excess, r5 := cemiWord 5 f packed excess }
          data .none

/-- R180 (a): CEMI_DECODE of what CEMI_ENCODE wrote gives every field and the data back. -/
def Obligations.CemiRoundTrip : Prop :=
  ∀ s : State, s.inSample.length ≤ 255 →
    ∃ b, Completes .cemiEncode s {} b .none ∧
      ∀ s' : State, s'.inSample = b →
        ∃ res : Results, Completes .cemiDecode s' res s.inSample .none ∧
          res.r0.extractLsb' 0 8 = s.arg0.extractLsb' 0 8 ∧ res.r0.extractLsb' 8 8 = 0 ∧ res.r1 = s.arg1 ∧
          (res.r2.extractLsb' 0 8).toNat = s.inSample.length ∧
          (res.r2.getLsbD 24 = true ↔
            (s.arg2.extractLsb' 0 10).toNat ≤ 15 ∧ s.inSample ≠ [] ∧ (s.inSample.headD 0).toNat ≤ 63) ∧
          ((s.arg2.extractLsb' 0 10).toNat ≤ 15 → (res.r3.extractLsb' 0 4).toNat = (s.arg2.extractLsb' 0 10).toNat) ∧
          (15 < (s.arg2.extractLsb' 0 10).toNat → res.r3.extractLsb' 4 10 = s.arg2.extractLsb' 0 10) ∧
          res.r3.extractLsb' 14 2 = s.arg0.extractLsb' 23 2 ∧ res.r3.extractLsb' 16 4 = s.arg0.extractLsb' 25 4 ∧
          res.r4.extractLsb' 0 1 = s.arg0.extractLsb' 8 1 ∧ res.r4.extractLsb' 1 1 = 0 ∧
          res.r4.extractLsb' 2 7 = s.arg0.extractLsb' 9 7 ∧ res.r4.extractLsb' 9 7 = s.arg0.extractLsb' 16 7 ∧
          res.r5.extractLsb' 16 16 = 0

/-! ### KNXnet/IP headers -/

/-- R203: HDR_ENCODE writes the header with request_length as given, then the payload verbatim. -/
def Obligations.HdrEncodeWritesTheHeader : Prop :=
  ∀ s : State,
    (s.inSample.length ≤ 65529 →
        Completes .hdrEncode s {}
          ([0x06, s.arg0.extractLsb' 0 8, s.arg1.extractLsb' 8 8, s.arg1.extractLsb' 0 8, s.arg2.extractLsb' 8 8,
            s.arg2.extractLsb' 0 8] ++ s.inSample)
          .none) ∧
      (65529 < s.inSample.length → Raises .hdrEncode s .encodeLength .none)

/-- R202, R204 to R208: HDR_DECODE of every byte string: which are HeaderLengthError, and the fields and the payload of every
other, by request type. The types 0x0950 and 0x0955 (R81) and the known types (R200) are the OPEN defaults (log 6). -/
def Obligations.HdrDecodeReadsTheHeader : Prop :=
  ∀ s : State,
    let b := s.inSample
    let payload := (b.take (wireHalf b 4)).drop 6
    (HeaderBad b → Raises .hdrDecode s .headerLength .none) ∧
      (¬ HeaderBad b → wireHalf b 2 = 0x0950 →
        Completes .hdrDecode s { r0 := headerRes0 b, r1 := headerRes1 b 1 0, r2 := headerRes2 b } payload .none) ∧
      (¬ HeaderBad b → wireHalf b 2 = 0x0955 →
        Completes .hdrDecode s { r0 := headerRes0 b, r1 := headerRes1 b 2 0 } payload .none) ∧
      (¬ HeaderBad b → wireHalf b 2 ≠ 0x0950 → wireHalf b 2 ≠ 0x0955 →
        Completes .hdrDecode s { r0 := headerRes0 b, r1 := headerRes1 b 0 0 } payload .none)

/-! ### Cryptographic primitives -/

/-- R239: the known answers K1 to K7. -/
def Obligations.KnownAnswers : Prop :=
  let key := Block.ofBits 0x2b7e151628aed2a6abf7158809cf4f3c
  let m1 := (Block.ofBits 0x6bc1bee22e409f96e93d7e117393172a).bytes
  let m2 := (Block.ofBits 0xae2d8a571e03ac9c9eb76fac45af8e51).bytes
  let m3 := (Block.ofBits 0x30c81c46a35ce411e5fbc1191a0a52ef).bytes
  let m4 := (Block.ofBits 0xf69f2445df4f9b17ad2b417be66c3710).bytes
  aes (Block.ofBits 0x000102030405060708090a0b0c0d0e0f) (Block.ofBits 0x00112233445566778899aabbccddeeff) =
      Block.ofBits 0x69c4e0d86a7b0430d8cdb78070b4c55a ∧
    aes key Block.zero = Block.ofBits 0x7df76b0c1ab899b33e42f047b91b546f ∧
    cmacK1 key = Block.ofBits 0xfbeed618357133667c85e08f7236a8de ∧
    cmacK2 key = Block.ofBits 0xf7ddac306ae266ccf90bc11ee46d513b ∧
    cmac key [] = (Block.ofBits 0xbb1d6929e95937287fa37d129b756746).bytes ∧
    cmac key m1 = (Block.ofBits 0x070a16b46b4d4144f79bdd9dd04a287c).bytes ∧
    cmac key (m1 ++ m2 ++ m3.take 8) = (Block.ofBits 0xdfa66747de9ae63030ca32611497c827).bytes ∧
    cmac key (m1 ++ m2 ++ m3 ++ m4) = (Block.ofBits 0x51f0bebf7e3b9d92fc49741779363cfe).bytes

/-- R231: the printed S-box is the inverse in GF(2^8), with 0 for 0, followed by the affine map. -/
def Obligations.SboxIsInverseThenAffine : Prop :=
  ∀ x : Byte, ∃ y : Byte, (x = 0 → y = 0) ∧ (x ≠ 0 → gfProduct x y = 1) ∧
    ∀ i, i < 8 →
      (sbox x).getLsbD i =
        (y.getLsbD i ^^ y.getLsbD ((i + 4) % 8) ^^ y.getLsbD ((i + 5) % 8) ^^ y.getLsbD ((i + 6) % 8) ^^
          y.getLsbD ((i + 7) % 8) ^^ (0x63 : Byte).getLsbD i)

/-- R238: the keystream has the length asked for, and its byte `i` is byte `i mod 16` of the block whose counter is `i / 16 + 1`
modulo 256. -/
def Obligations.KeystreamBytes : Prop :=
  ∀ (k : Block) (nonce : List Byte) (n : Nat), (keystream k nonce n).length = n ∧
    ∀ i, i < n →
      (keystream k nonce n).getD i 0 =
        (aes k (Block.ofBytes (nonce ++ [BitVec.ofNat 8 ((i / 16 + 1) % 256)]))).bytes.getD (i % 16) 0

/-- R240 (b): the default cipher undoes itself and keeps the length. -/
def Obligations.CipherIsAnInvolution : Prop :=
  ∀ (k : Block) (nonce p : List Byte),
    keystreamCipher k nonce (keystreamCipher k nonce p) = p ∧ (keystreamCipher k nonce p).length = p.length

/-! ### Secure frames -/

/-- R264: SEC_NONCE writes N_auth or N_dec from the first 14 bytes of IN. -/
def Obligations.SecNonceBuildsTheNonce : Prop :=
  ∀ s : State,
    (s.inSample.length < 14 →
        Raises (.secNonce 0) s .frameTruncated .none ∧ Raises (.secNonce 1) s .frameTruncated .none) ∧
      (14 ≤ s.inSample.length →
        Completes (.secNonce 0) s {} (s.inSample.take 14 ++ [s.arg0.extractLsb' 8 8, s.arg0.extractLsb' 0 8]) .none ∧
          Completes (.secNonce 1) s {} (s.inSample.take 14 ++ [0x01]) .none)

/-- R265: CMAC_GEN writes the 16-byte CMAC of IN, or raises KeyRequiredError where KEY_VALID is 0. -/
def Obligations.CmacGenNeedsTheKey : Prop :=
  ∀ s : State,
    (s.keyctl.getLsbD 0 = true →
        Completes .cmacGen s {} (cmac s.key s.inSample) .none ∧ (cmac s.key s.inSample).length = 16) ∧
      (s.keyctl.getLsbD 0 = false → Raises .cmacGen s .keyRequired .none)

/-- R266 with R267 to R269: SEC_UNWRAP's checks in order (length, type, key, tag), and the plaintext only after all of them. The
type 0x0950 and the cipher of R238, which never fails, are the OPEN defaults (log 6); SecUnwrapAtAnyOpenValues is for others. -/
def Obligations.SecUnwrapVerifiesThenDecrypts : Prop :=
  ∀ s : State,
    let b := s.inSample
    (HeaderBad b → Raises .secUnwrap s .headerLength .none) ∧
      (¬ HeaderBad b → wireHalf b 2 ≠ 0x0950 → Raises .secUnwrap s .unsupportedFrame .none) ∧
      (¬ HeaderBad b → wireHalf b 2 = 0x0950 →
        (s.keyctl.getLsbD 0 = false → Raises .secUnwrap s .keyRequired .wrapped) ∧
          (s.keyctl.getLsbD 0 = true → wrapperMac s.key b ≠ storedMac b → Raises .secUnwrap s .authentication .rejected) ∧
          (s.keyctl.getLsbD 0 = true → wrapperMac s.key b = storedMac b →
            Completes .secUnwrap s { r0 := headerRes0 b, r1 := headerRes1 b 1 0, r2 := headerRes2 b } (wrapperPlain s.key b)
              .authenticated))

/-- R270 with R271: SEC_TIMER_VERIFY's checks in order (length, type, key, tag over its own fields with length 0), and what it
gives. The type 0x0955 (R81) is the OPEN default (log 6). -/
def Obligations.SecTimerVerifyChecksTheTag : Prop :=
  ∀ s : State,
    let b := s.inSample
    (HeaderBad b → Raises .secTimerVerify s .headerLength .none) ∧
      (¬ HeaderBad b → wireHalf b 2 ≠ 0x0955 → Raises .secTimerVerify s .unsupportedFrame .none) ∧
      (¬ HeaderBad b → wireHalf b 2 = 0x0955 →
        (s.keyctl.getLsbD 0 = false → Raises .secTimerVerify s .keyRequired .wrapped) ∧
          (s.keyctl.getLsbD 0 = true → timerMac s.key b ≠ slice b 20 36 →
            Raises .secTimerVerify s .authentication .rejected) ∧
          (s.keyctl.getLsbD 0 = true → timerMac s.key b = slice b 20 36 →
            Completes .secTimerVerify s { r0 := headerRes0 b, r1 := headerRes1 b 2 0 } (slice b 6 20) .authenticated))

/-- R272: SEC_WRAP's checks in order, and the wrapper it writes: it carries the tag and the ciphertext SEC_UNWRAP asks for. The type
0x0950 (R81) and the keystream of R238 are the OPEN defaults (log 6). -/
def Obligations.SecWrapWritesTheWrapper : Prop :=
  ∀ s : State,
    let n := s.inSample.length
    (n < 16 → Raises .secWrap s .frameTruncated .none) ∧ (65513 < n → Raises .secWrap s .encodeLength .none) ∧
      (16 ≤ n → n ≤ 65513 → s.keyctl.getLsbD 0 = false → Raises .secWrap s .keyRequired .none) ∧
      (16 ≤ n → n ≤ 65513 → s.keyctl.getLsbD 0 = true →
        ∃ w : List Byte, Completes .secWrap s {} w .none ∧ w.length = n + 22 ∧
          w.take 6 = [0x06, s.arg0.extractLsb' 0 8, 0x09, 0x50] ++ be16 (BitVec.ofNat 16 (n + 22)) ∧
          slice w 6 22 = s.inSample.take 16 ∧
          slice w 22 (n + 6) =
            xorBytes (s.inSample.drop 16) (keystream s.key (slice s.inSample 2 16 ++ [0x01]) (n - 16)) ∧
          storedMac w = wrapperMac s.key w)

/-- R275: SEC_UNWRAP of what SEC_WRAP wrote, under the same key, gives the plaintext and AUTHENTICATED: at the OPEN defaults
(log 6), and at any OPEN values whose cipher keeps the contract of R238 and R272. -/
def Obligations.WrapThenUnwrap : Prop :=
  ∀ s : State, 16 ≤ s.inSample.length → s.inSample.length ≤ 65513 → s.keyctl.getLsbD 0 = true →
    (∃ w, Completes .secWrap s {} w .none ∧
        ∀ s' : State, s'.inSample = w → s'.key = s.key → s'.keyctl.getLsbD 0 = true →
          ∃ res, Completes .secUnwrap s' res (s.inSample.drop 16) .authenticated) ∧
      ∀ o : OpenParams, o.CipherContract →
        ∃ w, CompletesAt o .secWrap s {} w .none ∧
          ∀ s' : State, s'.inSample = w → s'.key = s.key → s'.keyctl.getLsbD 0 = true →
            ∃ res, CompletesAt o .secUnwrap s' res (s.inSample.drop 16) .authenticated

/-- R273: a wrapper that SEC_UNWRAP accepts, changed in its cmac field alone, always fails with AuthenticationError. -/
def Obligations.TamperedTagIsRejected : Prop :=
  ∀ (s s' : State) (res : Results) (out : List Byte), Completes .secUnwrap s res out .authenticated →
    s'.key = s.key → s'.keyctl.getLsbD 0 = true → s'.inSample.length = s.inSample.length →
    (∀ i, i < wireHalf s.inSample 4 - 16 ∨ wireHalf s.inSample 4 ≤ i → s'.inSample.getD i 0 = s.inSample.getD i 0) →
    (∃ i, wireHalf s.inSample 4 - 16 ≤ i ∧ i < wireHalf s.inSample 4 ∧ s'.inSample.getD i 0 ≠ s.inSample.getD i 0) →
    Raises .secUnwrap s' .authentication .rejected

/-- R263, R274: REJECTED and AuthenticationError come together and from no parse failure, and a rejected command shows nothing. -/
def Obligations.RejectedShowsNothing : Prop :=
  ∀ (i : Instr) (s t : State), exec i s = .next t →
    (t.secState = 3 ↔ t.errCode = 6) ∧
      (t.secState = 3 → (∀ k, t.res.get k = 0) ∧ t.outLen = 0 ∧ ∀ k, t.outBuf.read k = 0)

/-- R33, R262: only SEC_UNWRAP, SEC_TIMER_VERIFY and DECODE leave SEC_STATE other than NONE; WRAPPED comes with KeyRequiredError
alone, and a normal end is NONE or AUTHENTICATED. -/
def Obligations.SecStateIsWrittenBySecureCommands : Prop :=
  ∀ (i : Instr) (s t : State), exec i s = .next t →
    (i ∉ [Instr.secUnwrap, .secTimerVerify, .decode] → t.secState = 0) ∧ (t.secState = 1 → t.errCode = 7) ∧
      (t.errCode = 0 → t.secState = 0 ∨ t.secState = 2)

/-! ### Datapoints -/

/-- R294 with R292: DPT_DECODE of every byte pair, and its two errors in their order. -/
def Obligations.DptDecodeGivesTheValue : Prop :=
  ∀ s : State,
    (s.arg0 ≠ 0x00090001 → Raises .dptDecode s .unknownDatapoint .none) ∧
      (s.arg0 = 0x00090001 → s.inSample.length < 2 → Raises .dptDecode s .frameTruncated .none) ∧
      (s.arg0 = 0x00090001 → 2 ≤ s.inSample.length →
        let b0 := (s.inSample.getD 0 0).toNat
        let e := b0 / 8 % 16
        let m := wireHalf s.inSample 0 % 2048
        let v : Int := ((m : Int) - (if 128 ≤ b0 then 2048 else 0)) * 2 ^ e
        Completes .dptDecode s { r0 := BitVec.ofInt 32 v, r1 := BitVec.ofNat 32 (b0 / 128 + 2 * e + 32 * m) } [] .none)

/-- R295 with R293: DPT_ENCODE halves with floor until the value fits 11 bits and a sign, at the least exponent; its two errors
in their order. -/
def Obligations.DptEncodeGivesTheBytes : Prop :=
  ∀ s : State,
    let v := s.arg1.toInt
    (s.arg0 ≠ 0x00090001 → Raises .dptEncode s .unknownDatapoint .none) ∧
      (s.arg0 = 0x00090001 → (v < -27300 ∨ 67076000 < v) → Raises .dptEncode s .range .none) ∧
      (s.arg0 = 0x00090001 → -27300 ≤ v → v ≤ 67076000 →
        ∃ e : Nat, e ≤ 15 ∧ -2048 ≤ v / 2 ^ e ∧ v / 2 ^ e ≤ 2047 ∧
          (∀ e', e' < e → v / 2 ^ e' < -2048 ∨ 2047 < v / 2 ^ e') ∧
          let sign := if v < 0 then 1 else 0
          let m := (v / 2 ^ e % 2048).toNat
          Completes .dptEncode s { r1 := BitVec.ofNat 32 (sign + 2 * e + 32 * m) }
            [BitVec.ofNat 8 (128 * sign + 8 * e + m / 256), BitVec.ofNat 8 m] .none)

/-- R296: decoding what DPT_ENCODE wrote gives the value floored to a multiple of `2 ^ e`, exactly the value where it is one, which
every value from -2048 to 2047 is; outside the range there is nothing to decode. -/
def Obligations.DptRoundTrip : Prop :=
  ∀ s : State, s.arg0 = 0x00090001 →
    let v := s.arg1.toInt
    ((v < -27300 ∨ 67076000 < v) → Raises .dptEncode s .range .none) ∧
      (-27300 ≤ v → v ≤ 67076000 →
        ∃ (res : Results) (b : List Byte), Completes .dptEncode s res b .none ∧
          let e := (b.getD 0 0).toNat / 8 % 16
          let back := v / 2 ^ e * 2 ^ e
          (∀ s' : State, s'.arg0 = 0x00090001 → s'.inSample = b →
              ∃ w, Completes .dptDecode s' { r0 := BitVec.ofInt 32 back, r1 := w } [] .none) ∧
            v - 2 ^ e < back ∧ back ≤ v ∧ (back = v ↔ (2 ^ e : Int) ∣ v) ∧ (-2048 ≤ v → v ≤ 2047 → back = v))

/-- R297: a pair of bytes whose value is in range encodes back to itself exactly when it is a pair the encoder produces, and
`08 01` does not. -/
def Obligations.DptNormalForm : Prop :=
  (∀ b0 b1 : Byte,
      let v := (Dpt9.ofBytes b0 b1).value
      v ≤ 67076000 → -27300 ≤ v →
        ∃ d, dpt9Encode v = .ok d ∧
          (d.bytes = [b0, b1] ↔ ∃ (v' : Int) (d' : Dpt9), dpt9Encode v' = .ok d' ∧ d'.bytes = [b0, b1])) ∧
    ∃ d, dpt9Encode (Dpt9.ofBytes 0x08 0x01).value = .ok d ∧ d.bytes = [0x00, 0x02]

/-! ### Datagrams -/

/-- R310, R311, R313 to R316: the datagram each builder writes, for every form of the address. -/
def Obligations.BuildersWriteTheDatagram : Prop :=
  ∀ (form hint : BitVec 2) (imm : Half) (s : State) (v fam raw : Nat) (d : List Byte), hint ≠ 3 →
    ((form = 0 ∧ ParsesTo 0 hint s.arg0.toNat [] v fam raw ∧ d = s.inSample) ∨
        (form ≠ 0 ∧ imm.toNat ≤ s.inSample.length ∧ ParsesTo form hint 0 (s.inSample.take imm.toNat) v fam raw ∧
          d = s.inSample.drop imm.toNat)) →
    Completes (.buildStatus form hint imm) s { r0 := addressWord v fam raw } (builtDatagram s v fam 0 []) .none ∧
      (d.length ≤ 255 →
        Completes (.buildAction form hint imm) s { r0 := addressWord v fam raw } (builtDatagram s v fam 2 d) .none ∧
          Completes (.buildResponse form hint imm) s { r0 := addressWord v fam raw } (builtDatagram s v fam 1 d) .none) ∧
      (255 < d.length →
        Raises (.buildAction form hint imm) s .encodeLength .none ∧
          Raises (.buildResponse form hint imm) s .encodeLength .none)

/-- R316: the builders' errors before the encoding, in their order: the fields, the address length, the address. -/
def Obligations.BuildersCheckInOrder : Prop :=
  ∀ (form hint : BitVec 2) (imm : Half) (s : State) (i : Instr),
    i ∈ [Instr.buildAction form hint imm, .buildStatus form hint imm, .buildResponse form hint imm] →
    ((form = 3 ∨ hint = 3) → Raises i s .illegalCommand .none) ∧
      ((form = 1 ∨ form = 2) → hint ≠ 3 → s.inSample.length < imm.toNat → Raises i s .frameTruncated .none) ∧
      ((form = 1 ∨ form = 2) → hint ≠ 3 → imm.toNat ≤ s.inSample.length →
        (¬ ∃ v fam raw, ParsesTo form hint 0 (s.inSample.take imm.toNat) v fam raw) → Raises i s .addressFormat .none) ∧
      (form = 0 → hint ≠ 3 → 0xFFFF < s.arg0.toNat → Raises i s .addressFormat .none)

/-- R317, R318: DECODE of a datagram that fails the length checks, and of one with no secure tail and no session service: the CEMI
frame in its payload. The types 0x0950 to 0x0955 (R81) and the known types (R200) are the OPEN defaults (log 6). -/
def Obligations.DecodeOfAPlainDatagram : Prop :=
  ∀ s : State,
    let b := s.inSample
    let f := slice b 6 (wireHalf b 4)
    (HeaderBad b → Raises .decode s .headerLength .none) ∧
      (¬ HeaderBad b → (wireHalf b 2 < 0x0950 ∨ 0x0955 < wireHalf b 2) →
        (FrameBad f → Raises .decode s .frameTruncated .none) ∧
          ∀ data packed excess, FrameGives f data packed excess →
            Completes .decode s
              { r0 := headerRes0 b, r1 := headerRes1 b 0 0, r3 := cemiWord 0 f packed excess,
                r4 := cemiWord 1 f packed excess, r5 := cemiWord 2 f packed excess, r6 := cemiWord 3 f packed excess,
                r7 := cemiWord 4 f packed excess, r8 := cemiWord 5 f packed excess, r11 := displayRes s f }
              data .none)

/-- R317, R318: DECODE of a session service returns its payload unparsed; DECODE of a timer notify authenticates it. The session set
0x0951 to 0x0954, the type 0x0955 and the known types are the OPEN defaults (R6, R81, R200; log 6). -/
def Obligations.DecodeOfSessionAndTimer : Prop :=
  ∀ s : State,
    let b := s.inSample
    (¬ HeaderBad b → 0x0951 ≤ wireHalf b 2 → wireHalf b 2 ≤ 0x0954 →
        Completes .decode s { r0 := headerRes0 b, r1 := headerRes1 b 0 (3 * 1048576) } (slice b 6 (wireHalf b 4)) .none) ∧
      (¬ HeaderBad b → wireHalf b 2 = 0x0955 →
        (s.keyctl.getLsbD 0 = false → Raises .decode s .keyRequired .wrapped) ∧
          (s.keyctl.getLsbD 0 = true → timerMac s.key b ≠ slice b 20 36 → Raises .decode s .authentication .rejected) ∧
          (s.keyctl.getLsbD 0 = true → timerMac s.key b = slice b 20 36 →
            Completes .decode s { r0 := headerRes0 b, r1 := headerRes1 b 2 (524288 + 2 * 1048576) } (slice b 6 20)
              .authenticated))

/-- R317: DECODE of a wrapper: key, tag, then the plaintext as a plain datagram, whose own errors leave AUTHENTICATED and show
nothing. The cipher of R238, which never fails in R269, and the types (R81, R200) are the OPEN defaults (log 6). -/
def Obligations.DecodeOfAWrapper : Prop :=
  ∀ s : State,
    let b := s.inSample
    let p := wrapperPlain s.key b
    let f := slice p 6 (wireHalf p 4)
    ¬ HeaderBad b → wireHalf b 2 = 0x0950 →
      (s.keyctl.getLsbD 0 = false → Raises .decode s .keyRequired .wrapped) ∧
        (s.keyctl.getLsbD 0 = true → wrapperMac s.key b ≠ storedMac b → Raises .decode s .authentication .rejected) ∧
        (s.keyctl.getLsbD 0 = true → wrapperMac s.key b = storedMac b →
          (HeaderBad p → Raises .decode s .headerLength .authenticated) ∧
            (¬ HeaderBad p → 0x0950 ≤ wireHalf p 2 → wireHalf p 2 ≤ 0x0955 →
              Raises .decode s .unsupportedFrame .authenticated) ∧
            (¬ HeaderBad p → (wireHalf p 2 < 0x0950 ∨ 0x0955 < wireHalf p 2) → FrameBad f →
              Raises .decode s .frameTruncated .authenticated) ∧
            (¬ HeaderBad p → (wireHalf p 2 < 0x0950 ∨ 0x0955 < wireHalf p 2) →
              ∀ data packed excess, FrameGives f data packed excess →
                Completes .decode s
                  { r0 := headerRes0 b, r1 := headerRes1 b 1 (524288 + 1048576), r2 := headerRes2 b,
                    r3 := cemiWord 0 f packed excess, r4 := cemiWord 1 f packed excess, r5 := cemiWord 2 f packed excess,
                    r6 := cemiWord 3 f packed excess, r7 := cemiWord 4 f packed excess, r8 := cemiWord 5 f packed excess,
                    r9 := headerRes0 p, r10 := headerRes1 p 0 0, r11 := displayRes s f }
                  data .authenticated))

/-- R316, R317: DECODE of a datagram that a builder can write gives back the data, the source, the destination, whether it is a
group address, and the action code. -/
def Obligations.DecodeReadsBuiltDatagrams : Prop :=
  ∀ (s s' : State) (v fam code : Nat) (d : List Byte), v < 65536 → fam < 3 → code < 3 → d.length ≤ 255 →
    s'.inSample = builtDatagram s v fam code d →
    ∃ res : Results, Completes .decode s' res d .none ∧ res.r0 = 0x05301006 ∧
      res.r4 = BitVec.ofNat 32 (s.src.toNat % 65536 + 65536 * v) ∧ (res.r5.getLsbD 25 = true ↔ fam ≠ 0) ∧
      (res.r6.extractLsb' 0 4).toNat = code ∧ res.r8.extractLsb' 16 16 = 0

/-! ### Other OPEN values -/

/-- R6, R238, R266 to R269: SEC_UNWRAP in an engine with any request types and any cipher: the wrapper's type is the engine's, the
cipher runs after the tag alone and on the key, N_dec and the encrypted frame alone, and its failure is AuthenticationError. -/
def Obligations.SecUnwrapAtAnyOpenValues : Prop :=
  ∀ (o : OpenParams) (s : State),
    let b := s.inSample
    let rl := wireHalf b 4
    let r := o.secCipher s.key (slice b 8 22 ++ [0x01]) (slice b 22 (rl - 16))
    6 ≤ b.length → 6 ≤ rl → rl ≤ b.length →
      (wireHalf b 2 ≠ o.reqSecureWrapper.toNat → (wireHalf b 2 = o.reqSecureTimerNotify.toNat → 36 ≤ rl) →
          RaisesAt o .secUnwrap s .unsupportedFrame .none) ∧
        (wireHalf b 2 = o.reqSecureWrapper.toNat → rl < 38 → RaisesAt o .secUnwrap s .headerLength .none) ∧
        (wireHalf b 2 = o.reqSecureWrapper.toNat → 38 ≤ rl →
          (s.keyctl.getLsbD 0 = false → RaisesAt o .secUnwrap s .keyRequired .wrapped) ∧
            (s.keyctl.getLsbD 0 = true → wrapperMac s.key b ≠ storedMac b →
              RaisesAt o .secUnwrap s .authentication .rejected) ∧
            (s.keyctl.getLsbD 0 = true → wrapperMac s.key b = storedMac b →
              (r = none → RaisesAt o .secUnwrap s .authentication .rejected) ∧
                ∀ p, r = some p →
                  CompletesAt o .secUnwrap s
                    { r0 := headerRes0 b, r1 := BitVec.ofNat 32 (rl + 65536 + 262144), r2 := headerRes2 b } p
                    .authenticated))
end

