-- ==== Sys2Proof/Laws/Bytes.lean ====
section
/-! SUPPORT. The laws of the byte-string primitives: placed fields bit by bit, big-endian pairs, slices. -/

namespace Sys2Proof.Machine

@[simp] theorem placeAt_getLsbD {w n : Nat} (lo : Nat) (x : BitVec n) (i : Nat) :
    (placeAt lo x : BitVec w).getLsbD i = (decide (i < w) && !decide (i < lo) && x.getLsbD (i - lo)) := by
  simp only [placeAt, BitVec.getLsbD_shiftLeft, BitVec.getLsbD_setWidth]
  by_cases h : i < w <;> by_cases h' : i < lo <;> simp [h, h']
  intro; omega

@[simp] theorem placeAt_getElem {w n : Nat} (lo : Nat) (x : BitVec n) (i : Nat) (h : i < w) :
    (placeAt lo x : BitVec w)[i] = (!decide (i < lo) && x.getLsbD (i - lo)) := by
  rw [← BitVec.getLsbD_eq_getElem, placeAt_getLsbD]
  simp [h]

@[simp] theorem bit_getLsbD (b : Bool) (i : Nat) : (bit b).getLsbD i = (decide (i = 0) && b) := by
  simp [bit]

@[simp] theorem bit_getElem (b : Bool) (i : Nat) (h : i < 1) : (bit b)[i] = b := by
  simp [bit]

@[simp] theorem be16_length (v : Half) : (be16 v).length = 2 := by
  simp [be16]

/-- BE16 and its inverse (R7). -/
@[simp] theorem unBe16_be16 (v : Half) : unBe16 (be16 v) = v := by
  apply BitVec.eq_of_getLsbD_eq
  intro i hi
  interval_cases i <;> simp [unBe16, be16]

theorem be16_unBe16 (a b : Byte) : be16 (unBe16 [a, b]) = [a, b] := by
  simp only [be16, List.cons.injEq, and_true]
  constructor <;>
  · apply BitVec.eq_of_getLsbD_eq
    intro i hi
    interval_cases i <;> simp [unBe16]

@[simp] theorem slice_length (s : List Byte) (a b : Nat) : (slice s a b).length = min (b - a) (s.length - a) := by
  simp [slice]

/-- Cutting a middle piece out of a concatenation. -/
theorem slice_append_mid (p m q : List Byte) {a b : Nat} (ha : p.length = a) (hb : a + m.length = b) :
    slice (p ++ m ++ q) a b = m := by
  subst ha hb
  simp [slice, List.append_assoc]

/-- Two adjacent slices join. -/
theorem slice_append_slice (s : List Byte) {i j k : Nat} (h1 : i ≤ j) (h2 : j ≤ k) : slice s i j ++ slice s j k = slice s i k := by
  rw [slice, slice, slice, show k - i = (j - i) + (k - j) by omega, List.take_add, List.drop_drop, show i + (j - i) = j by omega]

theorem xorBytes_length (a b : List Byte) : (xorBytes a b).length = min a.length b.length := by
  simp [xorBytes]

/-- XOR with the same string twice is the identity (R240). -/
theorem xorBytes_xorBytes (a k : List Byte) (h : a.length ≤ k.length) : xorBytes (xorBytes a k) k = a := by
  induction a generalizing k with
  | nil => simp [xorBytes]
  | cons x xs ih =>
    cases k with
    | nil => simp at h
    | cons y ys =>
      have := ih ys (by simpa using h)
      simp only [xorBytes, List.zipWith_cons_cons] at *
      rw [this, BitVec.xor_assoc, BitVec.xor_self, BitVec.xor_zero]

/-! ### Placed fields as numbers -/

theorem ofNat_or_ofNat (w a b : Nat) : BitVec.ofNat w a ||| BitVec.ofNat w b = BitVec.ofNat w (a ||| b) := by
  apply BitVec.eq_of_toNat_eq
  simp [BitVec.toNat_or]

/-- A placed field as a number. -/
theorem placeAt_eq_ofNat {w n : Nat} (lo : Nat) (x : BitVec n) (h : lo + n ≤ w) :
    (placeAt lo x : BitVec w) = BitVec.ofNat w (x.toNat * 2 ^ lo) := by
  have hx : x.toNat < 2 ^ w := lt_of_lt_of_le x.isLt (Nat.pow_le_pow_right (by omega) (by omega))
  apply BitVec.eq_of_toNat_eq
  simp [placeAt, BitVec.toNat_shiftLeft, Nat.shiftLeft_eq]

/-- A field placed above all that is set adds its shifted value: a register word, lowest field first. -/
theorem ofNat_or_above {w n lo k : Nat} (x : BitVec n) (h : lo + n ≤ w) (hk : k < 2 ^ lo) :
    BitVec.ofNat w k ||| placeAt lo x = BitVec.ofNat w (k + x.toNat * 2 ^ lo) := by
  rw [placeAt_eq_ofNat lo x h, ofNat_or_ofNat, Nat.or_comm, ← Nat.shiftLeft_eq, ← Nat.shiftLeft_add_eq_or_of_lt hk, Nat.add_comm]

/-- A field placed below all that is set adds its shifted value: a wire field, highest field first. -/
theorem ofNat_or_below {w n lo k : Nat} (x : BitVec n) (h : lo + n ≤ w) (hk : k % 2 ^ (lo + n) = 0) :
    BitVec.ofNat w k ||| placeAt lo x = BitVec.ofNat w (k + x.toNat * 2 ^ lo) := by
  obtain ⟨q, rfl⟩ := Nat.dvd_of_mod_eq_zero hk
  have hx : x.toNat * 2 ^ lo < 2 ^ (lo + n) := by
    rw [Nat.add_comm, pow_add]; exact Nat.mul_lt_mul_of_pos_right x.isLt (by positivity)
  rw [placeAt_eq_ofNat lo x h, ofNat_or_ofNat, Nat.mul_comm, ← Nat.shiftLeft_eq, ← Nat.shiftLeft_add_eq_or_of_lt hx]

end Sys2Proof.Machine
end

