-- ==== Sys2Proof/Laws/Memory.lean ====
section
/-! SUPPORT. The laws of the buffers: what a read gives after a write or an output, and that every operation keeps the canonical
form. -/

namespace Sys2Proof.Machine

@[simp] theorem Memory.read_nil (a : Nat) : Memory.read [] a = 0 := rfl

@[simp] theorem Memory.wf_nil : Memory.wf [] = true := rfl

theorem Memory.wfFrom_cons (lo k : Nat) (v : Byte) (rest : Memory) :
    Memory.wfFrom lo ((k, v) :: rest) = true ↔ lo ≤ k ∧ k < 65535 ∧ v ≠ 0 ∧ Memory.wfFrom (k + 1) rest = true := by
  simp only [Memory.wfFrom, Bool.and_eq_true, decide_eq_true_eq, bne_iff_ne, ne_eq, and_assoc]

theorem Memory.wfFrom_mono {lo lo' : Nat} {m : Memory} (h : lo ≤ lo') (w : Memory.wfFrom lo' m = true) :
    Memory.wfFrom lo m = true := by
  cases m with
  | nil => rfl
  | cons c rest =>
    obtain ⟨k, v⟩ := c
    rw [Memory.wfFrom_cons] at *
    exact ⟨by omega, w.2⟩

/-- Below the first index it may hold, a canonical buffer reads 0. -/
theorem Memory.read_below {lo a : Nat} {m : Memory} (w : Memory.wfFrom lo m = true) (h : a < lo) : m.read a = 0 := by
  induction m generalizing lo with
  | nil => rfl
  | cons c rest ih =>
    obtain ⟨k, v⟩ := c
    rw [Memory.wfFrom_cons] at w
    have hk : k ≠ a := by omega
    simp only [Memory.read, if_neg hk]
    exact ih w.2.2.2 (by omega)

/-- Reading after a write: the byte written at its index, every other index as before. -/
theorem Memory.read_write {lo : Nat} {m : Memory} (w : Memory.wfFrom lo m = true) (a : Nat) (b : Byte) (x : Nat) :
    (m.write a b).read x = if x = a then b else m.read x := by
  induction m generalizing lo with
  | nil =>
    by_cases hb : b = 0#8 <;> by_cases hx : x = a
    · simp [Memory.write, hb]
    · simp [Memory.write, hb]
    · simp [Memory.write, Memory.read, hb, hx]
    · simp [Memory.write, Memory.read, hb, hx, Ne.symm hx]
  | cons c rest ih =>
    obtain ⟨k, v⟩ := c
    rw [Memory.wfFrom_cons] at w
    obtain ⟨-, -, -, wr⟩ := w
    have below : a ≤ k → Memory.read rest a = 0#8 := fun h => Memory.read_below wr (by omega)
    unfold Memory.write
    by_cases hlt : a < k
    · rw [if_pos hlt]
      by_cases hx : x = a
      · subst hx
        by_cases hb : b = 0#8
        · simp [hb, Memory.read, below (by omega), show k ≠ x by omega]
        · simp [hb, Memory.read]
      · by_cases hb : b = 0#8
        · simp [hb, hx]
        · simp [hb, Memory.read, hx, Ne.symm hx]
    · rw [if_neg hlt]
      by_cases heq : a = k
      · subst heq
        by_cases hx : x = a
        · subst hx
          by_cases hb : b = 0#8
          · simp [hb, below (by omega)]
          · simp [hb, Memory.read]
        · by_cases hb : b = 0#8 <;> simp [hb, Memory.read, hx, Ne.symm hx]
      · rw [if_neg heq]
        simp only [Memory.read]
        by_cases hx : k = x
        · rw [if_pos hx, if_pos hx, if_neg (by omega)]
        · rw [if_neg hx, if_neg hx]
          exact ih wr

/-- Two canonical buffers that read the same at every index are the same data. -/
theorem Memory.ext_of_wfFrom {lo : Nat} {m m' : Memory} (w : Memory.wfFrom lo m = true) (w' : Memory.wfFrom lo m' = true)
    (h : ∀ a, m.read a = m'.read a) : m = m' := by
  induction m generalizing lo m' with
  | nil =>
    cases m' with
    | nil => rfl
    | cons c r =>
      obtain ⟨k, v⟩ := c
      rw [Memory.wfFrom_cons] at w'
      have := h k
      simp [Memory.read] at this
      exact absurd this.symm w'.2.2.1
  | cons c r ih =>
    obtain ⟨k, v⟩ := c
    have w0 := w
    rw [Memory.wfFrom_cons] at w
    cases m' with
    | nil =>
      have := h k
      simp [Memory.read] at this
      exact absurd this w.2.2.1
    | cons c' r' =>
      obtain ⟨k', v'⟩ := c'
      have w0' := w'
      rw [Memory.wfFrom_cons] at w'
      have hk : k = k' := by
        by_contra hne
        rcases Nat.lt_or_gt_of_ne hne with hlt | hlt
        · have := h k
          have e2 : Memory.read ((k', v') :: r') k = 0 := Memory.read_below (lo := k') (by rw [Memory.wfFrom_cons]; exact ⟨le_refl _, w'.2.1, w'.2.2.1, w'.2.2.2⟩) hlt
          rw [e2] at this
          simp [Memory.read] at this
          exact absurd this w.2.2.1
        · have := h k'
          have e2 : Memory.read ((k, v) :: r) k' = 0 := Memory.read_below (lo := k) (by rw [Memory.wfFrom_cons]; exact ⟨le_refl _, w.2.1, w.2.2.1, w.2.2.2⟩) hlt
          rw [e2] at this
          simp [Memory.read] at this
          exact absurd this.symm w'.2.2.1
      subst hk
      have hv : v = v' := by have := h k; simpa [Memory.read] using this
      subst hv
      congr 1
      refine ih w.2.2.2 w'.2.2.2 (fun a => ?_)
      by_cases ha : k = a
      · subst ha
        rw [Memory.read_below w.2.2.2 (by omega), Memory.read_below w'.2.2.2 (by omega)]
      · have := h a
        simpa [Memory.read, ha] using this

/-- A write keeps the canonical form. -/
theorem Memory.write_wfFrom {lo : Nat} {m : Memory} (w : Memory.wfFrom lo m = true) {a : Nat} (hlo : lo ≤ a) (ha : a < 65535)
    (b : Byte) : Memory.wfFrom lo (m.write a b) = true := by
  induction m generalizing lo with
  | nil =>
    by_cases hb : b = 0
    · simp [Memory.write, hb, Memory.wfFrom]
    · simp only [Memory.write, if_neg hb]
      rw [Memory.wfFrom_cons]
      exact ⟨hlo, ha, hb, rfl⟩
  | cons c rest ih =>
    obtain ⟨k, v⟩ := c
    have w0 := w
    rw [Memory.wfFrom_cons] at w
    obtain ⟨h1, h2, h3, wr⟩ := w
    unfold Memory.write
    split
    · by_cases hb : b = 0
      · simpa [hb] using w0
      · simp only [if_neg hb]
        rw [Memory.wfFrom_cons, Memory.wfFrom_cons]
        exact ⟨hlo, ha, hb, by omega, h2, h3, wr⟩
    · split
      · by_cases hb : b = 0
        · simp only [hb, if_true]
          exact Memory.wfFrom_mono (by omega) wr
        · simp only [if_neg hb]
          rw [Memory.wfFrom_cons]
          subst_vars
          exact ⟨hlo, ha, hb, wr⟩
      · rw [Memory.wfFrom_cons]
        exact ⟨h1, h2, h3, ih wr (by omega)⟩

theorem Memory.write_wf {m : Memory} (w : m.wf = true) {a : Nat} (ha : a < 65535) (b : Byte) : (m.write a b).wf = true :=
  Memory.write_wfFrom w (Nat.zero_le a) ha b

theorem Memory.read_write_same {m : Memory} (w : m.wf = true) (a : Nat) (b : Byte) : (m.write a b).read a = b := by
  rw [Memory.read_write w, if_pos rfl]

theorem Memory.read_write_other {m : Memory} (w : m.wf = true) {a x : Nat} (h : x ≠ a) (b : Byte) :
    (m.write a b).read x = m.read x := by
  rw [Memory.read_write w, if_neg h]

theorem Memory.ofBytesFrom_wfFrom (l : List Byte) (i : Nat) (h : i + l.length ≤ 65535) :
    Memory.wfFrom i (Memory.ofBytesFrom i l) = true := by
  induction l generalizing i with
  | nil => rfl
  | cons b rest ih =>
    simp only [List.length_cons] at h
    have hr := ih (i + 1) (by omega)
    unfold Memory.ofBytesFrom
    split
    · exact Memory.wfFrom_mono (by omega) hr
    · rw [Memory.wfFrom_cons]
      exact ⟨le_refl i, by omega, ‹_›, hr⟩

/-- An output that fits the buffer leaves it canonical. -/
theorem Memory.ofBytes_wf (l : List Byte) (h : l.length ≤ 65535) : (Memory.ofBytes l).wf = true :=
  Memory.ofBytesFrom_wfFrom l 0 (by omega)

theorem Memory.read_ofBytesFrom (l : List Byte) (i x : Nat) :
    (Memory.ofBytesFrom i l).read x = if x < i then 0 else l.getD (x - i) 0 := by
  induction l generalizing i with
  | nil => simp [Memory.ofBytesFrom]
  | cons b rest ih =>
    unfold Memory.ofBytesFrom
    by_cases hx : x = i
    · subst hx
      split
      · rename_i hb
        simp [ih, hb]
      · simp [Memory.read]
    · have key : Memory.read (Memory.ofBytesFrom (i + 1) rest) x = if x < i then 0 else (b :: rest).getD (x - i) 0 := by
        rw [ih]
        by_cases hlt : x < i
        · simp [hlt, Nat.lt_succ_of_lt hlt]
        · have h1 : ¬ x < i + 1 := by omega
          obtain ⟨d, hd⟩ : ∃ d, x - i = d + 1 := ⟨x - i - 1, by omega⟩
          have h2 : x - (i + 1) = d := by omega
          simp [hlt, h1, hd, h2]
      split
      · exact key
      · rw [Memory.read, if_neg (fun h => hx h.symm)]
        exact key

/-- What an output leaves in the buffer: its bytes from index 0, and 0 in every other place. -/
@[simp] theorem Memory.read_ofBytes (l : List Byte) (x : Nat) : (Memory.ofBytes l).read x = l.getD x 0 := by
  simp [Memory.ofBytes, Memory.read_ofBytesFrom]

@[simp] theorem Memory.bytes_length (m : Memory) (n : Nat) : (m.bytes n).length = n := by
  simp [Memory.bytes]

theorem Memory.bytes_getD (m : Memory) (n i : Nat) (h : i < n) : (m.bytes n).getD i 0 = m.read i := by
  simp [Memory.bytes, List.getD_eq_getElem?_getD, h]

/-- A byte string written out is read back whole. -/
theorem Memory.bytes_ofBytes (l : List Byte) : (Memory.ofBytes l).bytes l.length = l := by
  apply List.ext_getElem
  · simp
  · intro i h1 h2
    simp [Memory.bytes, List.getD_eq_getElem?_getD, h2]

end Sys2Proof.Machine
end

