-- ==== Sys2Proof/Laws/State.lean ====
section
/-! SUPPORT. One lemma per field per update of the state: every one is true by rfl, so that no proof unfolds a record update. -/

namespace Sys2Proof.Machine

/-! ### commandStart -/

@[simp] theorem State.commandStart_cmd (s : State) (v : Word) : (s.commandStart v).cmd = v := rfl
@[simp] theorem State.commandStart_status (s : State) (v : Word) : (s.commandStart v).status = statusWord true false 0 .none := rfl
@[simp] theorem State.commandStart_opt (s : State) (v : Word) : (s.commandStart v).opt = s.opt := rfl
@[simp] theorem State.commandStart_src (s : State) (v : Word) : (s.commandStart v).src = s.src := rfl
@[simp] theorem State.commandStart_inLen (s : State) (v : Word) : (s.commandStart v).inLen = s.inLen := rfl
@[simp] theorem State.commandStart_outLen (s : State) (v : Word) : (s.commandStart v).outLen = 0 := rfl
@[simp] theorem State.commandStart_arg0 (s : State) (v : Word) : (s.commandStart v).arg0 = s.arg0 := rfl
@[simp] theorem State.commandStart_arg1 (s : State) (v : Word) : (s.commandStart v).arg1 = s.arg1 := rfl
@[simp] theorem State.commandStart_arg2 (s : State) (v : Word) : (s.commandStart v).arg2 = s.arg2 := rfl
@[simp] theorem State.commandStart_arg3 (s : State) (v : Word) : (s.commandStart v).arg3 = s.arg3 := rfl
@[simp] theorem State.commandStart_key0 (s : State) (v : Word) : (s.commandStart v).key0 = s.key0 := rfl
@[simp] theorem State.commandStart_key1 (s : State) (v : Word) : (s.commandStart v).key1 = s.key1 := rfl
@[simp] theorem State.commandStart_key2 (s : State) (v : Word) : (s.commandStart v).key2 = s.key2 := rfl
@[simp] theorem State.commandStart_key3 (s : State) (v : Word) : (s.commandStart v).key3 = s.key3 := rfl
@[simp] theorem State.commandStart_keyctl (s : State) (v : Word) : (s.commandStart v).keyctl = s.keyctl := rfl
@[simp] theorem State.commandStart_res (s : State) (v : Word) : (s.commandStart v).res = {} := rfl
@[simp] theorem State.commandStart_inBuf (s : State) (v : Word) : (s.commandStart v).inBuf = s.inBuf := rfl
@[simp] theorem State.commandStart_outBuf (s : State) (v : Word) : (s.commandStart v).outBuf = [] := rfl
@[simp] theorem State.commandStart_inSample (s : State) (v : Word) : (s.commandStart v).inSample = s.inputBytes := rfl
@[simp] theorem State.commandStart_env (s : State) (v : Word) : (s.commandStart v).env = s.env := rfl
@[simp] theorem State.commandStart_busData (s : State) (v : Word) : (s.commandStart v).busData = s.busData := rfl

/-! ### normalEnd -/

@[simp] theorem State.normalEnd_cmd (s : State) (d : Done) : (s.normalEnd d).cmd = s.cmd := rfl
@[simp] theorem State.normalEnd_status (s : State) (d : Done) : (s.normalEnd d).status = statusWord false true 0 d.sec := rfl
@[simp] theorem State.normalEnd_opt (s : State) (d : Done) : (s.normalEnd d).opt = s.opt := rfl
@[simp] theorem State.normalEnd_src (s : State) (d : Done) : (s.normalEnd d).src = s.src := rfl
@[simp] theorem State.normalEnd_inLen (s : State) (d : Done) : (s.normalEnd d).inLen = s.inLen := rfl
@[simp] theorem State.normalEnd_outLen (s : State) (d : Done) : (s.normalEnd d).outLen = BitVec.ofNat 32 d.out.length := rfl
@[simp] theorem State.normalEnd_arg0 (s : State) (d : Done) : (s.normalEnd d).arg0 = s.arg0 := rfl
@[simp] theorem State.normalEnd_arg1 (s : State) (d : Done) : (s.normalEnd d).arg1 = s.arg1 := rfl
@[simp] theorem State.normalEnd_arg2 (s : State) (d : Done) : (s.normalEnd d).arg2 = s.arg2 := rfl
@[simp] theorem State.normalEnd_arg3 (s : State) (d : Done) : (s.normalEnd d).arg3 = s.arg3 := rfl
@[simp] theorem State.normalEnd_key0 (s : State) (d : Done) : (s.normalEnd d).key0 = 0 := rfl
@[simp] theorem State.normalEnd_key1 (s : State) (d : Done) : (s.normalEnd d).key1 = 0 := rfl
@[simp] theorem State.normalEnd_key2 (s : State) (d : Done) : (s.normalEnd d).key2 = 0 := rfl
@[simp] theorem State.normalEnd_key3 (s : State) (d : Done) : (s.normalEnd d).key3 = 0 := rfl
@[simp] theorem State.normalEnd_keyctl (s : State) (d : Done) : (s.normalEnd d).keyctl = 0 := rfl
@[simp] theorem State.normalEnd_res (s : State) (d : Done) : (s.normalEnd d).res = d.res := rfl
@[simp] theorem State.normalEnd_inBuf (s : State) (d : Done) : (s.normalEnd d).inBuf = s.inBuf := rfl
@[simp] theorem State.normalEnd_outBuf (s : State) (d : Done) : (s.normalEnd d).outBuf = Memory.ofBytes d.out := rfl
@[simp] theorem State.normalEnd_inSample (s : State) (d : Done) : (s.normalEnd d).inSample = [] := rfl
@[simp] theorem State.normalEnd_env (s : State) (d : Done) : (s.normalEnd d).env = s.env := rfl
@[simp] theorem State.normalEnd_busData (s : State) (d : Done) : (s.normalEnd d).busData = s.busData := rfl

/-! ### errorEnd -/

@[simp] theorem State.errorEnd_cmd (s : State) (e : Raised) : (s.errorEnd e).cmd = s.cmd := rfl
@[simp] theorem State.errorEnd_status (s : State) (e : Raised) : (s.errorEnd e).status = statusWord false true e.err.code e.sec := rfl
@[simp] theorem State.errorEnd_opt (s : State) (e : Raised) : (s.errorEnd e).opt = s.opt := rfl
@[simp] theorem State.errorEnd_src (s : State) (e : Raised) : (s.errorEnd e).src = s.src := rfl
@[simp] theorem State.errorEnd_inLen (s : State) (e : Raised) : (s.errorEnd e).inLen = s.inLen := rfl
@[simp] theorem State.errorEnd_outLen (s : State) (e : Raised) : (s.errorEnd e).outLen = 0 := rfl
@[simp] theorem State.errorEnd_arg0 (s : State) (e : Raised) : (s.errorEnd e).arg0 = s.arg0 := rfl
@[simp] theorem State.errorEnd_arg1 (s : State) (e : Raised) : (s.errorEnd e).arg1 = s.arg1 := rfl
@[simp] theorem State.errorEnd_arg2 (s : State) (e : Raised) : (s.errorEnd e).arg2 = s.arg2 := rfl
@[simp] theorem State.errorEnd_arg3 (s : State) (e : Raised) : (s.errorEnd e).arg3 = s.arg3 := rfl
@[simp] theorem State.errorEnd_key0 (s : State) (e : Raised) : (s.errorEnd e).key0 = 0 := rfl
@[simp] theorem State.errorEnd_key1 (s : State) (e : Raised) : (s.errorEnd e).key1 = 0 := rfl
@[simp] theorem State.errorEnd_key2 (s : State) (e : Raised) : (s.errorEnd e).key2 = 0 := rfl
@[simp] theorem State.errorEnd_key3 (s : State) (e : Raised) : (s.errorEnd e).key3 = 0 := rfl
@[simp] theorem State.errorEnd_keyctl (s : State) (e : Raised) : (s.errorEnd e).keyctl = 0 := rfl
@[simp] theorem State.errorEnd_res (s : State) (e : Raised) : (s.errorEnd e).res = {} := rfl
@[simp] theorem State.errorEnd_inBuf (s : State) (e : Raised) : (s.errorEnd e).inBuf = s.inBuf := rfl
@[simp] theorem State.errorEnd_outBuf (s : State) (e : Raised) : (s.errorEnd e).outBuf = [] := rfl
@[simp] theorem State.errorEnd_inSample (s : State) (e : Raised) : (s.errorEnd e).inSample = [] := rfl
@[simp] theorem State.errorEnd_env (s : State) (e : Raised) : (s.errorEnd e).env = s.env := rfl
@[simp] theorem State.errorEnd_busData (s : State) (e : Raised) : (s.errorEnd e).busData = s.busData := rfl

/-! ### platformReset -/

@[simp] theorem State.platformReset_cmd (s : State) : (s.platformReset).cmd = 0 := rfl
@[simp] theorem State.platformReset_status (s : State) : (s.platformReset).status = 0 := rfl
@[simp] theorem State.platformReset_opt (s : State) : (s.platformReset).opt = 0x0000296F := rfl
@[simp] theorem State.platformReset_src (s : State) : (s.platformReset).src = 0x00000001 := rfl
@[simp] theorem State.platformReset_inLen (s : State) : (s.platformReset).inLen = 0 := rfl
@[simp] theorem State.platformReset_outLen (s : State) : (s.platformReset).outLen = 0 := rfl
@[simp] theorem State.platformReset_arg0 (s : State) : (s.platformReset).arg0 = 0 := rfl
@[simp] theorem State.platformReset_arg1 (s : State) : (s.platformReset).arg1 = 0 := rfl
@[simp] theorem State.platformReset_arg2 (s : State) : (s.platformReset).arg2 = 0 := rfl
@[simp] theorem State.platformReset_arg3 (s : State) : (s.platformReset).arg3 = 0 := rfl
@[simp] theorem State.platformReset_key0 (s : State) : (s.platformReset).key0 = 0 := rfl
@[simp] theorem State.platformReset_key1 (s : State) : (s.platformReset).key1 = 0 := rfl
@[simp] theorem State.platformReset_key2 (s : State) : (s.platformReset).key2 = 0 := rfl
@[simp] theorem State.platformReset_key3 (s : State) : (s.platformReset).key3 = 0 := rfl
@[simp] theorem State.platformReset_keyctl (s : State) : (s.platformReset).keyctl = 0 := rfl
@[simp] theorem State.platformReset_res (s : State) : (s.platformReset).res = {} := rfl
@[simp] theorem State.platformReset_inBuf (s : State) : (s.platformReset).inBuf = [] := rfl
@[simp] theorem State.platformReset_outBuf (s : State) : (s.platformReset).outBuf = [] := rfl
@[simp] theorem State.platformReset_inSample (s : State) : (s.platformReset).inSample = [] := rfl
@[simp] theorem State.platformReset_env (s : State) : (s.platformReset).env = s.env := rfl
@[simp] theorem State.platformReset_busData (s : State) : (s.platformReset).busData = s.busData := rfl

end Sys2Proof.Machine
end

