-- ==== Sys2Proof/Laws/Ops.lean ====
section
/-! SUPPORT. What the shared operations do, said once: the fields of STATUS, the two ends of a command, a command's start, and the
host's accesses. -/

namespace Sys2Proof.Machine

/-! ### STATUS -/

theorem statusWord_busy (b d : Bool) (c : Byte) (s : SecState) : (statusWord b d c s).getLsbD 0 = b := by
  simp [statusWord]

theorem statusWord_done (b d : Bool) (c : Byte) (s : SecState) : (statusWord b d c s).getLsbD 1 = d := by
  simp [statusWord]

theorem statusWord_err (b d : Bool) (c : Byte) (s : SecState) : (statusWord b d c s).getLsbD 2 = (c != 0) := by
  simp [statusWord]

theorem statusWord_errCode (b d : Bool) (c : Byte) (s : SecState) : (statusWord b d c s).extractLsb' 8 8 = c := by
  apply BitVec.eq_of_getLsbD_eq
  intro i hi
  interval_cases i <;> simp [statusWord]

theorem statusWord_sec (b d : Bool) (c : Byte) (s : SecState) : (statusWord b d c s).extractLsb' 16 2 = s.code := by
  apply BitVec.eq_of_getLsbD_eq
  intro i hi
  interval_cases i <;> simp [statusWord]

@[simp] theorem State.commandStart_busy (s : State) (v : Word) : (s.commandStart v).busy = true :=
  statusWord_busy _ _ _ _

@[simp] theorem State.normalEnd_busy (s : State) (d : Done) : (s.normalEnd d).busy = false :=
  statusWord_busy _ _ _ _

@[simp] theorem State.errorEnd_busy (s : State) (e : Raised) : (s.errorEnd e).busy = false :=
  statusWord_busy _ _ _ _

/-! ### The ends of a command -/

@[simp] theorem State.finish_ok (s : State) (d : Done) : s.finish (.ok d) = s.normalEnd d := rfl

@[simp] theorem State.finish_error (s : State) (e : Raised) : s.finish (.error e) = s.errorEnd e := rfl

@[simp] theorem State.finish_illegal (s : State) : s.finish illegal = s.errorEnd ⟨.illegalCommand, .none⟩ := rfl

/-- Everything a normal end does (R402). -/
theorem State.normalEnd_endedNormally (s : State) (d : Done) : EndedNormally s (s.normalEnd d) d.res d.out d.sec where
  status := rfl
  res := rfl
  outLen := rfl
  outBytes i := by simp
  cleared := ⟨rfl, rfl, rfl, rfl, rfl, rfl⟩
  frame := ⟨rfl, rfl, rfl, rfl, rfl, rfl, rfl, rfl, rfl, fun _ => rfl, rfl, rfl⟩

/-- Everything an error end does (R403). -/
theorem State.errorEnd_endedWithError (s : State) (e : Raised) : EndedWithError s (s.errorEnd e) e.err e.sec where
  status := rfl
  res := rfl
  outLen := rfl
  outBytes _ := rfl
  cleared := ⟨rfl, rfl, rfl, rfl, rfl, rfl⟩
  frame := ⟨rfl, rfl, rfl, rfl, rfl, rfl, rfl, rfl, rfl, fun _ => rfl, rfl, rfl⟩

/-- A command whose rule completes ends normally with what the rule came to. -/
theorem completes_of_ok {i : Instr} {s : State} {d : Done} (h : exec i s = .next (s.finish (.ok d))) :
    Completes i s d.res d.out d.sec :=
  ⟨_, h, s.normalEnd_endedNormally d⟩

/-- A command whose rule raises an error ends with it. -/
theorem raises_of_error {i : Instr} {s : State} {e : Raised} (h : exec i s = .next (s.finish (.error e))) :
    Raises i s e.err e.sec :=
  ⟨_, h, s.errorEnd_endedWithError e⟩

/-- What a command's rule came to (the codec of its family, at the parameters of R6). -/
def ruleOf (i : Instr) (s : State) : Except Raised Done :=
  match i with
  | .addrParse form hint => addrParse form hint s
  | .addrRender fmt => addrRender fmt s
  | .tblResolve dir table => tblResolve Config.params dir table s
  | .apciPack => apciPack s
  | .apciUnpack => apciUnpack s
  | .cemiEncode => cemiEncode Config.params s
  | .cemiDecode => cemiDecode s
  | .hdrEncode => hdrEncode Config.params s
  | .hdrDecode => hdrDecode Config.params s
  | .secNonce kind => secNonce kind s
  | .cmacGen => cmacGen s
  | .secUnwrap => secUnwrap Config.params s
  | .secTimerVerify => secTimerVerify Config.params s
  | .secWrap => secWrap Config.params s
  | .dptDecode => dptDecode Config.params s
  | .dptEncode => dptEncode Config.params s
  | .buildAction form hint imm => build Config.params 2 true form hint imm s
  | .buildStatus form hint imm => build Config.params 0 false form hint imm s
  | .buildResponse form hint imm => build Config.params 1 true form hint imm s
  | .decode => decodeDatagram Config.params s

/-- Running a command is ending it with what its rule came to: the one inversion of exec. -/
theorem exec_eq (i : Instr) (s : State) : exec i s = .next (s.finish (ruleOf i s)) := by
  cases i <;> rfl

/-- A command whose rule completes ends normally, with what the rule came to. -/
theorem completes_of_rule {i : Instr} {s : State} {d : Done} {res : Results} {out : List Byte} {sec : SecState}
    (h : ruleOf i s = .ok d) (hr : d.res = res) (ho : d.out = out) (hs : d.sec = sec) : Completes i s res out sec := by
  subst hr ho hs
  exact completes_of_ok (by rw [exec_eq, h])

/-- A command whose rule raises an error ends with it. -/
theorem raises_of_rule {i : Instr} {s : State} {e : ErrCode} {sec : SecState} (h : ruleOf i s = .error ⟨e, sec⟩) :
    Raises i s e sec :=
  raises_of_error (by rw [exec_eq, h])

/-- Every end of a command leaves its inputs alone and clears the key, normal or not (R402, R403). -/
theorem State.finish_frame (s : State) (r : Except Raised Done) : SameInputs s (s.finish r) ∧ Cleared (s.finish r) := by
  cases r with
  | ok d => exact ⟨(s.normalEnd_endedNormally d).frame, (s.normalEnd_endedNormally d).cleared⟩
  | error e => exact ⟨(s.errorEnd_endedWithError e).frame, (s.errorEnd_endedWithError e).cleared⟩

/-! ### A command's start and the host's accesses -/

@[simp] theorem State.inputBytes_length (s : State) : s.inputBytes.length = (s.inLen.extractLsb' 0 16).toNat :=
  Memory.bytes_length _ _

theorem State.inputBytes_length_lt (s : State) : s.inputBytes.length < 65536 := by
  rw [State.inputBytes_length]
  exact BitVec.isLt _

/-- While a command is pending a host write does nothing (R452). -/
theorem State.hostWrite_of_busy {s : State} (h : s.busy = true) (addr : BitVec 18) (bits : Nat) (v : Word) :
    s.hostWrite addr bits v = s := by
  simp [State.hostWrite, h]

/-- What a host write can do (R62 to R65, R452): nothing, start a command, write one register, or write one byte of IN_BUF. -/
theorem State.hostWrite_cases (s : State) (addr : BitVec 18) (bits : Nat) (v : Word) :
    s.hostWrite addr bits v = s ∨
      (s.busy = false ∧
        ((∃ off, locate addr bits = .register off ∧ s.hostWrite addr bits v = s.writeReg off v) ∨
          ∃ i, locate addr bits = .inBuf i ∧
            s.hostWrite addr bits v = { s with inBuf := s.inBuf.write i (v.extractLsb' 0 8) })) := by
  unfold State.hostWrite
  cases hb : s.busy with
  | true => exact .inl (by simp)
  | false =>
    cases hl : locate addr bits with
    | register off => exact .inr ⟨rfl, .inl ⟨off, rfl, by simp⟩⟩
    | inBuf i => exact .inr ⟨rfl, .inr ⟨i, rfl, by simp⟩⟩
    | outBuf i => exact .inl (by simp)
    | none => exact .inl (by simp)

/-- An address that names a byte of IN_BUF names one of its 65535 bytes. -/
theorem locate_inBuf {addr : BitVec 18} {bits i : Nat} (h : locate addr bits = .inBuf i) :
    bits = 8 ∧ i < 65535 ∧ addr.toNat = 0x10000 + i := by
  unfold locate at h
  simp only at h
  split_ifs at h with h1 h2 h3 h4 h5
  have := Location.inBuf.inj h
  omega

/-- An address that names a register is an aligned offset of the window, accessed 32 bits wide (R63). -/
theorem locate_register {addr : BitVec 18} {bits off : Nat} (h : locate addr bits = .register off) :
    bits = 32 ∧ off < 0x100 ∧ off % 4 = 0 ∧ addr.toNat = off := by
  unfold locate at h
  simp only at h
  split_ifs at h with h1 h2 h3 h4 h5
  have := Location.register.inj h
  omega

end Sys2Proof.Machine
end

