-- ==== Sys2Proof/Laws/Address.lean ====
section
/-! SUPPORT. The laws of the address codec: cutting at separators, decimal fields, and everything ParseAddress can answer. -/

namespace Sys2Proof.Machine

/-- Cutting gives at least one part. -/
theorem splitAtSep_ne_nil (sep : Byte) (s : List Byte) : splitAtSep sep s ≠ [] := by
  cases s with
  | nil => simp [splitAtSep]
  | cons c cs =>
    unfold splitAtSep
    split
    · simp
    · split <;> simp

/-- A string without the separator is one part. -/
theorem splitAtSep_of_not_mem {sep : Byte} {s : List Byte} (h : sep ∉ s) : splitAtSep sep s = [s] := by
  induction s with
  | nil => rfl
  | cons c cs ih =>
    rw [List.mem_cons, not_or] at h
    rw [splitAtSep, if_neg (fun e => h.1 e.symm), ih h.2]

/-- The part before the first separator is cut off. -/
theorem splitAtSep_append {sep : Byte} {a : List Byte} (h : sep ∉ a) (rest : List Byte) :
    splitAtSep sep (a ++ sep :: rest) = a :: splitAtSep sep rest := by
  induction a with
  | nil => simp [splitAtSep]
  | cons c cs ih =>
    rw [List.mem_cons, not_or] at h
    rw [List.cons_append, splitAtSep, if_neg (fun e => h.1 e.symm), ih h.2]

/-- Joining the parts again gives the string back. -/
theorem splitAtSep_join (sep : Byte) (s : List Byte) :
    ∃ p ps, splitAtSep sep s = p :: ps ∧ s = p ++ ps.flatMap (fun q => sep :: q) := by
  induction s with
  | nil => exact ⟨[], [], rfl, rfl⟩
  | cons c cs ih =>
    obtain ⟨p, ps, h1, h2⟩ := ih
    by_cases hc : c = sep
    · exact ⟨[], p :: ps, by rw [splitAtSep, if_pos hc, h1], by simp [hc, ← h2]⟩
    · exact ⟨c :: p, ps, by rw [splitAtSep, if_neg hc, h1], by rw [List.cons_append, ← h2]⟩

theorem splitAtSep_two {sep : Byte} {s a b : List Byte} (h : splitAtSep sep s = [a, b]) : s = a ++ sep :: b := by
  obtain ⟨p, ps, h1, h2⟩ := splitAtSep_join sep s
  rw [h] at h1
  obtain ⟨rfl, rfl⟩ := List.cons.inj h1
  simpa using h2

theorem splitAtSep_three {sep : Byte} {s a b c : List Byte} (h : splitAtSep sep s = [a, b, c]) :
    s = a ++ sep :: b ++ sep :: c := by
  obtain ⟨p, ps, h1, h2⟩ := splitAtSep_join sep s
  rw [h] at h1
  obtain ⟨rfl, rfl⟩ := List.cons.inj h1
  simpa using h2

/-- A decimal field holds neither separator. -/
theorem slash_not_mem_of_isDec {s : List Byte} (h : isDec s = true) : slash ∉ s := by
  intro hm
  simp only [isDec, Bool.and_eq_true, List.all_eq_true] at h
  exact absurd (h.2 _ hm) (by decide)

theorem dot_not_mem_of_isDec {s : List Byte} (h : isDec s = true) : dot ∉ s := by
  intro hm
  simp only [isDec, Bool.and_eq_true, List.all_eq_true] at h
  exact absurd (h.2 _ hm) (by decide)

/-- The first pattern of R111. -/
theorem matchFriendly_group3 {a b c : List Byte} (ha : isDec a = true) (hb : isDec b = true) (hc : isDec c = true) :
    matchFriendly (a ++ slash :: b ++ slash :: c) = some (.group3 (decValue a) (decValue b) (decValue c)) := by
  have h : splitAtSep slash (a ++ slash :: b ++ slash :: c) = [a, b, c] := by
    rw [List.append_assoc, List.cons_append, splitAtSep_append (slash_not_mem_of_isDec ha),
      splitAtSep_append (slash_not_mem_of_isDec hb), splitAtSep_of_not_mem (slash_not_mem_of_isDec hc)]
  simp only [matchFriendly, h, ha, hb, hc, Bool.and_self, if_true]

/-- The second pattern of R111. -/
theorem matchFriendly_group2 {a b : List Byte} (ha : isDec a = true) (hb : isDec b = true) :
    matchFriendly (a ++ slash :: b) = some (.group2 (decValue a) (decValue b)) := by
  have h : splitAtSep slash (a ++ slash :: b) = [a, b] := by
    rw [splitAtSep_append (slash_not_mem_of_isDec ha), splitAtSep_of_not_mem (slash_not_mem_of_isDec hb)]
  simp only [matchFriendly, h, ha, hb, Bool.and_self, if_true]

/-- The third pattern of R111. -/
theorem matchFriendly_individual {a b c : List Byte} (ha : isDec a = true) (hb : isDec b = true) (hc : isDec c = true) :
    matchFriendly (a ++ dot :: b ++ dot :: c) = some (.individual (decValue a) (decValue b) (decValue c)) := by
  have hne : slash ≠ dot := by decide
  have h0 : splitAtSep slash (a ++ dot :: b ++ dot :: c) = [a ++ dot :: b ++ dot :: c] := by
    apply splitAtSep_of_not_mem
    simp only [List.mem_append, List.mem_cons, not_or]
    exact ⟨⟨slash_not_mem_of_isDec ha, hne, slash_not_mem_of_isDec hb⟩, hne, slash_not_mem_of_isDec hc⟩
  have h : splitAtSep dot (a ++ dot :: b ++ dot :: c) = [a, b, c] := by
    rw [List.append_assoc, List.cons_append, splitAtSep_append (dot_not_mem_of_isDec ha),
      splitAtSep_append (dot_not_mem_of_isDec hb), splitAtSep_of_not_mem (dot_not_mem_of_isDec hc)]
  simp only [matchFriendly, h0, h, ha, hb, hc, Bool.and_self, if_true]

/-- A string that matched is of one of the three patterns, with decimal fields (R111). -/
theorem matchFriendly_cases {s : List Byte} {f : Friendly} (h : matchFriendly s = some f) :
    ∃ a b, isDec a = true ∧ isDec b = true ∧
      ((s = a ++ slash :: b ∧ f = .group2 (decValue a) (decValue b)) ∨
        ∃ c, isDec c = true ∧
          ((s = a ++ slash :: b ++ slash :: c ∧ f = .group3 (decValue a) (decValue b) (decValue c)) ∨
            (s = a ++ dot :: b ++ dot :: c ∧ f = .individual (decValue a) (decValue b) (decValue c)))) := by
  unfold matchFriendly at h
  split at h
  · rename_i a b c hs
    split at h
    · rename_i hd
      simp only [Bool.and_eq_true] at hd
      exact ⟨a, b, hd.1.1, hd.1.2, .inr ⟨c, hd.2, .inl ⟨splitAtSep_three hs, (Option.some.inj h).symm⟩⟩⟩
    · cases h
  · rename_i a b hs
    split at h
    · rename_i hd
      simp only [Bool.and_eq_true] at hd
      exact ⟨a, b, hd.1, hd.2, .inl ⟨splitAtSep_two hs, (Option.some.inj h).symm⟩⟩
    · cases h
  · split at h
    · rename_i a b c hs
      split at h
      · rename_i hd
        simp only [Bool.and_eq_true] at hd
        exact ⟨a, b, hd.1.1, hd.1.2, .inr ⟨c, hd.2, .inr ⟨splitAtSep_three hs, (Option.some.inj h).symm⟩⟩⟩
      · cases h
    · cases h

/-- Everything ParseAddress can answer (R117). -/
theorem parseAddress_ok {form : Form} {hint : Family} {n : Word} {s : List Byte} {a : Address}
    (h : parseAddress form hint n s = .ok a) :
    (form = .int ∧ n.toNat ≤ 0xFFFF ∧ a = ⟨n.setWidth 16, hint, true⟩) ∨
      (form = .bytes ∧ s.length = 2 ∧ a = ⟨unBe16 s, hint, true⟩) ∨
      (form = .str ∧ ∃ f, matchFriendly s = some f ∧ f.inRange = true ∧ a = ⟨f.value, f.family, false⟩) ∨
      (form = .str ∧ matchFriendly s = none ∧ s.length = 2 ∧ a = ⟨unBe16 s, hint, true⟩) := by
  cases form with
  | int =>
    simp only [parseAddress] at h
    split at h
    · cases h
    · cases h
      exact .inl ⟨rfl, by omega, rfl⟩
  | bytes =>
    simp only [parseAddress] at h
    split at h
    · cases h
    · cases h
      exact .inr (.inl ⟨rfl, by omega, rfl⟩)
  | str =>
    simp only [parseAddress] at h
    split at h
    · rename_i f hf
      split at h
      · cases h
        exact .inr (.inr (.inl ⟨rfl, f, hf, by assumption, rfl⟩))
      · cases h
    · rename_i hf
      split at h
      · cases h
        exact .inr (.inr (.inr ⟨rfl, hf, by assumption, rfl⟩))
      · cases h

/-- ParseAddress raises no error but AddressFormatError. -/
theorem parseAddress_error {form : Form} {hint : Family} {n : Word} {s : List Byte} {e : ErrCode}
    (h : parseAddress form hint n s = .error e) : e = .addressFormat := by
  cases form <;> simp only [parseAddress] at h <;> split at h <;> first
    | (cases h; rfl)
    | cases h
    | (split at h <;> cases h <;> rfl)

/-- A digit's ASCII code is a decimal digit. -/
theorem isDigit_digit {n : Nat} (h : n < 10) : isDigit (digit n) = true := by
  interval_cases n <;> decide

theorem digit_toNat {n : Nat} (h : n < 10) : (digit n).toNat - 0x30 = n := by
  interval_cases n <;> decide

theorem decValue_append (a b : List Byte) : decValue (a ++ b) = b.foldl (fun acc c => 10 * acc + (c.toNat - 0x30)) (decValue a) := by
  simp [decValue]

/-- With fuel enough, the digits of `n` are a decimal field of value `n`. -/
theorem decDigits_spec (fuel n : Nat) (h : n < fuel) : isDec (decDigits fuel n) = true ∧ decValue (decDigits fuel n) = n := by
  induction fuel generalizing n with
  | zero => omega
  | succ k ih =>
    unfold decDigits
    split
    · rename_i hn
      refine ⟨?_, ?_⟩
      · simp [isDec, isDigit_digit hn]
      · simpa [decValue] using digit_toNat hn
    · obtain ⟨h1, h2⟩ := ih (n / 10) (by omega)
      have hd := isDigit_digit (Nat.mod_lt n (by omega : 0 < 10))
      have hv := digit_toNat (Nat.mod_lt n (by omega : 0 < 10))
      refine ⟨?_, ?_⟩
      · simp only [isDec, Bool.and_eq_true, List.all_append] at h1 ⊢
        simp [h1.2, hd]
      · rw [decValue_append, h2]
        simp only [List.foldl_cons, List.foldl_nil, hv]
        omega

/-- The decimal rendering reads back (R118). -/
theorem dec_spec (n : Nat) : isDec (dec n) = true ∧ decValue (dec n) = n := decDigits_spec (n + 1) n (by omega)

/-- A decimal rendering has at most as many digits as any power of ten above it. -/
theorem decDigits_length_le (fuel n k : Nat) (h : n < 10 ^ k) (hk : 1 ≤ k) : (decDigits fuel n).length ≤ k := by
  induction fuel generalizing n k with
  | zero => simp [decDigits]
  | succ f ih =>
    unfold decDigits
    split
    · simpa using hk
    · rename_i hn
      obtain ⟨k', rfl⟩ : ∃ k', k = k' + 1 := ⟨k - 1, by omega⟩
      have hk' : 1 ≤ k' := by
        by_contra hc
        have : k' = 0 := by omega
        subst this
        simp at h
        omega
      have := ih (n / 10) k' (by rw [pow_succ] at h; omega) hk'
      simp only [List.length_append, List.length_singleton]
      omega

theorem dec_length_le {n k : Nat} (h : n < 10 ^ k) (hk : 1 ≤ k) : (dec n).length ≤ k := decDigits_length_le _ _ _ h hk

/-- A rendered address is at most 11 bytes long (R120). -/
theorem render_length_le (v : Half) (f : Family) : (render v f).length ≤ 11 := by
  have b4 : ∀ x : BitVec 4, (dec x.toNat).length ≤ 2 := fun x => dec_length_le (by have := x.isLt; omega) (by omega)
  have b3 : ∀ x : BitVec 3, (dec x.toNat).length ≤ 1 := fun x => dec_length_le (by have := x.isLt; omega) (by omega)
  have b8 : ∀ x : BitVec 8, (dec x.toNat).length ≤ 3 := fun x => dec_length_le (by have := x.isLt; omega) (by omega)
  have b11 : ∀ x : BitVec 11, (dec x.toNat).length ≤ 4 := fun x => dec_length_le (by have := x.isLt; omega) (by omega)
  cases f <;> simp only [render, List.length_append, List.length_singleton]
  · have h1 := b4 (v.extractLsb' 12 4); have h2 := b4 (v.extractLsb' 8 4); have h3 := b8 (v.extractLsb' 0 8)
    omega
  · have h1 := b4 (v.extractLsb' 11 4); have h2 := b3 (v.extractLsb' 8 3); have h3 := b8 (v.extractLsb' 0 8)
    omega
  · have h1 := b4 (v.extractLsb' 11 4); have h2 := b11 (v.extractLsb' 0 11)
    omega

end Sys2Proof.Machine
end

