-- ==== Sys2Proof/Laws/Words.lean ====
section
/-! SUPPORT. Register words and wire fields as numbers: each packed word of a rule is the sum of its shifted fields. -/

namespace Sys2Proof.Machine

/-- A field as a number: `v[lo + n - 1 : lo]` of R8. -/
theorem extractLsb'_toNat_eq {w : Nat} (lo n : Nat) (x : BitVec w) :
    (x.extractLsb' lo n).toNat = x.toNat / 2 ^ lo % 2 ^ n := by
  simp [BitVec.extractLsb'_toNat, Nat.shiftRight_eq_div_pow]

theorem bit_toNat (b : Bool) : (bit b).toNat = if b then 1 else 0 := by
  cases b <;> rfl

/-- `BE16⁻¹` of two bytes (R7). -/
theorem unBe16_cons (a b : Byte) (rest : List Byte) : unBe16 (a :: b :: rest) = BitVec.ofNat 16 (256 * a.toNat + b.toNat) := by
  have ha := a.isLt
  have hb := b.isLt
  simp only [unBe16, List.getD_cons_zero, List.getD_cons_succ]
  rw [placeAt_eq_ofNat _ _ (by omega), ofNat_or_below _ (by omega) (by omega)]
  congr 1
  omega

/-- `BE16` of a number (R7). -/
theorem be16_ofNat (n : Nat) : be16 (BitVec.ofNat 16 n) = [BitVec.ofNat 8 (n / 256), BitVec.ofNat 8 n] := by
  have h1 : n % 65536 / 256 % 256 = n / 256 % 256 := by omega
  have h2 : n % 65536 % 256 = n % 256 := by omega
  simp only [be16, List.cons.injEq, and_true]
  constructor <;> apply BitVec.eq_of_toNat_eq <;>
    simp only [extractLsb'_toNat_eq, BitVec.toNat_ofNat] <;> norm_num [h1, h2]

/-- The big-endian field of two adjacent bytes is what BE16⁻¹ reads from their slice. -/
theorem unBe16_slice (b : List Byte) (i : Nat) : unBe16 (slice b i (i + 2)) = BitVec.ofNat 16 (wireHalf b i) := by
  have h : unBe16 (slice b i (i + 2)) = unBe16 [b.getD i 0, b.getD (i + 1) 0] := by
    simp [unBe16, slice, List.getD_eq_getElem?_getD]
  rw [h, unBe16_cons, wireHalf]

theorem wireHalf_lt (b : List Byte) (i : Nat) : wireHalf b i < 65536 := by
  have h1 := (b.getD i 0).isLt
  have h2 := (b.getD (i + 1) 0).isLt
  simp only [wireHalf]
  omega

theorem unBe16_slice_toNat (b : List Byte) (i : Nat) : (unBe16 (slice b i (i + 2))).toNat = wireHalf b i := by
  have := wireHalf_lt b i
  rw [unBe16_slice, BitVec.toNat_ofNat, Nat.mod_eq_of_lt (by simpa using this)]

/-- ADDRWORD (R116). -/
theorem addrWord_eq (a : Address) : addrWord a = addressWord a.value.toNat a.family.code.toNat (if a.raw then 1 else 0) := by
  have hv := a.value.isLt
  have hf := a.family.code.isLt
  simp only [addrWord, addressWord]
  rw [placeAt_eq_ofNat _ _ (by omega), ofNat_or_above _ (by omega) (by omega), ofNat_or_above _ (by omega) (by omega),
    ofNat_or_above _ (by omega) (by have := (bit a.family.isGroup).isLt; omega)]
  congr 1
  cases a.family <;> cases a.raw <;> simp [bit_toNat, Family.isGroup, Family.code]

/-- Control field 1 (R172). -/
theorem ctrl1_eq (f : CemiFields) :
    ctrl1 f =
      BitVec.ofNat 8
        (128 * f.std.toNat + 32 * f.noRepeat.toNat + 16 * f.broadcast.toNat + 4 * f.priority.toNat + 2 * f.ack.toNat +
          f.err.toNat) := by
  simp only [ctrl1]
  rw [placeAt_eq_ofNat _ _ (by omega), ofNat_or_below _ (by omega) (by omega), ofNat_or_below _ (by omega) (by omega),
    ofNat_or_below _ (by omega) (by omega), ofNat_or_below _ (by omega) (by omega), ofNat_or_below _ (by omega) (by omega)]
  congr 1
  omega

/-- Control field 2 (R173). -/
theorem ctrl2_eq (f : CemiFields) :
    ctrl2 f = BitVec.ofNat 8 (128 * f.isGroup.toNat + 16 * f.hop.toNat + f.eff.toNat) := by
  simp only [ctrl2]
  rw [placeAt_eq_ofNat _ _ (by omega), ofNat_or_below _ (by omega) (by omega), ofNat_or_below _ (by omega) (by omega)]
  congr 1
  omega

/-- The APDU word (R87). -/
theorem apduWord_eq (f : CemiFields) (p : Packed) :
    apduWord f p = BitVec.ofNat 16 (16384 * f.tpci.toNat + 1024 * f.seq.toNat + 64 * p.apci.toNat + p.f6.toNat) := by
  simp only [apduWord]
  rw [placeAt_eq_ofNat _ _ (by omega), ofNat_or_below _ (by omega) (by omega), ofNat_or_below _ (by omega) (by omega),
    ofNat_or_below _ (by omega) (by omega)]
  congr 1
  omega

/-- The first header result word (R204). -/
theorem headerWord0_eq (h : Header) :
    headerWord0 h = BitVec.ofNat 32 (h.hl.toNat + 256 * h.ver.toNat + 65536 * h.rt.toNat) := by
  have h1 := h.hl.isLt
  have h2 := h.ver.isLt
  simp only [headerWord0]
  rw [placeAt_eq_ofNat _ _ (by omega), ofNat_or_above _ (by omega) (by omega), ofNat_or_above _ (by omega) (by omega)]
  congr 1
  omega

/-- The second header result word (R204). -/
theorem headerWord1_eq (h : Header) :
    headerWord1 h = BitVec.ofNat 32 (h.rl.toNat + 65536 * h.tail.variant.toNat + (if h.known then 262144 else 0)) := by
  have h1 := h.rl.isLt
  have h2 := h.tail.variant.isLt
  simp only [headerWord1]
  rw [placeAt_eq_ofNat _ _ (by omega), ofNat_or_above _ (by omega) (by omega), ofNat_or_above _ (by omega) (by omega)]
  congr 1
  cases h.known <;> simp [bit_toNat] <;> omega

/-- DECODE's second result word (R317). -/
theorem routeWord_eq (h : Header) (auth : Bool) (route : BitVec 3) :
    routeWord h auth route =
      BitVec.ofNat 32
        (h.rl.toNat + 65536 * h.tail.variant.toNat + (if h.known then 262144 else 0) +
          ((if auth then 524288 else 0) + 1048576 * route.toNat)) := by
  have h1 := h.rl.isLt
  have h2 := h.tail.variant.isLt
  simp only [routeWord, headerWord1_eq]
  cases h.known <;> cases auth <;>
    (rw [ofNat_or_above _ (by omega) (by simp; omega), ofNat_or_above _ (by omega) (by simp [bit_toNat]; omega)]
     congr 1
     simp [bit_toNat]
     omega)

/-- The third header result word of a wrapper (R204). -/
theorem wrapperWord_eq (t : WrapperTail) (h : t.c.length < 65536) :
    wrapperWord t = BitVec.ofNat 32 (t.sid.toNat + 65536 * t.c.length) := by
  have h1 := t.sid.isLt
  simp only [wrapperWord]
  rw [placeAt_eq_ofNat _ _ (by omega), ofNat_or_above _ (by omega) (by omega)]
  congr 1
  simp [Nat.mod_eq_of_lt h]
  omega

/-- The fields word of both DPT commands (R294, R295). -/
theorem Dpt9.word_eq (d : Dpt9) :
    d.word = BitVec.ofNat 32 (d.sign.toNat + 2 * d.exponent.toNat + 32 * d.mantissa.toNat) := by
  have h1 := d.sign.isLt
  have h2 := d.exponent.isLt
  simp only [Dpt9.word]
  rw [placeAt_eq_ofNat _ _ (by omega), ofNat_or_above _ (by omega) (by omega), ofNat_or_above _ (by omega) (by omega)]
  congr 1
  omega

/-- The two bytes of a DPT 9.001 value (R89, R293). -/
theorem Dpt9.bytes_eq (d : Dpt9) :
    d.bytes =
      [BitVec.ofNat 8 (128 * d.sign.toNat + 8 * d.exponent.toNat + d.mantissa.toNat / 256),
       BitVec.ofNat 8 d.mantissa.toNat] := by
  have h3 := d.mantissa.isLt
  simp only [Dpt9.bytes]
  rw [placeAt_eq_ofNat _ _ (by omega), ofNat_or_below _ (by omega) (by omega), ofNat_or_below _ (by omega) (by omega)]
  simp only [extractLsb'_toNat_eq, List.cons.injEq, and_true]
  refine ⟨?_, ?_⟩
  · congr 1
    omega
  · apply BitVec.eq_of_toNat_eq
    simp

/-- The mantissa field read from two bytes (R89). -/
theorem Dpt9.ofBytes_mantissa (b0 b1 : Byte) : (Dpt9.ofBytes b0 b1).mantissa.toNat = b0.toNat % 8 * 256 + b1.toNat := by
  have h1 := b1.isLt
  simp only [Dpt9.ofBytes]
  rw [placeAt_eq_ofNat _ _ (by omega), ofNat_or_below _ (by omega) (by omega)]
  simp only [extractLsb'_toNat_eq, BitVec.toNat_ofNat]
  omega

end Sys2Proof.Machine
end

