-- ==== Sys2Proof/Laws/Cemi.lean ====
section
/-! SUPPORT. The laws of the packing rule and of the CEMI codec: what Pack, Unpack, CemiEncode and CemiDecode answer. -/

namespace Sys2Proof.Machine

/-! ### Packing and unpacking -/

/-- A base code with a first byte of at most 63 (R147). -/
theorem pack_carries {code : BitVec 10} {hasData : Bool} {d : Byte} (hc : code.toNat ≤ 15) (hd : hasData = true)
    (h : d.toNat ≤ 63) : pack code hasData d = ⟨code.setWidth 4, d.setWidth 6, true⟩ := by
  simp [pack, hc, hd, h]

/-- A base code with no byte to carry (R147). -/
theorem pack_base {code : BitVec 10} {hasData : Bool} {d : Byte} (hc : code.toNat ≤ 15) (h : ¬ (hasData = true ∧ d.toNat ≤ 63)) :
    pack code hasData d = ⟨code.setWidth 4, 0, false⟩ := by
  simp only [pack, if_pos hc, if_neg h]

/-- An extended code (R147). -/
theorem pack_extended {code : BitVec 10} (hasData : Bool) (d : Byte) (hc : 15 < code.toNat) :
    pack code hasData d = ⟨code.extractLsb' 6 4, code.extractLsb' 0 6, false⟩ := by
  simp only [pack, if_neg (Nat.not_le.mpr hc)]

/-- Everything Unpack can answer (R149). -/
theorem unpack_cases (f6 : BitVec 6) (dl : Nat) (trailing : List Byte) :
    (trailing.length + 1 < dl ∧ unpack f6 dl trailing = .error .frameTruncated) ∨
      (dl = trailing.length + 1 ∧ unpack f6 dl trailing = .ok ⟨f6.setWidth 8 :: trailing, true, 0⟩) ∨
      (dl ≤ trailing.length ∧ unpack f6 dl trailing = .ok ⟨trailing.take dl, false, trailing.length - dl⟩) := by
  unfold unpack
  by_cases h1 : trailing.length + 1 < dl
  · exact .inl ⟨h1, by rw [if_pos h1]⟩
  · by_cases h2 : trailing.length < dl
    · exact .inr (.inl ⟨by omega, by rw [if_neg h1, if_pos h2]⟩)
    · exact .inr (.inr ⟨by omega, by rw [if_neg h1, if_neg h2]⟩)

/-- A payload is never longer than its data_length says (R149). -/
theorem unpack_data_length {f6 : BitVec 6} {dl : Nat} {trailing : List Byte} {u : Unpacked}
    (h : unpack f6 dl trailing = .ok u) : u.data.length = dl := by
  rcases unpack_cases f6 dl trailing with ⟨-, e⟩ | ⟨hd, e⟩ | ⟨hd, e⟩ <;> rw [e] at h <;> cases h
  · simp [hd]
  · simpa using hd

/-- Unpack raises no error but FrameTruncatedError. -/
theorem unpack_error {f6 : BitVec 6} {dl : Nat} {trailing : List Byte} {e : ErrCode}
    (h : unpack f6 dl trailing = .error e) : e = .frameTruncated := by
  rcases unpack_cases f6 dl trailing with ⟨-, x⟩ | ⟨-, x⟩ | ⟨-, x⟩ <;> rw [x] at h <;> cases h
  rfl

/-! ### Encoding a frame -/

/-- The frame CemiEncode writes where the data fits (R176). -/
theorem cemiEncodeFrame_ok {P : Params} {f : CemiFields} {d : List Byte} (h : d.length ≤ P.maxData) :
    cemiEncodeFrame P f d =
      .ok
        ([f.msg, 0, ctrl1 f, ctrl2 f] ++ be16 f.src ++ be16 f.dst ++ [BitVec.ofNat 8 d.length] ++
          be16 (apduWord f (pack f.code (!d.isEmpty) (d.headD 0))) ++
          if (pack f.code (!d.isEmpty) (d.headD 0)).carries then d.tail else d) := by
  simp only [cemiEncodeFrame, if_neg (Nat.not_lt.mpr h)]

theorem cemiEncodeFrame_long {P : Params} {f : CemiFields} {d : List Byte} (h : P.maxData < d.length) :
    cemiEncodeFrame P f d = .error .encodeLength := by
  simp only [cemiEncodeFrame, if_pos h]

/-- CemiEncode answers a frame of at most `11 + MAX_DATA` bytes, or EncodeLengthError (R174, R176). -/
theorem cemiEncodeFrame_cases (P : Params) (f : CemiFields) (d : List Byte) :
    cemiEncodeFrame P f d = .error .encodeLength ∨
      ∃ c, cemiEncodeFrame P f d = .ok c ∧ c.length ≤ 11 + P.maxData := by
  by_cases h : d.length ≤ P.maxData
  · refine .inr ⟨_, cemiEncodeFrame_ok h, ?_⟩
    simp only [List.length_append, List.length_cons, List.length_nil, be16_length]
    split <;> simp <;> omega
  · exact .inl (cemiEncodeFrame_long (by omega))

/-! ### Decoding a frame -/

/-- Every byte string is a frame too short for its fields, or one that gives a payload (R177). -/
theorem frameBad_or_gives (f : List Byte) : FrameBad f ∨ ∃ data packed excess, FrameGives f data packed excess := by
  unfold FrameBad FrameGives
  by_cases h1 : f.length < 11
  · exact .inl (.inl h1)
  · by_cases h2 : f.length - 11 + 1 < (f.getD 8 0).toNat
    · exact .inl (.inr h2)
    · by_cases h3 : (f.getD 8 0).toNat = f.length - 11 + 1
      · exact .inr ⟨_, _, _, by omega, .inl ⟨h3, rfl, rfl, rfl⟩⟩
      · exact .inr ⟨_, _, _, by omega, .inr ⟨by omega, rfl, rfl, rfl⟩⟩

/-- A frame too short for its fields is truncated (R177). -/
theorem cemiDecodeFrame_bad {f : List Byte} (h : FrameBad f) : cemiDecodeFrame f = .error .frameTruncated := by
  unfold cemiDecodeFrame
  split
  · rfl
  · rename_i hl
    rcases h with h | h
    · exact absurd h hl
    · rcases unpack_cases ((unBe16 (slice f 9 11)).extractLsb' 0 6) (f.getD 8 0).toNat (f.drop 11) with ⟨-, x⟩ | ⟨hd, -⟩ | ⟨hd, -⟩
      · simp only [x]
      · rw [List.length_drop] at hd
        omega
      · rw [List.length_drop] at hd
        omega

/-- The frame CemiDecode answers, given what Unpack answered (R177). -/
def frameOf (f : List Byte) (u : Unpacked) : CemiFrame where
  msg := f.getD 0 0
  info := f.getD 1 0
  ctrl1 := f.getD 2 0
  ctrl2 := f.getD 3 0
  src := unBe16 (slice f 4 6)
  dst := unBe16 (slice f 6 8)
  dl := f.getD 8 0
  apdu := unBe16 (slice f 9 11)
  packed := u.packed
  trailing := f.length - 11
  excess := u.excess
  data := u.data

theorem cemiDecodeFrame_of_unpack {f : List Byte} {u : Unpacked} (hl : 11 ≤ f.length)
    (h : unpack ((unBe16 (slice f 9 11)).extractLsb' 0 6) (f.getD 8 0).toNat (f.drop 11) = .ok u) :
    cemiDecodeFrame f = .ok (frameOf f u) := by
  unfold cemiDecodeFrame
  rw [if_neg (by omega)]
  simp only [h]
  rfl

/-- Everything CemiDecode can answer (R177). -/
theorem cemiDecodeFrame_gives {f data : List Byte} {packed excess : Nat} (h : FrameGives f data packed excess) :
    ∃ u, cemiDecodeFrame f = .ok (frameOf f u) ∧ u.data = data ∧ (if u.packed then 1 else 0) = packed ∧ u.excess = excess := by
  obtain ⟨hl, hc⟩ := h
  have hw := unBe16_slice_toNat f 9
  rcases unpack_cases ((unBe16 (slice f 9 11)).extractLsb' 0 6) (f.getD 8 0).toNat (f.drop 11) with ⟨hd, -⟩ | ⟨hd, x⟩ | ⟨hd, x⟩ <;>
    rw [List.length_drop] at hd
  · omega
  · rcases hc with ⟨-, rfl, rfl, rfl⟩ | ⟨hd', -⟩
    · refine ⟨_, cemiDecodeFrame_of_unpack (by omega) x, ?_, rfl, rfl⟩
      simp only [List.cons.injEq, and_true]
      apply BitVec.eq_of_toNat_eq
      simp only [BitVec.toNat_setWidth, extractLsb'_toNat_eq, BitVec.toNat_ofNat]
      rw [show (11 : Nat) = 9 + 2 from rfl, hw, wireHalf, show (9 : Nat) + 1 = 10 from rfl]
      omega
    · omega
  · rcases hc with ⟨hd', -⟩ | ⟨-, rfl, rfl, rfl⟩
    · omega
    · exact ⟨_, cemiDecodeFrame_of_unpack (by omega) x, rfl, rfl, by rw [List.length_drop]⟩

/-- CemiDecode raises no error but FrameTruncatedError. -/
theorem cemiDecodeFrame_error {f : List Byte} {e : ErrCode} (h : cemiDecodeFrame f = .error e) : e = .frameTruncated := by
  rcases frameBad_or_gives f with hb | ⟨_, _, _, hg⟩
  · rw [cemiDecodeFrame_bad hb] at h
    cases h
    rfl
  · obtain ⟨u, hu, -⟩ := cemiDecodeFrame_gives hg
    rw [hu] at h
    cases h

/-- A decoded payload is at most 255 bytes long. -/
theorem cemiDecodeFrame_data_length {f : List Byte} {fr : CemiFrame} (h : cemiDecodeFrame f = .ok fr) : fr.data.length ≤ 255 := by
  rcases frameBad_or_gives f with hb | ⟨data, _, _, hg⟩
  · rw [cemiDecodeFrame_bad hb] at h
    cases h
  · obtain ⟨u, hu, hd, -⟩ := cemiDecodeFrame_gives hg
    rw [hu] at h
    cases h
    have h8 := (f.getD 8 0).isLt
    obtain ⟨hl, ⟨he, rfl, -⟩ | ⟨he, rfl, -⟩⟩ := hg
    · simp only [frameOf, hd, List.length_cons, List.length_drop]
      omega
    · simp only [frameOf, hd, List.length_take, List.length_drop]
      omega

/-! ### The result block -/

/-- Word `k` of WriteCemiBlock for a decoded frame (R179). -/
def blockWord (k : Nat) (fr : CemiFrame) : Word := (writeCemiBlock 0 fr {}).get k

/-- Ten fields placed as the fifth word of the block has them (R179). -/
theorem controlFields_eq (a b c d : BitVec 1) (e : BitVec 2) (f g h : BitVec 1) (i : BitVec 3) (j : BitVec 4) :
    (placeAt 0 a ||| placeAt 1 b ||| placeAt 2 c ||| placeAt 3 d ||| placeAt 4 e ||| placeAt 6 f ||| placeAt 7 g |||
        placeAt 8 h ||| placeAt 9 i ||| placeAt 12 j : Word) =
      BitVec.ofNat 32
        (a.toNat * 2 ^ 0 + b.toNat * 2 ^ 1 + c.toNat * 2 ^ 2 + d.toNat * 2 ^ 3 + e.toNat * 2 ^ 4 + f.toNat * 2 ^ 6 +
          g.toNat * 2 ^ 7 + h.toNat * 2 ^ 8 + i.toNat * 2 ^ 9 + j.toNat * 2 ^ 12) := by
  have h1 := a.isLt
  have h2 := b.isLt
  have h3 := c.isLt
  have h4 := d.isLt
  have h5 := e.isLt
  have h6 := f.isLt
  have h7 := g.isLt
  have h8 := h.isLt
  have h9 := i.isLt
  rw [placeAt_eq_ofNat _ _ (by omega), ofNat_or_above _ (by omega) (by omega), ofNat_or_above _ (by omega) (by omega),
    ofNat_or_above _ (by omega) (by omega), ofNat_or_above _ (by omega) (by omega), ofNat_or_above _ (by omega) (by omega),
    ofNat_or_above _ (by omega) (by omega), ofNat_or_above _ (by omega) (by omega), ofNat_or_above _ (by omega) (by omega),
    ofNat_or_above _ (by omega) (by omega)]

theorem controlWord_eq (c1 c2 : Byte) :
    controlWord c1 c2 =
      BitVec.ofNat 32
        (c1.toNat / 128 + 2 * (c1.toNat / 64 % 2) + 4 * (c1.toNat / 32 % 2) + 8 * (c1.toNat / 16 % 2) +
          16 * (c1.toNat / 4 % 4) + 64 * (c1.toNat / 2 % 2) + 128 * (c1.toNat % 2) + 256 * (c2.toNat / 128) +
          512 * (c2.toNat / 16 % 8) + 4096 * (c2.toNat % 16)) := by
  have h1 := c1.isLt
  have h2 := c2.isLt
  have e1 : c1.toNat / 2 ^ 7 % 2 ^ 1 = c1.toNat / 128 := by omega
  have e2 : c2.toNat / 2 ^ 7 % 2 ^ 1 = c2.toNat / 128 := by omega
  rw [controlWord, controlFields_eq]
  simp only [extractLsb'_toNat_eq, e1, e2]
  norm_num
  ring_nf

theorem blockWord_zero (f : List Byte) (u : Unpacked) (p e : Nat) : blockWord 0 (frameOf f u) = cemiWord 0 f p e := by
  have h0 := (f.getD 0 0).isLt
  have h1 := (f.getD 1 0).isLt
  have h2 := (f.getD 2 0).isLt
  show (placeAt 0 (f.getD 0 0) ||| placeAt 8 (f.getD 1 0) ||| placeAt 16 (f.getD 2 0) ||| placeAt 24 (f.getD 3 0) : Word) = _
  rw [placeAt_eq_ofNat _ _ (by omega), ofNat_or_above _ (by omega) (by omega), ofNat_or_above _ (by omega) (by omega),
    ofNat_or_above _ (by omega) (by omega)]
  simp only [cemiWord]
  congr 1
  omega

theorem blockWord_one (f : List Byte) (u : Unpacked) (p e : Nat) : blockWord 1 (frameOf f u) = cemiWord 1 f p e := by
  have h4 := wireHalf_lt f 4
  show (placeAt 0 (unBe16 (slice f 4 (4 + 2))) ||| placeAt 16 (unBe16 (slice f 6 (6 + 2))) : Word) = _
  rw [placeAt_eq_ofNat _ _ (by omega), ofNat_or_above _ (by omega) (by rw [unBe16_slice_toNat]; omega), unBe16_slice_toNat,
    unBe16_slice_toNat]
  simp only [cemiWord]
  congr 1
  omega

theorem blockWord_two (f : List Byte) (u : Unpacked) (e : Nat) :
    blockWord 2 (frameOf f u) = cemiWord 2 f (if u.packed then 1 else 0) e := by
  have h3 := (f.getD 3 0).isLt
  have h8 := (f.getD 8 0).isLt
  have h9 := wireHalf_lt f 9
  have hb := (bit u.packed).isLt
  show (placeAt 0 (f.getD 8 0) ||| placeAt 8 (unBe16 (slice f 9 (9 + 2))) ||| placeAt 24 (bit u.packed) |||
    placeAt 25 ((f.getD 3 0).extractLsb' 7 1) : Word) = _
  rw [placeAt_eq_ofNat _ _ (by omega), ofNat_or_above _ (by omega) (by omega), unBe16_slice_toNat,
    ofNat_or_above _ (by omega) (by omega), ofNat_or_above _ (by omega) (by omega), extractLsb'_toNat_eq, bit_toNat]
  simp only [cemiWord]
  congr 1
  split <;> omega

theorem blockWord_three (f : List Byte) (u : Unpacked) (p e : Nat) : blockWord 3 (frameOf f u) = cemiWord 3 f p e := by
  have h9 := wireHalf_lt f 9
  have e9 := unBe16_slice_toNat f 9
  generalize hw : unBe16 (slice f 9 (9 + 2)) = w at e9
  have : blockWord 3 (frameOf f u) =
      (placeAt 0 (w.extractLsb' 6 4) ||| placeAt 4 (w.extractLsb' 0 10) ||| placeAt 14 (w.extractLsb' 14 2) |||
        placeAt 16 (w.extractLsb' 10 4) ||| placeAt 20 (w.extractLsb' 0 6) : Word) := by
    rw [← hw]
    rfl
  rw [this, placeAt_eq_ofNat _ _ (by omega), ofNat_or_above _ (by omega) (by omega), ofNat_or_above _ (by omega) (by omega),
    ofNat_or_above _ (by omega) (by omega), ofNat_or_above _ (by omega) (by omega)]
  simp only [cemiWord, extractLsb'_toNat_eq, e9]
  congr 1
  omega

theorem blockWord_four (f : List Byte) (u : Unpacked) (p e : Nat) : blockWord 4 (frameOf f u) = cemiWord 4 f p e :=
  controlWord_eq (f.getD 2 0) (f.getD 3 0)

theorem blockWord_five (f : List Byte) (u : Unpacked) (p : Nat) : blockWord 5 (frameOf f u) = cemiWord 5 f p u.excess := by
  show (placeAt 0 (BitVec.ofNat 16 (f.length - 11)) ||| placeAt 16 (BitVec.ofNat 16 u.excess) : Word) = _
  rw [placeAt_eq_ofNat _ _ (by omega), ofNat_or_above _ (by omega) (by omega)]
  simp only [cemiWord, BitVec.toNat_ofNat]
  congr 1
  omega

/-- The block of CEMI_DECODE, register by register (R178, R179). -/
theorem writeCemiBlock_zero (fr : CemiFrame) :
    writeCemiBlock 0 fr {} =
      { r0 := blockWord 0 fr, r1 := blockWord 1 fr, r2 := blockWord 2 fr, r3 := blockWord 3 fr, r4 := blockWord 4 fr,
        r5 := blockWord 5 fr } := rfl

/-- The block of DECODE, register by register (R179, R317). -/
theorem writeCemiBlock_three (fr : CemiFrame) (r : Results) :
    writeCemiBlock 3 fr r =
      { r with
        r3 := blockWord 0 fr, r4 := blockWord 1 fr, r5 := blockWord 2 fr, r6 := blockWord 3 fr, r7 := blockWord 4 fr,
        r8 := blockWord 5 fr } := rfl

end Sys2Proof.Machine
end

