-- ==== Sys2Proof/Laws/Crypto.lean ====
section
/-! SUPPORT. The laws of the cryptographic primitives: blocks and their bytes, the lengths of tags and keystreams. -/

namespace Sys2Proof.Machine

@[simp] theorem Block.bytes_length (b : Block) : b.bytes.length = 16 := by
  simp [Block.bytes, Column.bytes]

@[simp] theorem Block.ofBytes_bytes (b : Block) : Block.ofBytes b.bytes = b := rfl

/-- The tag is never truncated (R236). -/
@[simp] theorem cmac_length (k : Block) (m : List Byte) : (cmac k m).length = 16 := by
  simp [cmac]

/-- A message of whole blocks before its last part is chained block by block (R236). -/
theorem cmacChain_succ (k : Block) (n : Nat) (x : Block) (m : List Byte) :
    cmacChain k (n + 1) x m = cmacChain k n (aes k (x.xor (Block.ofBytes (m.take 16)))) (m.drop 16) := rfl

theorem keystreamBlocks_length (k : Block) (nonce : List Byte) (count j : Nat) :
    (keystreamBlocks k nonce count j).length = 16 * count := by
  induction count generalizing j with
  | zero => rfl
  | succ c ih =>
    simp only [keystreamBlocks, List.length_append, Block.bytes_length, ih]
    omega

/-- Byte `i` of the keystream blocks comes from the block `i / 16` places after the first (R238). -/
theorem keystreamBlocks_getD (k : Block) (nonce : List Byte) (count j i : Nat) (h : i < 16 * count) :
    (keystreamBlocks k nonce count j).getD i 0 =
      (aes k (Block.ofBytes (nonce ++ [BitVec.ofNat 8 (j + i / 16)]))).bytes.getD (i % 16) 0 := by
  induction count generalizing j i with
  | zero => omega
  | succ c ih =>
    simp only [keystreamBlocks, List.getD_eq_getElem?_getD, List.getElem?_append, Block.bytes_length]
    by_cases hi : i < 16
    · rw [if_pos hi, Nat.div_eq_of_lt hi, Nat.mod_eq_of_lt hi, Nat.add_zero]
    · rw [if_neg hi]
      have := ih (j + 1) (i - 16) (by omega)
      rw [List.getD_eq_getElem?_getD, List.getD_eq_getElem?_getD] at this
      rw [this, show (i - 16) % 16 = i % 16 by omega, show j + 1 + (i - 16) / 16 = j + i / 16 by omega]

@[simp] theorem keystream_length (k : Block) (nonce : List Byte) (n : Nat) : (keystream k nonce n).length = n := by
  simp only [keystream, List.length_take, keystreamBlocks_length]
  omega

/-- The default cipher keeps the length (R238). -/
@[simp] theorem keystreamCipher_length (k : Block) (nonce c : List Byte) : (keystreamCipher k nonce c).length = c.length := by
  simp [keystreamCipher, xorBytes_length]

end Sys2Proof.Machine
end

