-- ==== Sys2Proof/Laws/Header.lean ====
section
/-! SUPPORT. The laws of the header codec: everything HdrDecode can answer at the parameters of R6, and its result words. -/

namespace Sys2Proof.Machine

@[simp] theorem encodeHeader_length (version : Byte) (rt rl : Half) : (encodeHeader version rt rl).length = 6 := by
  simp [encodeHeader]

@[simp] theorem params_reqSecureWrapper : Config.params.reqSecureWrapper = 0x0950 := rfl

@[simp] theorem params_reqSecureTimerNotify : Config.params.reqSecureTimerNotify = 0x0955 := rfl

@[simp] theorem params_reqSessionSet : Config.params.reqSessionSet = [0x0951, 0x0952, 0x0953, 0x0954] := rfl

@[simp] theorem params_bufBytes : Config.params.bufBytes = 65535 := by simp [Config.params, Config.paramsAt]

@[simp] theorem params_maxData : Config.params.maxData = 255 := by simp [Config.params, Config.paramsAt]

/-- The header HdrDecode answers for `b` with the tail `t` (R202). -/
def headerOf (b : List Byte) (t : Tail) : Header where
  hl := b.getD 0 0
  ver := b.getD 1 0
  rt := unBe16 (slice b 2 4)
  rl := unBe16 (slice b 4 6)
  known := knownType Config.params (unBe16 (slice b 2 4))
  payload := slice b 6 (wireHalf b 4)
  tail := t

/-- The request type of a datagram, compared with a constant. -/
theorem requestType_eq (b : List Byte) (c : Nat) (hc : c < 65536) :
    unBe16 (slice b 2 4) = BitVec.ofNat 16 c ↔ wireHalf b 2 = c := by
  have h := unBe16_slice_toNat b 2
  rw [← h]
  constructor
  · intro e
    rw [show (2 : Nat) + 2 = 4 from rfl, e, BitVec.toNat_ofNat, Nat.mod_eq_of_lt (by simpa using hc)]
  · intro e
    apply BitVec.eq_of_toNat_eq
    rw [BitVec.toNat_ofNat, ← e, Nat.mod_eq_of_lt (unBe16 (slice b 2 (2 + 2))).isLt]

/-- Everything HdrDecode can answer (R202, R205 to R207). -/
theorem hdrDecodeBytes_eq (b : List Byte) :
    (HeaderBad b ∧ hdrDecodeBytes Config.params b = .error .headerLength) ∨
      (¬ HeaderBad b ∧
        ((wireHalf b 2 = 0x0950 ∧
            hdrDecodeBytes Config.params b = .ok (headerOf b (.wrapper (wrapperTail b (wireHalf b 4))))) ∨
          (wireHalf b 2 = 0x0955 ∧ hdrDecodeBytes Config.params b = .ok (headerOf b (.timer (timerTail b)))) ∨
          (wireHalf b 2 ≠ 0x0950 ∧ wireHalf b 2 ≠ 0x0955 ∧
            hdrDecodeBytes Config.params b = .ok (headerOf b .plain)))) := by
  have hw : unBe16 (slice b 2 4) = (0x0950 : Half) ↔ wireHalf b 2 = 0x0950 := requestType_eq b 0x0950 (by omega)
  have ht : unBe16 (slice b 2 4) = (0x0955 : Half) ↔ wireHalf b 2 = 0x0955 := requestType_eq b 0x0955 (by omega)
  have hl := unBe16_slice_toNat b 4
  simp only [Nat.reduceAdd] at hl
  unfold hdrDecodeBytes HeaderBad
  simp only [params_reqSecureWrapper, params_reqSecureTimerNotify, hl]
  by_cases h6 : b.length < 6
  · exact .inl ⟨.inl h6, by rw [if_pos h6]⟩
  · rw [if_neg h6]
    by_cases hr : wireHalf b 4 < 6 ∨ b.length < wireHalf b 4
    · exact .inl ⟨by omega, by rw [if_pos hr]⟩
    · rw [if_neg hr]
      by_cases h1 : wireHalf b 2 = 0x0950
      · have h1' := hw.mpr h1
        rw [if_pos h1']
        by_cases h38 : wireHalf b 4 < 38
        · exact .inl ⟨by omega, by rw [if_pos h38]⟩
        · exact .inr ⟨by omega, .inl ⟨h1, by rw [if_neg h38]; rfl⟩⟩
      · rw [if_neg (fun e => h1 (hw.mp e))]
        by_cases h2 : wireHalf b 2 = 0x0955
        · have h2' := ht.mpr h2
          rw [if_pos h2']
          by_cases h36 : wireHalf b 4 < 36
          · exact .inl ⟨by omega, by rw [if_pos h36]⟩
          · exact .inr ⟨by omega, .inr (.inl ⟨h2, by rw [if_neg h36]; rfl⟩)⟩
        · rw [if_neg (fun e => h2 (ht.mp e))]
          exact .inr ⟨by omega, .inr (.inr ⟨h1, h2, rfl⟩)⟩

theorem hdrDecodeBytes_bad {b : List Byte} (h : HeaderBad b) : hdrDecodeBytes Config.params b = .error .headerLength := by
  rcases hdrDecodeBytes_eq b with ⟨-, e⟩ | ⟨hn, -⟩
  · exact e
  · exact absurd h hn

theorem hdrDecodeBytes_wrapper {b : List Byte} (h : ¬ HeaderBad b) (hr : wireHalf b 2 = 0x0950) :
    hdrDecodeBytes Config.params b = .ok (headerOf b (.wrapper (wrapperTail b (wireHalf b 4)))) := by
  rcases hdrDecodeBytes_eq b with ⟨hb, -⟩ | ⟨-, ⟨-, e⟩ | ⟨h2, -⟩ | ⟨h2, -⟩⟩
  · exact absurd hb h
  · exact e
  · omega
  · omega

theorem hdrDecodeBytes_timer {b : List Byte} (h : ¬ HeaderBad b) (hr : wireHalf b 2 = 0x0955) :
    hdrDecodeBytes Config.params b = .ok (headerOf b (.timer (timerTail b))) := by
  rcases hdrDecodeBytes_eq b with ⟨hb, -⟩ | ⟨-, ⟨h2, -⟩ | ⟨-, e⟩ | ⟨-, h2, -⟩⟩
  · exact absurd hb h
  · omega
  · exact e
  · omega

theorem hdrDecodeBytes_plain {b : List Byte} (h : ¬ HeaderBad b) (h1 : wireHalf b 2 ≠ 0x0950) (h2 : wireHalf b 2 ≠ 0x0955) :
    hdrDecodeBytes Config.params b = .ok (headerOf b .plain) := by
  rcases hdrDecodeBytes_eq b with ⟨hb, -⟩ | ⟨-, ⟨e, -⟩ | ⟨e, -⟩ | ⟨-, -, e⟩⟩
  · exact absurd hb h
  · omega
  · omega
  · exact e

/-- HdrDecode raises no error but HeaderLengthError. -/
theorem hdrDecodeBytes_error {b : List Byte} {e : ErrCode} (h : hdrDecodeBytes Config.params b = .error e) :
    e = .headerLength := by
  rcases hdrDecodeBytes_eq b with ⟨-, x⟩ | ⟨-, ⟨-, x⟩ | ⟨-, x⟩ | ⟨-, -, x⟩⟩ <;> rw [x] at h <;> cases h
  rfl

/-- A decoded header is that of the datagram, with one of the three tails (R202). -/
theorem hdrDecodeBytes_ok {b : List Byte} {h : Header} (e : hdrDecodeBytes Config.params b = .ok h) :
    ¬ HeaderBad b ∧
      ((wireHalf b 2 = 0x0950 ∧ h = headerOf b (.wrapper (wrapperTail b (wireHalf b 4)))) ∨
        (wireHalf b 2 = 0x0955 ∧ h = headerOf b (.timer (timerTail b))) ∨
        (wireHalf b 2 ≠ 0x0950 ∧ wireHalf b 2 ≠ 0x0955 ∧ h = headerOf b .plain)) := by
  rcases hdrDecodeBytes_eq b with ⟨-, x⟩ | ⟨hn, ⟨h1, x⟩ | ⟨h1, x⟩ | ⟨h1, h2, x⟩⟩ <;> rw [x] at e <;> cases e
  · exact ⟨hn, .inl ⟨h1, rfl⟩⟩
  · exact ⟨hn, .inr (.inl ⟨h1, rfl⟩)⟩
  · exact ⟨hn, .inr (.inr ⟨h1, h2, rfl⟩)⟩

/-- type_known is membership in the table of R200. -/
theorem knownType_eq (b : List Byte) :
    knownType Config.params (unBe16 (slice b 2 4)) = decide (wireHalf b 2 ∈ requestTypes) := by
  have hl := wireHalf_lt b 2
  have h : (unBe16 (slice b 2 4)).setWidth 32 = BitVec.ofNat 32 (wireHalf b 2) := by
    apply BitVec.eq_of_toNat_eq
    rw [BitVec.toNat_setWidth, show (4 : Nat) = 2 + 2 from rfl, unBe16_slice_toNat, BitVec.toNat_ofNat]
  have hmap : Config.params.reqTypeTable.map (fun row => row.code) = requestTypes.map (BitVec.ofNat 32) := rfl
  have hinj : ∀ n, n ∈ requestTypes → (n : Nat) < 2 ^ 32 := by decide
  rw [knownType, h, Bool.eq_iff_iff, List.any_eq_true, decide_eq_true_iff]
  constructor
  · rintro ⟨row, hrow, he⟩
    have : row.code ∈ requestTypes.map (BitVec.ofNat 32) := hmap ▸ List.mem_map_of_mem hrow
    obtain ⟨n, hn, hc⟩ := List.mem_map.mp this
    have he' : BitVec.ofNat 32 n = BitVec.ofNat 32 (wireHalf b 2) := hc.trans (by simpa using he)
    have := congrArg BitVec.toNat he'
    simp only [BitVec.toNat_ofNat, Nat.mod_eq_of_lt (hinj n hn), Nat.mod_eq_of_lt (by omega : wireHalf b 2 < 2 ^ 32)] at this
    exact this ▸ hn
  · intro hm
    have : BitVec.ofNat 32 (wireHalf b 2) ∈ Config.params.reqTypeTable.map (fun row => row.code) :=
      hmap ▸ List.mem_map_of_mem hm
    obtain ⟨row, hrow, hc⟩ := List.mem_map.mp this
    exact ⟨row, hrow, by simp [hc]⟩

theorem headerOf_known (b : List Byte) (t : Tail) : (headerOf b t).known = decide (wireHalf b 2 ∈ requestTypes) :=
  knownType_eq b

theorem headerOf_rt_toNat (b : List Byte) (t : Tail) : (headerOf b t).rt.toNat = wireHalf b 2 := unBe16_slice_toNat b 2

theorem headerOf_rl_toNat (b : List Byte) (t : Tail) : (headerOf b t).rl.toNat = wireHalf b 4 := unBe16_slice_toNat b 4

@[simp] theorem headerOf_tail (b : List Byte) (t : Tail) : (headerOf b t).tail = t := rfl

@[simp] theorem headerOf_payload (b : List Byte) (t : Tail) : (headerOf b t).payload = slice b 6 (wireHalf b 4) := rfl

theorem headerWord0_headerOf (b : List Byte) (t : Tail) : headerWord0 (headerOf b t) = headerRes0 b := by
  rw [headerWord0_eq, headerRes0, headerOf_rt_toNat]
  rfl

theorem headerWord1_headerOf (b : List Byte) (t : Tail) :
    headerWord1 (headerOf b t) = headerRes1 b t.variant.toNat 0 := by
  simp only [headerWord1_eq, headerRes1, headerOf_rl_toNat, headerOf_known, headerOf_tail, decide_eq_true_eq, Nat.add_zero]

theorem routeWord_headerOf (b : List Byte) (t : Tail) (auth : Bool) (route : BitVec 3) :
    routeWord (headerOf b t) auth route =
      headerRes1 b t.variant.toNat ((if auth then 524288 else 0) + 1048576 * route.toNat) := by
  simp only [routeWord_eq, headerRes1, headerOf_rl_toNat, headerOf_known, headerOf_tail, decide_eq_true_eq]

/-- The first two result words SEC_UNWRAP and SEC_TIMER_VERIFY write, with type_known 1 (R266, R270). -/
theorem secureWord1_eq (b : List Byte) (t : Tail) (variant : BitVec 2) (h : wireHalf b 2 ∈ requestTypes) :
    (placeAt 0 (headerOf b t).rl ||| placeAt 16 variant ||| placeAt 18 (1 : BitVec 1) : Word) =
      headerRes1 b variant.toNat 0 := by
  have h1 := (headerOf b t).rl.isLt
  have h2 := variant.isLt
  rw [placeAt_eq_ofNat _ _ (by omega), ofNat_or_above _ (by omega) (by omega), ofNat_or_above _ (by omega) (by omega),
    headerOf_rl_toNat, headerRes1, if_pos h]
  congr 1
  simp
  omega

/-- Where the length checks hold, the encrypted frame of a wrapper has the length request_length gives it (R206). -/
theorem wrapperTail_c_length {b : List Byte} (h : ¬ HeaderBad b) (_hr : wireHalf b 2 = 0x0950) :
    (wrapperTail b (wireHalf b 4)).c.length = wireHalf b 4 - 38 := by
  simp only [HeaderBad, not_or] at h
  simp only [wrapperTail, slice_length]
  omega

theorem wrapperWord_headerOf {b : List Byte} (h : ¬ HeaderBad b) (hr : wireHalf b 2 = 0x0950) :
    wrapperWord (wrapperTail b (wireHalf b 4)) = headerRes2 b := by
  have hl := wireHalf_lt b 4
  rw [wrapperWord_eq _ (by rw [wrapperTail_c_length h hr]; omega), wrapperTail_c_length h hr, headerRes2]
  simp only [wrapperTail]
  rw [show (8 : Nat) = 6 + 2 from rfl, unBe16_slice_toNat]

end Sys2Proof.Machine
end

