-- ==== Sys2Proof/Laws/Datagram.lean ====
section
/-! SUPPORT. The laws of the datagram builder: ParseAddress as the relation of R117, the operand fields, and what Build can answer. -/

namespace Sys2Proof.Machine

/-! ### The operand fields -/

theorem hintOperand_legal {hint : BitVec 2} (h : hint ≠ 3) :
    ∃ f, hintOperand hint = some f ∧ f.code.toNat = hintFamily hint := by
  revert h
  revert hint
  decide

theorem formOperand_zero : formOperand 0 = some .int := rfl

theorem formOperand_one : formOperand 1 = some .bytes := rfl

theorem formOperand_two : formOperand 2 = some .str := rfl

theorem formOperand_three : formOperand 3 = none := rfl

theorem hintOperand_three : hintOperand 3 = none := rfl

theorem form_cases (form : BitVec 2) : form = 0 ∨ form = 1 ∨ form = 2 ∨ form = 3 := by
  revert form
  decide

/-! ### ParseAddress as a relation -/

theorem Friendly.value_toNat {f : Friendly} (h : f.inRange = true) :
    f.value.toNat =
      match f with
      | .group3 main middle sub => 2048 * main + 256 * middle + sub
      | .group2 main sub => 2048 * main + sub
      | .individual area line device => 4096 * area + 256 * line + device := by
  cases f with
  | group3 main middle sub =>
    simp only [Friendly.inRange, Bool.and_eq_true, decide_eq_true_eq] at h
    simp only [Friendly.value]
    rw [placeAt_eq_ofNat _ _ (by omega), ofNat_or_below _ (by omega) (by omega), ofNat_or_below _ (by omega) (by omega)]
    simp only [BitVec.toNat_ofNat]
    omega
  | group2 main sub =>
    simp only [Friendly.inRange, Bool.and_eq_true, decide_eq_true_eq] at h
    simp only [Friendly.value]
    rw [placeAt_eq_ofNat _ _ (by omega), ofNat_or_below _ (by omega) (by omega)]
    simp only [BitVec.toNat_ofNat]
    omega
  | individual area line device =>
    simp only [Friendly.inRange, Bool.and_eq_true, decide_eq_true_eq] at h
    simp only [Friendly.value]
    rw [placeAt_eq_ofNat _ _ (by omega), ofNat_or_below _ (by omega) (by omega), ofNat_or_below _ (by omega) (by omega)]
    simp only [BitVec.toNat_ofNat]
    omega

/-- A string that matches no pattern of R111 is no friendly string, and the other way round. -/
theorem matchFriendly_eq_none (s : List Byte) : matchFriendly s = none ↔ ¬ FriendlyString s := by
  constructor
  · rintro hn ⟨a, b, c, ha, hb, hc, rfl | rfl | rfl⟩
    · rw [matchFriendly_group3 ha hb hc] at hn
      cases hn
    · rw [matchFriendly_group2 ha hb] at hn
      cases hn
    · rw [matchFriendly_individual ha hb hc] at hn
      cases hn
  · intro hn
    cases hm : matchFriendly s with
    | none => rfl
    | some f =>
      obtain ⟨a, b, ha, hb, ⟨rfl, -⟩ | ⟨c, hc, ⟨rfl, -⟩ | ⟨rfl, -⟩⟩⟩ := matchFriendly_cases hm
      · exact absurd ⟨a, b, a, ha, hb, ha, .inr (.inl rfl)⟩ hn
      · exact absurd ⟨a, b, c, ha, hb, hc, .inl rfl⟩ hn
      · exact absurd ⟨a, b, c, ha, hb, hc, .inr (.inr rfl)⟩ hn

/-- A string that matches a pattern with every field in range is a friendly address of the value and family of R113. -/
theorem friendlyAddress_of_match {s : List Byte} {f : Friendly} (h : matchFriendly s = some f) (hr : f.inRange = true) :
    FriendlyAddress s f.value.toNat f.family.code.toNat := by
  rw [Friendly.value_toNat hr]
  obtain ⟨a, b, ha, hb, ⟨hs, rfl⟩ | ⟨c, hc, ⟨hs, rfl⟩ | ⟨hs, rfl⟩⟩⟩ := matchFriendly_cases h <;>
    simp only [Friendly.inRange, Bool.and_eq_true, decide_eq_true_eq] at hr
  · exact ⟨a, b, a, ha, hb, ha, .inr (.inl ⟨hs, hr.1, hr.2, rfl, rfl⟩)⟩
  · exact ⟨a, b, c, ha, hb, hc, .inl ⟨hs, hr.1.1, hr.1.2, hr.2, rfl, rfl⟩⟩
  · exact ⟨a, b, c, ha, hb, hc, .inr (.inr ⟨hs, hr.1.1, hr.1.2, hr.2, rfl, rfl⟩)⟩

/-- And the other way round. -/
theorem match_of_friendlyAddress {s : List Byte} {v fam : Nat} (h : FriendlyAddress s v fam) :
    ∃ f, matchFriendly s = some f ∧ f.inRange = true ∧ f.value.toNat = v ∧ f.family.code.toNat = fam := by
  obtain ⟨a, b, c, ha, hb, hc, ⟨rfl, h1, h2, h3, rfl, rfl⟩ | ⟨rfl, h1, h2, rfl, rfl⟩ | ⟨rfl, h1, h2, h3, rfl, rfl⟩⟩ := h
  · have hr : (Friendly.group3 (decValue a) (decValue b) (decValue c)).inRange = true := by simp [Friendly.inRange, h1, h2, h3]
    exact ⟨_, matchFriendly_group3 ha hb hc, hr, Friendly.value_toNat hr, rfl⟩
  · have hr : (Friendly.group2 (decValue a) (decValue b)).inRange = true := by simp [Friendly.inRange, h1, h2]
    exact ⟨_, matchFriendly_group2 ha hb, hr, Friendly.value_toNat hr, rfl⟩
  · have hr : (Friendly.individual (decValue a) (decValue b) (decValue c)).inRange = true := by
      simp [Friendly.inRange, h1, h2, h3]
    exact ⟨_, matchFriendly_individual ha hb hc, hr, Friendly.value_toNat hr, rfl⟩

/-- Two raw bytes as an address value (R114, R117). -/
theorem unBe16_toNat {s : List Byte} (h : s.length = 2) : (unBe16 s).toNat = wireHalf s 0 := by
  have := unBe16_slice_toNat s 0
  rwa [show slice s 0 (0 + 2) = s by rw [slice, List.drop_zero, Nat.zero_add, Nat.sub_zero, ← h, List.take_length]] at this

/-- Where R117's relation gives an address, ParseAddress answers it. -/
theorem parseAddress_of_parsesTo {form hint : BitVec 2} {f : Form} {fam : Family} {n : Word} {s : List Byte} {v w raw : Nat}
    (hf : formOperand form = some f) (hh : fam.code.toNat = hintFamily hint)
    (h : ParsesTo form hint n.toNat s v w raw) :
    ∃ a, parseAddress f fam n s = .ok a ∧ a.value.toNat = v ∧ a.family.code.toNat = w ∧ (if a.raw then 1 else 0) = raw := by
  rcases h with ⟨rfl, h1, rfl, rfl, rfl⟩ | ⟨rfl, h1, rfl, rfl, rfl⟩ | ⟨rfl, h1, rfl⟩ | ⟨rfl, h1, h2, rfl, rfl, rfl⟩
  · cases hf
    refine ⟨⟨n.setWidth 16, fam, true⟩, by simp only [parseAddress, if_neg (Nat.not_lt.mpr h1)], ?_, hh, rfl⟩
    simp only [BitVec.toNat_setWidth]
    omega
  · cases hf
    exact ⟨⟨unBe16 s, fam, true⟩, by simp only [parseAddress, if_neg (not_not.mpr h1)], unBe16_toNat h1, hh, rfl⟩
  · cases hf
    obtain ⟨x, hm, hr, hv, hw⟩ := match_of_friendlyAddress h1
    exact ⟨⟨x.value, x.family, false⟩, by simp only [parseAddress, hm, hr, if_true], hv, hw, rfl⟩
  · cases hf
    exact ⟨⟨unBe16 s, fam, true⟩, by simp only [parseAddress, (matchFriendly_eq_none s).mpr h1, h2, if_true], unBe16_toNat h2, hh, rfl⟩

/-- What ParseAddress answers is an address of R117's relation. -/
theorem parsesTo_of_parseAddress {form hint : BitVec 2} {f : Form} {fam : Family} {n : Word} {s : List Byte} {a : Address}
    (hf : formOperand form = some f) (hh : fam.code.toNat = hintFamily hint) (h : parseAddress f fam n s = .ok a) :
    ParsesTo form hint n.toNat s a.value.toNat a.family.code.toNat (if a.raw then 1 else 0) := by
  rcases parseAddress_ok h with ⟨rfl, h1, rfl⟩ | ⟨rfl, h1, rfl⟩ | ⟨rfl, x, hm, hr, rfl⟩ | ⟨rfl, hm, h2, rfl⟩ <;>
    rcases form_cases form with rfl | rfl | rfl | rfl <;> cases hf
  · refine .inl ⟨rfl, h1, ?_, hh, rfl⟩
    simp only [BitVec.toNat_setWidth]
    omega
  · exact .inr (.inl ⟨rfl, h1, unBe16_toNat h1, hh, rfl⟩)
  · exact .inr (.inr (.inl ⟨rfl, friendlyAddress_of_match hm hr, rfl⟩))
  · exact .inr (.inr (.inr ⟨rfl, (matchFriendly_eq_none s).mp hm, h2, unBe16_toNat h2, hh, rfl⟩))

/-- ParseAddress answers an address or AddressFormatError. -/
theorem parseAddress_cases (f : Form) (fam : Family) (n : Word) (s : List Byte) :
    parseAddress f fam n s = .error .addressFormat ∨ ∃ a, parseAddress f fam n s = .ok a := by
  cases h : parseAddress f fam n s with
  | ok a => exact .inr ⟨a, rfl⟩
  | error e => exact .inl (by rw [parseAddress_error h])

/-! ### Build -/

/-- A datagram of a CEMI frame is six bytes longer (R316). -/
@[simp] theorem plainDatagram_length (P : Params) (c : List Byte) : (plainDatagram P c).length = 6 + c.length := by
  simp [plainDatagram]

/-- The result word of an address that R117's relation gives. -/
theorem addrWord_of {a : Address} {v fam raw : Nat} (hv : a.value.toNat = v) (hf : a.family.code.toNat = fam)
    (hr : (if a.raw then 1 else 0) = raw) : addrWord a = addressWord v fam raw := by
  rw [addrWord_eq, hv, hf, hr]

end Sys2Proof.Machine
end

