-- ==== Sys2Proof/Laws/Datapoint.lean ====
section
/-! SUPPORT. The laws of the DPT 9.001 codec: what the halving loop reaches, and that fields and bytes stand for each other. -/

namespace Sys2Proof.Machine

/-- A value fits the mantissa and its sign (R293). -/
abbrev Dpt9.Fits (raw : Int) : Prop := -2048 ≤ raw ∧ raw ≤ 2047

/-- The halving loop stops at the first exponent at which the value fits, or where the fuel ends (R293). -/
theorem halve_spec (fuel : Nat) (raw : Int) (e : Nat) :
    ∃ k, k ≤ fuel ∧ halve fuel raw e = (raw / 2 ^ k, e + k) ∧ (∀ k', k' < k → ¬ Dpt9.Fits (raw / 2 ^ k')) ∧
      (k < fuel → Dpt9.Fits (raw / 2 ^ k)) := by
  induction fuel generalizing raw e with
  | zero => exact ⟨0, le_refl 0, by simp [halve], fun _ h => absurd h (Nat.not_lt_zero _), fun h => absurd h (Nat.lt_irrefl 0)⟩
  | succ n ih =>
    unfold halve
    by_cases h : raw < -2048 ∨ 2047 < raw
    · rw [if_pos h]
      obtain ⟨k, hk, he, hm, hf⟩ := ih (raw / 2) (e + 1)
      have hdiv : ∀ j : Nat, raw / 2 / 2 ^ j = raw / 2 ^ (j + 1) := fun j => by
        rw [Int.ediv_ediv_of_nonneg (by omega), pow_succ, mul_comm]
      refine ⟨k + 1, by omega, ?_, ?_, ?_⟩
      · rw [he, hdiv, Nat.add_assoc, Nat.add_comm 1 k]
      · intro k' hk'
        cases k' with
        | zero =>
          simp only [Dpt9.Fits, pow_zero, Int.ediv_one]
          omega
        | succ j =>
          rw [← hdiv]
          exact hm j (by omega)
      · intro hlt
        rw [← hdiv]
        exact hf (by omega)
    · rw [if_neg h]
      refine ⟨0, by omega, by simp, fun _ hl => absurd hl (Nat.not_lt_zero _), fun _ => ?_⟩
      simp only [Dpt9.Fits, pow_zero, Int.ediv_one]
      omega

/-- Everything Dpt9Encode can answer (R293): in range, the fields at the least exponent at which the value fits, which is at most
15. -/
theorem dpt9Encode_ok {v : Int} (h1 : -27300 ≤ v) (h2 : v ≤ 67076000) :
    ∃ e : Nat, e ≤ 15 ∧ Dpt9.Fits (v / 2 ^ e) ∧ (∀ e', e' < e → ¬ Dpt9.Fits (v / 2 ^ e')) ∧
      dpt9Encode v = .ok (dpt9Fields (v / 2 ^ e) e) := by
  obtain ⟨k, hk, he, hm, hf⟩ := halve_spec 16 v 0
  have h15 : Dpt9.Fits (v / 2 ^ 15) := by
    norm_num [Dpt9.Fits]
    omega
  have hk15 : k ≤ 15 := by
    by_contra hc
    exact hm 15 (by omega) h15
  refine ⟨k, hk15, hf (by omega), hm, ?_⟩
  rw [dpt9Encode, if_neg (by omega), he, Nat.zero_add]

theorem dpt9Encode_range {v : Int} (h : v < -27300 ∨ 67076000 < v) : dpt9Encode v = .error .range := by
  rw [dpt9Encode, if_pos h]

/-- The fields of a value that fits, as numbers (R293). -/
theorem dpt9Fields_eq {raw : Int} {e : Nat} (h : Dpt9.Fits raw) (he : e ≤ 15) :
    (dpt9Fields raw e).sign.toNat = (if raw < 0 then 1 else 0) ∧ (dpt9Fields raw e).exponent.toNat = e ∧
      (dpt9Fields raw e).mantissa.toNat = (raw % 2048).toNat := by
  obtain ⟨h1, h2⟩ := h
  unfold dpt9Fields
  split
  · simp only [BitVec.toNat_ofNat]
    refine ⟨rfl, by omega, by omega⟩
  · simp only [BitVec.toNat_ofNat]
    refine ⟨rfl, by omega, by omega⟩

theorem Dpt9.value_eq (d : Dpt9) :
    d.value = ((d.mantissa.toNat : Int) - (if d.sign.toNat = 1 then 2048 else 0)) * 2 ^ d.exponent.toNat := by
  have : d.sign = 1 ↔ d.sign.toNat = 1 := by
    constructor
    · intro h
      rw [h]
      rfl
    · intro h
      exact BitVec.eq_of_toNat_eq h
  unfold Dpt9.value
  by_cases h : d.sign = 1
  · rw [if_pos h, if_pos (this.mp h)]
  · rw [if_neg h, if_neg (fun e => h (this.mpr e)), Int.sub_zero]

/-- The value of the fields of a value that fits (R292, R293). -/
theorem dpt9Fields_value {raw : Int} {e : Nat} (h : Dpt9.Fits raw) (he : e ≤ 15) : (dpt9Fields raw e).value = raw * 2 ^ e := by
  obtain ⟨hs, hx, hm⟩ := dpt9Fields_eq h he
  obtain ⟨h1, h2⟩ := h
  rw [Dpt9.value_eq, hs, hx, hm]
  congr 1
  split <;> omega

/-- The fields of two bytes, as numbers (R89). -/
theorem Dpt9.ofBytes_eq (b0 b1 : Byte) :
    (Dpt9.ofBytes b0 b1).sign.toNat = b0.toNat / 128 ∧ (Dpt9.ofBytes b0 b1).exponent.toNat = b0.toNat / 8 % 16 ∧
      (Dpt9.ofBytes b0 b1).mantissa.toNat = b0.toNat % 8 * 256 + b1.toNat := by
  have h0 := b0.isLt
  refine ⟨?_, ?_, Dpt9.ofBytes_mantissa b0 b1⟩
  · simp only [Dpt9.ofBytes, extractLsb'_toNat_eq]
    omega
  · simp only [Dpt9.ofBytes, extractLsb'_toNat_eq]
    norm_num

/-- The two bytes of fields read back as the fields (R89). -/
theorem Dpt9.ofBytes_bytes (d : Dpt9) :
    Dpt9.ofBytes (d.bytes.getD 0 0) (d.bytes.getD 1 0) = d := by
  have h1 := d.sign.isLt
  have h2 := d.exponent.isLt
  have h3 := d.mantissa.isLt
  obtain ⟨es, ee, em⟩ := Dpt9.ofBytes_eq (d.bytes.getD 0 0) (d.bytes.getD 1 0)
  rw [Dpt9.bytes_eq] at *
  simp only [List.getD_cons_zero, List.getD_cons_succ, BitVec.toNat_ofNat] at *
  generalize Dpt9.ofBytes _ _ = x at *
  obtain ⟨xs, xe, xm⟩ := x
  obtain ⟨ds, de, dm⟩ := d
  simp only [Dpt9.mk.injEq] at *
  exact ⟨BitVec.eq_of_toNat_eq (by omega), BitVec.eq_of_toNat_eq (by omega), BitVec.eq_of_toNat_eq (by omega)⟩

/-- The two bytes of the fields of two bytes are those bytes (R89). -/
theorem Dpt9.bytes_ofBytes (b0 b1 : Byte) : (Dpt9.ofBytes b0 b1).bytes = [b0, b1] := by
  have h0 := b0.isLt
  have h1 := b1.isLt
  obtain ⟨es, ee, em⟩ := Dpt9.ofBytes_eq b0 b1
  rw [Dpt9.bytes_eq, es, ee, em]
  simp only [List.cons.injEq, and_true]
  constructor <;> apply BitVec.eq_of_toNat_eq <;> simp only [BitVec.toNat_ofNat] <;> omega

end Sys2Proof.Machine
end

