-- ==== Sys2Proof/Laws/Decode.lean ====
section
/-! SUPPORT. The laws of the command word: its three fields, and the field a bit of it stands in. -/

namespace Sys2Proof

open Machine

@[simp] theorem opcodeOf_commandWord (imm : Half) (mode opcode : Byte) : opcodeOf (commandWord imm mode opcode) = opcode := by
  apply BitVec.eq_of_getLsbD_eq
  intro i hi
  interval_cases i <;> simp [opcodeOf, commandWord]

@[simp] theorem modeOf_commandWord (imm : Half) (mode opcode : Byte) : modeOf (commandWord imm mode opcode) = mode := by
  apply BitVec.eq_of_getLsbD_eq
  intro i hi
  interval_cases i <;> simp [modeOf, commandWord]

@[simp] theorem immOf_commandWord (imm : Half) (mode opcode : Byte) : immOf (commandWord imm mode opcode) = imm := by
  apply BitVec.eq_of_getLsbD_eq
  intro i hi
  interval_cases i <;> simp [immOf, commandWord]

/-- A command word is its three fields (R90). -/
theorem commandWord_fields (w : Word) : commandWord (immOf w) (modeOf w) (opcodeOf w) = w := by
  apply BitVec.eq_of_getLsbD_eq
  intro i hi
  interval_cases i <;> simp [commandWord, immOf, modeOf, opcodeOf]

@[simp] theorem modeFormHint_form (form hint : BitVec 2) : (modeFormHint form hint).extractLsb' 0 2 = form := by
  apply BitVec.eq_of_getLsbD_eq
  intro i hi
  interval_cases i <;> simp [modeFormHint]

@[simp] theorem modeFormHint_hint (form hint : BitVec 2) : (modeFormHint form hint).extractLsb' 2 2 = hint := by
  apply BitVec.eq_of_getLsbD_eq
  intro i hi
  interval_cases i <;> simp [modeFormHint]

/-- The command a word names depends on its opcode first (R91). -/
theorem decode_opcode {w : Word} {i : Instr} (h : decode w = .ok i) : opcodeOf w = i.opcode := by
  unfold decode at h
  split at h <;> cases h <;> (apply BitVec.eq_of_toNat_eq; assumption)

end Sys2Proof
end

