-- ==== Sys2Proof/Laws/PerInstr.lean ====
section
/-! SUPPORT. One lemma per command of what holds of all of them: encoding a command sets no bit that its row does not name (R92),
and writes the opcode of its row (R91). -/

namespace Sys2Proof.Laws.EncodeInUsedBits

open Machine

/-- The command word of a command has no bit outside the fields its row lists, and its opcode field is the command's. -/
def Statement (i : Instr) : Prop := encode i &&& ~~~ i.usedBits = 0 ∧ opcodeOf (encode i) = i.opcode

/-- A command word whose MODE holds FORM and HINT alone has MODE[7:4] = 0. -/
theorem commandWord_formHint (imm : Half) (form hint : BitVec 2) (opcode : Byte) :
    commandWord imm (modeFormHint form hint) opcode &&& ~~~(0xFFFF0FFF : Word) = 0 := by
  have hu : ∀ j, j < 32 → (0xFFFF0FFF : Word).getLsbD j = false → 12 ≤ j ∧ j < 16 := by decide
  apply BitVec.eq_of_getLsbD_eq
  intro j hj
  cases h : (0xFFFF0FFF : Word).getLsbD j with
  | true => rw [BitVec.getLsbD_and, BitVec.getLsbD_not, h]; simp
  | false =>
    obtain ⟨h1, h2⟩ := hu j hj h
    interval_cases j <;> simp [commandWord, modeFormHint]

theorem addrParse (form hint : BitVec 2) : Statement (.addrParse form hint) :=
  ⟨by revert form hint; decide, opcodeOf_commandWord _ _ _⟩

theorem addrRender (fmt : BitVec 2) : Statement (.addrRender fmt) :=
  ⟨by revert fmt; decide, opcodeOf_commandWord _ _ _⟩

theorem tblResolve (dir : BitVec 1) (table : BitVec 3) : Statement (.tblResolve dir table) :=
  ⟨by revert dir table; decide, opcodeOf_commandWord _ _ _⟩

theorem apciPack : Statement .apciPack := by
  constructor <;> decide

theorem apciUnpack : Statement .apciUnpack := by
  constructor <;> decide

theorem cemiEncode : Statement .cemiEncode := by
  constructor <;> decide

theorem cemiDecode : Statement .cemiDecode := by
  constructor <;> decide

theorem hdrEncode : Statement .hdrEncode := by
  constructor <;> decide

theorem hdrDecode : Statement .hdrDecode := by
  constructor <;> decide

theorem secNonce (kind : BitVec 1) : Statement (.secNonce kind) :=
  ⟨by revert kind; decide, opcodeOf_commandWord _ _ _⟩

theorem cmacGen : Statement .cmacGen := by
  constructor <;> decide

theorem secUnwrap : Statement .secUnwrap := by
  constructor <;> decide

theorem secTimerVerify : Statement .secTimerVerify := by
  constructor <;> decide

theorem secWrap : Statement .secWrap := by
  constructor <;> decide

theorem dptDecode : Statement .dptDecode := by
  constructor <;> decide

theorem dptEncode : Statement .dptEncode := by
  constructor <;> decide

theorem buildAction (form hint : BitVec 2) (imm : Half) : Statement (.buildAction form hint imm) :=
  ⟨commandWord_formHint _ _ _ _, opcodeOf_commandWord _ _ _⟩

theorem buildStatus (form hint : BitVec 2) (imm : Half) : Statement (.buildStatus form hint imm) :=
  ⟨commandWord_formHint _ _ _ _, opcodeOf_commandWord _ _ _⟩

theorem buildResponse (form hint : BitVec 2) (imm : Half) : Statement (.buildResponse form hint imm) :=
  ⟨commandWord_formHint _ _ _ _, opcodeOf_commandWord _ _ _⟩

theorem decode : Statement .decode := by
  constructor <;> decide

end Sys2Proof.Laws.EncodeInUsedBits
end

