-- ==== Sys2Proof/Laws/Secure.lean ====
section
/-! SUPPORT. The laws of the secure frame processor: everything UnwrapCore and TimerCore can answer at the parameters of R6, and the
datagram SEC_WRAP writes. -/

namespace Sys2Proof.Machine

/-- The timestamp, serial and tag of a wrapper are its bytes [8, 22) (R82). -/
theorem wrapperTail_fields (b : List Byte) (rl : Nat) :
    (wrapperTail b rl).ts ++ (wrapperTail b rl).ser ++ (wrapperTail b rl).tag = slice b 8 22 := by
  simp only [wrapperTail]
  rw [slice_append_slice _ (by omega) (by omega), slice_append_slice _ (by omega) (by omega)]

/-- The timestamp, serial and tag of a timer notify are its bytes [6, 20) (R83). -/
theorem timerTail_fields (b : List Byte) :
    (timerTail b).ts ++ (timerTail b).ser ++ (timerTail b).tag = slice b 6 20 := by
  simp only [timerTail]
  rw [slice_append_slice _ (by omega) (by omega), slice_append_slice _ (by omega) (by omega)]

/-- The tag UnwrapCore computes (R268). -/
theorem wrapperTag_eq (key : Block) {b : List Byte} (h : ¬ HeaderBad b) (hr : wireHalf b 2 = 0x0950) :
    wrapperTag key (wrapperTail b (wireHalf b 4)).ts (wrapperTail b (wireHalf b 4)).ser (wrapperTail b (wireHalf b 4)).tag
      (wrapperTail b (wireHalf b 4)).c = wrapperMac key b := by
  have hc := wrapperTail_c_length h hr
  simp only [HeaderBad, not_or] at h
  rw [wrapperTag, nonceAuth, wrapperTail_fields, hc, wrapperMac]
  simp only [wrapperTail]
  rw [show 22 + (wireHalf b 4 - 38) = wireHalf b 4 - 16 by omega]

theorem wrapperTail_cmac {b : List Byte} (h : ¬ HeaderBad b) (hr : wireHalf b 2 = 0x0950) :
    (wrapperTail b (wireHalf b 4)).cmac = storedMac b := by
  simp only [HeaderBad, not_or] at h
  simp only [wrapperTail, storedMac]
  rw [show 22 + (wireHalf b 4 - 38) = wireHalf b 4 - 16 by omega]

/-- The plaintext UnwrapCore computes (R269). -/
theorem secCipher_eq (key : Block) {b : List Byte} (h : ¬ HeaderBad b) (hr : wireHalf b 2 = 0x0950) :
    Config.params.secCipher key
      (nonceDec ((wrapperTail b (wireHalf b 4)).ts ++ (wrapperTail b (wireHalf b 4)).ser ++ (wrapperTail b (wireHalf b 4)).tag))
      (wrapperTail b (wireHalf b 4)).c = some (wrapperPlain key b) := by
  have hc := wrapperTail_c_length h hr
  simp only [HeaderBad, not_or] at h
  have hs : (wrapperTail b (wireHalf b 4)).c = slice b 22 (wireHalf b 4 - 16) := by
    simp only [wrapperTail]
    rw [show 22 + (wireHalf b 4 - 38) = wireHalf b 4 - 16 by omega]
  show some (keystreamCipher _ _ _) = _
  rw [keystreamCipher, hc, hs, wrapperTail_fields, nonceDec, wrapperPlain]

/-- UnwrapCore of a byte string that fails the length checks (R267). -/
theorem unwrapCore_bad (key : Block) (keyValid : Bool) {b : List Byte} (h : HeaderBad b) :
    unwrapCore Config.params key keyValid b = .error ⟨.headerLength, .none⟩ := by
  simp only [unwrapCore, hdrDecodeBytes_bad h]

/-- UnwrapCore of a datagram that is no wrapper (R267). -/
theorem unwrapCore_other (key : Block) (keyValid : Bool) {b : List Byte} (h : ¬ HeaderBad b) (hr : wireHalf b 2 ≠ 0x0950) :
    unwrapCore Config.params key keyValid b = .error ⟨.unsupportedFrame, .none⟩ := by
  by_cases ht : wireHalf b 2 = 0x0955
  · simp only [unwrapCore, hdrDecodeBytes_timer h ht, headerOf_tail]
  · simp only [unwrapCore, hdrDecodeBytes_plain h hr ht, headerOf_tail]

/-- UnwrapCore of a wrapper (R267 to R269). -/
theorem unwrapCore_wrapper (key : Block) (keyValid : Bool) {b : List Byte} (h : ¬ HeaderBad b) (hr : wireHalf b 2 = 0x0950) :
    unwrapCore Config.params key keyValid b =
      if keyValid = false then .error ⟨.keyRequired, .wrapped⟩
      else if wrapperMac key b ≠ storedMac b then .error ⟨.authentication, .rejected⟩
      else .ok (headerOf b (.wrapper (wrapperTail b (wireHalf b 4))), wrapperTail b (wireHalf b 4), wrapperPlain key b) := by
  simp only [unwrapCore, hdrDecodeBytes_wrapper h hr, headerOf_tail, wrapperTag_eq key h hr, wrapperTail_cmac h hr,
    secCipher_eq key h hr]

/-- TimerCore of a byte string that fails the length checks (R271). -/
theorem timerCore_bad (key : Block) (keyValid : Bool) {b : List Byte} (h : HeaderBad b) :
    timerCore Config.params key keyValid b = .error ⟨.headerLength, .none⟩ := by
  simp only [timerCore, hdrDecodeBytes_bad h]

/-- TimerCore of a datagram that is no timer notify (R271). -/
theorem timerCore_other (key : Block) (keyValid : Bool) {b : List Byte} (h : ¬ HeaderBad b) (hr : wireHalf b 2 ≠ 0x0955) :
    timerCore Config.params key keyValid b = .error ⟨.unsupportedFrame, .none⟩ := by
  by_cases hw : wireHalf b 2 = 0x0950
  · simp only [timerCore, hdrDecodeBytes_wrapper h hw, headerOf_tail]
  · simp only [timerCore, hdrDecodeBytes_plain h hw hr, headerOf_tail]

/-- TimerCore of a timer notify (R271). -/
theorem timerCore_timer (key : Block) (keyValid : Bool) {b : List Byte} (h : ¬ HeaderBad b) (hr : wireHalf b 2 = 0x0955) :
    timerCore Config.params key keyValid b =
      if keyValid = false then .error ⟨.keyRequired, .wrapped⟩
      else if timerMac key b ≠ slice b 20 36 then .error ⟨.authentication, .rejected⟩
      else .ok (headerOf b (.timer (timerTail b)), timerTail b) := by
  have hm : cmac key (nonceAuth ((timerTail b).ts ++ (timerTail b).ser ++ (timerTail b).tag) 0) = timerMac key b := by
    rw [nonceAuth, timerTail_fields]
    rfl
  have hc : (timerTail b).cmac = slice b 20 36 := rfl
  simp only [timerCore, hdrDecodeBytes_timer h hr, headerOf_tail, hm, hc]

/-- A wrapper's plaintext is as long as its encrypted frame (R266). -/
theorem wrapperPlain_length (key : Block) {b : List Byte} (h : ¬ HeaderBad b) :
    (wrapperPlain key b).length = wireHalf b 4 - 38 := by
  simp only [HeaderBad, not_or] at h
  simp only [wrapperPlain, xorBytes_length, slice_length, keystream_length]
  omega

/-! ### The wrapper SEC_WRAP writes -/

/-- The wrapper as its four pieces: header, tail fields, encrypted frame, tag (R272). -/
theorem wrapDatagram_eq (key : Block) (version : Byte) (sid ts ser tag p : List Byte) :
    wrapDatagram Config.params key version sid ts ser tag p =
      encodeHeader version 0x0950 (BitVec.ofNat 16 (38 + p.length)) ++ (sid ++ ts ++ ser ++ tag) ++
        keystreamCipher key (nonceDec (ts ++ ser ++ tag)) p ++
        wrapperTag key ts ser tag (keystreamCipher key (nonceDec (ts ++ ser ++ tag)) p) := by
  simp only [wrapDatagram, params_reqSecureWrapper, List.append_assoc]
  rfl

/-- The fields a decoder reads from four such pieces. -/
theorem wrapper_fields (version : Byte) {n : Nat} (hn : n ≤ 65497) {fields c mac : List Byte} (hf : fields.length = 16)
    (hc : c.length = n) (hm : mac.length = 16) {w : List Byte}
    (hw : w = encodeHeader version 0x0950 (BitVec.ofNat 16 (38 + n)) ++ fields ++ c ++ mac) :
    w.length = 38 + n ∧ wireHalf w 2 = 0x0950 ∧ wireHalf w 4 = 38 + n ∧ slice w 6 22 = fields ∧
      slice w 8 22 = fields.drop 2 ∧ slice w 22 (22 + n) = c ∧ storedMac w = mac := by
  have hlen : (encodeHeader version 0x0950 (BitVec.ofNat 16 (38 + n))).length = 6 := encodeHeader_length _ _ _
  have h4 : wireHalf w 4 = 38 + n := by
    subst hw
    simp only [wireHalf, encodeHeader, be16_ofNat]
    simp [be16]
    omega
  refine ⟨?_, ?_, h4, ?_, ?_, ?_, ?_⟩
  · subst hw
    simp only [List.length_append, hlen, hf, hc, hm]
    omega
  · subst hw
    simp only [wireHalf, encodeHeader, be16_ofNat]
    simp [be16]
  · subst hw
    rw [List.append_assoc]
    exact slice_append_mid _ _ _ hlen (by rw [hf])
  · subst hw
    have : encodeHeader version 0x0950 (BitVec.ofNat 16 (38 + n)) ++ fields ++ c ++ mac =
        (encodeHeader version 0x0950 (BitVec.ofNat 16 (38 + n)) ++ fields.take 2) ++ fields.drop 2 ++ (c ++ mac) := by
      simp only [List.append_assoc]
      rw [← List.append_assoc (fields.take 2), List.take_append_drop]
    rw [this]
    exact slice_append_mid _ _ _ (by simp [hf]) (by simp [hf])
  · subst hw
    exact slice_append_mid _ _ _ (by simp [hf]) (by rw [hc])
  · rw [storedMac, h4]
    have : w = (encodeHeader version 0x0950 (BitVec.ofNat 16 (38 + n)) ++ fields ++ c) ++ mac ++ [] := by simp [hw]
    rw [this]
    exact slice_append_mid _ _ _ (by simp [hf, hc]; omega) (by rw [hm]; omega)

end Sys2Proof.Machine
end

