-- ==== Sys2Proof/Laws/Rules.lean ====
section
/-! SUPPORT. Everything a command's rule can come to: which errors, with which SEC_STATE, and how long an output. -/

namespace Sys2Proof.Machine

/-- An error of a codec that authenticates nothing (R400, R403): SEC_STATE is NONE, and the error is neither of a key, a tag nor an
encoding. -/
def PlainError (e : Raised) : Prop := e.sec = .none ∧ e.err ≠ .authentication ∧ e.err ≠ .illegalCommand

/-- How a secure command ends with an error once its tail was parsed (R262). -/
def SecureError (e : Raised) : Prop :=
  e = ⟨.keyRequired, .wrapped⟩ ∨ e = ⟨.authentication, .rejected⟩ ∨
    (e.sec = .authenticated ∧ e.err ≠ .authentication ∧ e.err ≠ .illegalCommand)

/-! ### Errors, command by command -/

theorem addrParse_error {form hint : BitVec 2} {s : State} {e : Raised} (h : addrParse form hint s = .error e) :
    (e = ⟨.illegalCommand, .none⟩ ∧ (form = 3 ∨ hint = 3)) ∨ PlainError e := by
  unfold addrParse at h
  split at h
  · split at h
    · cases h
    · rename_i x hx
      cases h
      rw [parseAddress_error hx]
      exact .inr ⟨rfl, by decide, by decide⟩
  · rename_i hn
    cases h
    refine .inl ⟨rfl, ?_⟩
    by_contra hc
    simp only [not_or] at hc
    obtain ⟨x, hx, -⟩ := hintOperand_legal hc.2
    rcases form_cases form with rfl | rfl | rfl | rfl
    · exact hn _ _ formOperand_zero hx
    · exact hn _ _ formOperand_one hx
    · exact hn _ _ formOperand_two hx
    · exact hc.1 rfl

theorem builderInputs_error {f : Form} {fam : Family} {imm : Half} {s : State} {e : ErrCode}
    (h : builderInputs f fam imm s = .error e) : e = .addressFormat ∨ e = .frameTruncated := by
  unfold builderInputs at h
  split at h
  · split at h
    · cases h
    · rename_i hx
      cases h
      exact .inl (parseAddress_error hx)
  · split at h
    · cases h
      exact .inr rfl
    · split at h
      · cases h
      · rename_i hx
        cases h
        exact .inl (parseAddress_error hx)

theorem build_error {code : BitVec 10} {useData : Bool} {form hint : BitVec 2} {imm : Half} {s : State} {e : Raised}
    (h : build Config.params code useData form hint imm s = .error e) :
    (e = ⟨.illegalCommand, .none⟩ ∧ (form = 3 ∨ hint = 3)) ∨ PlainError e := by
  unfold build at h
  split at h
  · split at h
    · rename_i x hx
      cases h
      rcases builderInputs_error hx with rfl | rfl <;> exact .inr ⟨rfl, by decide, by decide⟩
    · split at h
      · rename_i x hx
        cases h
        rcases cemiEncodeFrame_cases Config.params _ _ with hc | ⟨c, hc, -⟩
        · rw [hc] at hx
          cases hx
          exact .inr ⟨rfl, by decide, by decide⟩
        · rw [hc] at hx
          cases hx
      · cases h
  · rename_i hn
    cases h
    refine .inl ⟨rfl, ?_⟩
    by_contra hc
    simp only [not_or] at hc
    obtain ⟨x, hx, -⟩ := hintOperand_legal hc.2
    rcases form_cases form with rfl | rfl | rfl | rfl
    · exact hn _ _ formOperand_zero hx
    · exact hn _ _ formOperand_one hx
    · exact hn _ _ formOperand_two hx
    · exact hc.1 rfl

theorem unwrapCore_error {key : Block} {kv : Bool} {b : List Byte} {e : Raised}
    (h : unwrapCore Config.params key kv b = .error e) : PlainError e ∨ SecureError e := by
  by_cases hb : HeaderBad b
  · rw [unwrapCore_bad _ _ hb] at h
    cases h
    exact .inl ⟨rfl, by decide, by decide⟩
  · by_cases hr : wireHalf b 2 = 0x0950
    · rw [unwrapCore_wrapper _ _ hb hr] at h
      split at h
      · cases h
        exact .inr (.inl rfl)
      · split at h
        · cases h
          exact .inr (.inr (.inl rfl))
        · cases h
    · rw [unwrapCore_other _ _ hb hr] at h
      cases h
      exact .inl ⟨rfl, by decide, by decide⟩

theorem timerCore_error {key : Block} {kv : Bool} {b : List Byte} {e : Raised}
    (h : timerCore Config.params key kv b = .error e) : PlainError e ∨ SecureError e := by
  by_cases hb : HeaderBad b
  · rw [timerCore_bad _ _ hb] at h
    cases h
    exact .inl ⟨rfl, by decide, by decide⟩
  · by_cases hr : wireHalf b 2 = 0x0955
    · rw [timerCore_timer _ _ hb hr] at h
      split at h
      · cases h
        exact .inr (.inl rfl)
      · split at h
        · cases h
          exact .inr (.inr (.inl rfl))
        · cases h
    · rw [timerCore_other _ _ hb hr] at h
      cases h
      exact .inl ⟨rfl, by decide, by decide⟩

theorem decodeDatagram_error {s : State} {e : Raised} (h : decodeDatagram Config.params s = .error e) :
    PlainError e ∨ SecureError e := by
  unfold decodeDatagram at h
  split at h
  · rename_i x hx
    cases h
    rw [hdrDecodeBytes_error hx]
    exact .inl ⟨rfl, by decide, by decide⟩
  · split at h
    · unfold decodeWrapper at h
      split at h
      · rename_i x hx
        cases h
        exact unwrapCore_error hx
      · split at h
        · rename_i x hx
          cases h
          rw [hdrDecodeBytes_error hx]
          exact .inr (.inr (.inr ⟨rfl, by decide, by decide⟩))
        · split at h
          · cases h
            exact .inr (.inr (.inr ⟨rfl, by decide, by decide⟩))
          · split at h
            · rename_i x hx
              cases h
              rw [cemiDecodeFrame_error hx]
              exact .inr (.inr (.inr ⟨rfl, by decide, by decide⟩))
            · cases h
    · unfold decodeTimer at h
      split at h
      · rename_i x hx
        cases h
        exact timerCore_error hx
      · cases h
    · unfold decodePlain at h
      split at h
      · cases h
      · split at h
        · rename_i x hx
          cases h
          rw [cemiDecodeFrame_error hx]
          exact .inl ⟨rfl, by decide, by decide⟩
        · cases h

/-- The commands that run the secure state machine (R33, R262). -/
def Secure (i : Instr) : Prop := i = .secUnwrap ∨ i = .secTimerVerify ∨ i = .decode

/-- Every error a command can end with (R400, R403). -/
theorem ruleOf_error {i : Instr} {s : State} {e : Raised} (h : ruleOf i s = .error e) :
    (e = ⟨.illegalCommand, .none⟩ ∧ i.wellFormed = false) ∨ PlainError e ∨ (Secure i ∧ SecureError e) := by
  have bad : ∀ form hint : BitVec 2, form = 3 ∨ hint = 3 → (form != 3 && hint != 3) = false := by decide
  have plain : ∀ x : ErrCode, x ≠ .authentication → x ≠ .illegalCommand → e = ⟨x, .none⟩ → PlainError e := by
    rintro x h1 h2 rfl
    exact ⟨rfl, h1, h2⟩
  cases i <;> simp only [ruleOf] at h
  case addrParse form hint =>
    rcases addrParse_error h with ⟨he, hf⟩ | hp
    · exact .inl ⟨he, bad form hint hf⟩
    · exact .inr (.inl hp)
  case addrRender fmt =>
    revert h
    rcases form_cases fmt with rfl | rfl | rfl | rfl <;> intro h <;> cases h
    exact .inl ⟨rfl, rfl⟩
  case tblResolve dir table =>
    unfold tblResolve at h
    split at h
    · rename_i hn
      cases h
      refine .inl ⟨rfl, ?_⟩
      have : ∀ d : BitVec 1, ∀ t : BitVec 3, tableOperand Config.params t = none → (Instr.tblResolve d t).wellFormed = false := by
        decide
      exact this dir table hn
    · split at h <;> cases h
  case apciPack => cases h
  case apciUnpack =>
    unfold apciUnpack at h
    simp only at h
    split at h
    · cases h
    · rename_i x hx
      cases h
      exact .inr (.inl (plain _ (by rw [unpack_error hx]; decide) (by rw [unpack_error hx]; decide) rfl))
  case cemiEncode =>
    unfold cemiEncode at h
    split at h
    · cases h
    · rename_i x hx
      cases h
      rcases cemiEncodeFrame_cases Config.params (cemiOperands s) s.inSample with hc | ⟨c, hc, -⟩ <;> rw [hc] at hx <;> cases hx
      exact .inr (.inl (plain _ (by decide) (by decide) rfl))
  case cemiDecode =>
    unfold cemiDecode at h
    split at h
    · cases h
    · rename_i x hx
      cases h
      exact .inr (.inl (plain _ (by rw [cemiDecodeFrame_error hx]; decide) (by rw [cemiDecodeFrame_error hx]; decide) rfl))
  case hdrEncode =>
    unfold hdrEncode at h
    split at h <;> cases h
    exact .inr (.inl (plain _ (by decide) (by decide) rfl))
  case hdrDecode =>
    unfold hdrDecode at h
    split at h
    · cases h
    · rename_i x hx
      cases h
      exact .inr (.inl (plain _ (by rw [hdrDecodeBytes_error hx]; decide) (by rw [hdrDecodeBytes_error hx]; decide) rfl))
  case secNonce kind =>
    unfold secNonce at h
    split at h
    · cases h
      exact .inr (.inl (plain _ (by decide) (by decide) rfl))
    · split at h <;> cases h
  case cmacGen =>
    unfold cmacGen at h
    split at h <;> cases h
    exact .inr (.inl (plain _ (by decide) (by decide) rfl))
  case secUnwrap =>
    unfold secUnwrap at h
    split at h
    · rename_i x hx
      cases h
      rcases unwrapCore_error hx with hp | hp
      · exact .inr (.inl hp)
      · exact .inr (.inr ⟨.inl rfl, hp⟩)
    · cases h
  case secTimerVerify =>
    unfold secTimerVerify at h
    split at h
    · rename_i x hx
      cases h
      rcases timerCore_error hx with hp | hp
      · exact .inr (.inl hp)
      · exact .inr (.inr ⟨.inr (.inl rfl), hp⟩)
    · cases h
  case secWrap =>
    unfold secWrap at h
    simp only at h
    split at h
    · cases h
      exact .inr (.inl (plain _ (by decide) (by decide) rfl))
    · split at h
      · cases h
        exact .inr (.inl (plain _ (by decide) (by decide) rfl))
      · split at h <;> cases h
        exact .inr (.inl (plain _ (by decide) (by decide) rfl))
  case dptDecode =>
    unfold dptDecode at h
    split at h
    · cases h
      exact .inr (.inl (plain _ (by decide) (by decide) rfl))
    · split at h <;> cases h
      exact .inr (.inl (plain _ (by decide) (by decide) rfl))
  case dptEncode =>
    unfold dptEncode at h
    split at h
    · cases h
      exact .inr (.inl (plain _ (by decide) (by decide) rfl))
    · split at h
      · cases h
      · rename_i x hx
        cases h
        unfold dpt9Encode at hx
        split at hx <;> cases hx
        exact .inr (.inl (plain _ (by decide) (by decide) rfl))
  case buildAction form hint imm =>
    rcases build_error h with ⟨he, hf⟩ | hp
    · exact .inl ⟨he, bad form hint hf⟩
    · exact .inr (.inl hp)
  case buildStatus form hint imm =>
    rcases build_error h with ⟨he, hf⟩ | hp
    · exact .inl ⟨he, bad form hint hf⟩
    · exact .inr (.inl hp)
  case buildResponse form hint imm =>
    rcases build_error h with ⟨he, hf⟩ | hp
    · exact .inl ⟨he, bad form hint hf⟩
    · exact .inr (.inl hp)
  case decode =>
    rcases decodeDatagram_error h with hp | hp
    · exact .inr (.inl hp)
    · exact .inr (.inr ⟨.inr (.inr rfl), hp⟩)

/-- An ill-formed command raises IllegalCommandError, whatever its inputs (R94). -/
theorem ruleOf_illFormed {i : Instr} (h : i.wellFormed = false) (s : State) :
    ruleOf i s = .error ⟨.illegalCommand, .none⟩ := by
  have bad : ∀ form hint : BitVec 2, (form != 3 && hint != 3) = false → form = 3 ∨ hint = 3 := by decide
  have two : ∀ form hint : BitVec 2, form = 3 ∨ hint = 3 → formOperand form = none ∨ hintOperand hint = none := by decide
  cases i <;> simp only [Instr.wellFormed] at h <;> try cases h
  case addrParse form hint =>
    rcases two _ _ (bad _ _ h) with hn | hn
    · simp only [ruleOf, addrParse, hn, illegal]
    · cases hf : formOperand form <;> simp only [ruleOf, addrParse, hf, hn, illegal]
  case addrRender fmt =>
    have : fmt = 3 := by
      revert fmt
      decide
    subst this
    rfl
  case tblResolve dir table =>
    have : tableOperand Config.params table = none := by
      revert table
      decide
    simp only [ruleOf, tblResolve, this, illegal]
  case buildAction form hint imm =>
    rcases two _ _ (bad _ _ h) with hn | hn
    · simp only [ruleOf, build, hn, illegal]
    · cases hf : formOperand form <;> simp only [ruleOf, build, hf, hn, illegal]
  case buildStatus form hint imm =>
    rcases two _ _ (bad _ _ h) with hn | hn
    · simp only [ruleOf, build, hn, illegal]
    · cases hf : formOperand form <;> simp only [ruleOf, build, hf, hn, illegal]
  case buildResponse form hint imm =>
    rcases two _ _ (bad _ _ h) with hn | hn
    · simp only [ruleOf, build, hn, illegal]
    · cases hf : formOperand form <;> simp only [ruleOf, build, hf, hn, illegal]

/-! ### Normal ends -/

theorem slice_length_le (b : List Byte) (i j : Nat) : (slice b i j).length ≤ b.length := by
  simp only [slice_length]
  omega

/-- What a secure command that ends normally leaves in SEC_STATE and how long its output is (R266, R270). -/
theorem secUnwrap_ok {s : State} {d : Done} (h : secUnwrap Config.params s = .ok d) :
    d.sec = .authenticated ∧ d.out.length ≤ s.inSample.length := by
  unfold secUnwrap at h
  split at h
  · cases h
  · rename_i x t p hx
    cases h
    refine ⟨rfl, ?_⟩
    by_cases hb : HeaderBad s.inSample
    · rw [unwrapCore_bad _ _ hb] at hx
      cases hx
    · by_cases hr : wireHalf s.inSample 2 = 0x0950
      · rw [unwrapCore_wrapper _ _ hb hr] at hx
        split at hx
        · cases hx
        · split at hx
          · cases hx
          · cases hx
            simp only [wrapperPlain_length _ hb]
            simp only [HeaderBad, not_or] at hb
            omega
      · rw [unwrapCore_other _ _ hb hr] at hx
        cases hx

/-- The output and SEC_STATE of a timer notify that authenticates (R270, R271). -/
theorem timerCore_ok {key : Block} {kv : Bool} {b : List Byte} {h : Header} {t : TimerTail}
    (e : timerCore Config.params key kv b = .ok (h, t)) :
    ¬ HeaderBad b ∧ wireHalf b 2 = 0x0955 ∧ h = headerOf b (.timer (timerTail b)) ∧ t = timerTail b := by
  by_cases hb : HeaderBad b
  · rw [timerCore_bad _ _ hb] at e
    cases e
  · by_cases hr : wireHalf b 2 = 0x0955
    · rw [timerCore_timer _ _ hb hr] at e
      split at e
      · cases e
      · split at e <;> cases e
        exact ⟨hb, hr, rfl, rfl⟩
    · rw [timerCore_other _ _ hb hr] at e
      cases e

theorem decodeDatagram_ok {s : State} {d : Done} (h : decodeDatagram Config.params s = .ok d) :
    (d.sec = .none ∨ d.sec = .authenticated) ∧ (d.out.length ≤ 255 ∨ d.out.length ≤ s.inSample.length) := by
  unfold decodeDatagram at h
  split at h
  · cases h
  · rename_i x hx
    split at h
    · unfold decodeWrapper at h
      split at h
      · cases h
      · split at h
        · cases h
        · split at h
          · cases h
          · split at h
            · cases h
            · rename_i hfr
              cases h
              exact ⟨.inr rfl, .inl (cemiDecodeFrame_data_length hfr)⟩
    · unfold decodeTimer at h
      split at h
      · cases h
      · rename_i y t ht
        cases h
        obtain ⟨-, -, -, rfl⟩ := timerCore_ok ht
        exact ⟨.inr rfl, .inr (by simp only [timerTail_fields]; exact slice_length_le _ _ _)⟩
    · unfold decodePlain at h
      split at h
      · cases h
        refine ⟨.inl rfl, .inr ?_⟩
        obtain ⟨-, ⟨-, rfl⟩ | ⟨-, rfl⟩ | ⟨-, -, rfl⟩⟩ := hdrDecodeBytes_ok hx <;> exact slice_length_le _ _ _
      · split at h
        · cases h
        · rename_i hfr
          cases h
          exact ⟨.inl rfl, .inl (cemiDecodeFrame_data_length hfr)⟩

theorem build_ok {code : BitVec 10} {useData : Bool} {form hint : BitVec 2} {imm : Half} {s : State} {d : Done}
    (h : build Config.params code useData form hint imm s = .ok d) : d.sec = .none ∧ d.out.length ≤ 272 := by
  unfold build at h
  split at h
  · split at h
    · cases h
    · split at h
      · cases h
      · rename_i c hc
        cases h
        rcases cemiEncodeFrame_cases Config.params _ _ with hx | ⟨y, hx, hl⟩
        · rw [hx] at hc
          cases hc
        · rw [hx] at hc
          cases hc
          refine ⟨rfl, ?_⟩
          simp only [plainDatagram_length, params_maxData] at *
          omega
  · cases h

/-- Every normal end (R33, R402): SEC_STATE is NONE, or AUTHENTICATED for a secure command, and the output fits OUT_BUF where the
input fits IN_BUF. -/
theorem ruleOf_ok {i : Instr} {s : State} {d : Done} (h : ruleOf i s = .ok d) :
    (d.sec = .none ∨ (Secure i ∧ d.sec = .authenticated)) ∧ (s.inSample.length ≤ 65535 → d.out.length ≤ 65535) := by
  cases i <;> simp only [ruleOf] at h
  case addrParse form hint =>
    unfold addrParse at h
    split at h
    · split at h <;> cases h
      exact ⟨.inl rfl, fun _ => Nat.zero_le _⟩
    · cases h
  case addrRender fmt =>
    unfold addrRender at h
    split at h <;> cases h
    exact ⟨.inl rfl, fun _ => le_trans (render_length_le _ _) (by omega)⟩
  case tblResolve dir table =>
    unfold tblResolve at h
    split at h
    · cases h
    · split at h <;> cases h <;> exact ⟨.inl rfl, fun _ => Nat.zero_le _⟩
  case apciPack =>
    cases h
    exact ⟨.inl rfl, fun _ => Nat.zero_le _⟩
  case apciUnpack =>
    unfold apciUnpack at h
    simp only at h
    split at h
    · rename_i u hu
      cases h
      refine ⟨.inl rfl, fun _ => ?_⟩
      have := unpack_data_length hu
      have hb := (s.arg0.extractLsb' 10 8).isLt
      simp only
      omega
    · cases h
  case cemiEncode =>
    unfold cemiEncode at h
    split at h
    · rename_i c hc
      cases h
      refine ⟨.inl rfl, fun _ => ?_⟩
      rcases cemiEncodeFrame_cases Config.params (cemiOperands s) s.inSample with hx | ⟨y, hx, hl⟩ <;> rw [hx] at hc <;> cases hc
      simp only [params_maxData] at hl
      simp only
      omega
    · cases h
  case cemiDecode =>
    unfold cemiDecode at h
    split at h
    · rename_i fr hfr
      cases h
      have := cemiDecodeFrame_data_length hfr
      exact ⟨.inl rfl, fun _ => by simp only; omega⟩
    · cases h
  case hdrEncode =>
    unfold hdrEncode at h
    split at h
    · cases h
    · rename_i hn
      cases h
      refine ⟨.inl rfl, fun _ => ?_⟩
      simp only [params_bufBytes] at hn
      simp only [List.length_append, encodeHeader_length]
      omega
  case hdrDecode =>
    unfold hdrDecode at h
    split at h
    · rename_i x hx
      cases h
      refine ⟨.inl rfl, fun hl => ?_⟩
      have := slice_length_le s.inSample 6 (wireHalf s.inSample 4)
      obtain ⟨-, ⟨-, rfl⟩ | ⟨-, rfl⟩ | ⟨-, -, rfl⟩⟩ := hdrDecodeBytes_ok hx <;> simp only [headerOf_payload] <;> omega
    · cases h
  case secNonce kind =>
    unfold secNonce at h
    split at h
    · cases h
    · have := slice_length_le s.inSample 0 14
      split at h <;> cases h <;> refine ⟨.inl rfl, fun hl => ?_⟩ <;>
        simp only [nonceAuth, nonceDec, List.length_append, be16_length, List.length_cons, List.length_nil, slice_length] <;> omega
  case cmacGen =>
    unfold cmacGen at h
    split at h <;> cases h
    exact ⟨.inl rfl, fun _ => by simp only [cmac_length]; omega⟩
  case secUnwrap =>
    obtain ⟨h1, h2⟩ := secUnwrap_ok h
    exact ⟨.inr ⟨.inl rfl, h1⟩, fun hl => le_trans h2 hl⟩
  case secTimerVerify =>
    unfold secTimerVerify at h
    split at h
    · cases h
    · rename_i y t ht
      cases h
      obtain ⟨-, -, -, rfl⟩ := timerCore_ok ht
      refine ⟨.inr ⟨.inr (.inl rfl), rfl⟩, fun hl => ?_⟩
      simp only [timerTail_fields]
      exact le_trans (slice_length_le _ _ _) hl
  case secWrap =>
    unfold secWrap at h
    simp only at h
    split at h
    · cases h
    · split at h
      · cases h
      · rename_i h16 hn
        split at h <;> cases h
        refine ⟨.inl rfl, fun _ => ?_⟩
        simp only [params_bufBytes, List.length_drop] at hn
        simp only [wrapDatagram_eq, List.length_append, encodeHeader_length, keystreamCipher_length, wrapperTag, cmac_length,
          slice_length, List.length_drop]
        omega
  case dptDecode =>
    unfold dptDecode at h
    split at h
    · cases h
    · split at h <;> cases h
      exact ⟨.inl rfl, fun _ => Nat.zero_le _⟩
  case dptEncode =>
    unfold dptEncode at h
    split at h
    · cases h
    · split at h <;> cases h
      exact ⟨.inl rfl, fun _ => by simp [Dpt9.bytes]⟩
  case buildAction form hint imm =>
    obtain ⟨h1, h2⟩ := build_ok h
    exact ⟨.inl h1, fun _ => by omega⟩
  case buildStatus form hint imm =>
    obtain ⟨h1, h2⟩ := build_ok h
    exact ⟨.inl h1, fun _ => by omega⟩
  case buildResponse form hint imm =>
    obtain ⟨h1, h2⟩ := build_ok h
    exact ⟨.inl h1, fun _ => by omega⟩
  case decode =>
    obtain ⟨h1, h2⟩ := decodeDatagram_ok h
    refine ⟨?_, fun hl => by omega⟩
    rcases h1 with h1 | h1
    · exact .inl h1
    · exact .inr ⟨.inr (.inr rfl), h1⟩

end Sys2Proof.Machine
end

