-- ==== Sys2Proof/Laws/Step.lean ====
section
/-! SUPPORT. Everything a step can do: the ENGINE's turn, the end of a pending command, and which words are illegal. -/

namespace Sys2Proof.Machine

/-- A command does the same in the model at the defaults of R6 as in the model at any OPEN values, taken at those defaults. -/
theorem execAt_openDefaults (i : Instr) (s : State) : execAt Config.openDefaults i s = exec i s := by
  cases i <;> rfl

theorem stepAt_openDefaults (s : State) : stepAt Config.openDefaults s = step s := by
  have : execAt Config.openDefaults = exec := by
    funext i s
    exact execAt_openDefaults i s
  rw [stepAt, step, this]

/-- On the ENGINE's turn a pending command runs (R20), whatever the engine's OPEN values. -/
theorem stepBy_pending (ex : Meaning) {s : State} {rest : List Event} (ht : EnginesTurn s rest) (hb : s.busy = true) :
    stepBy ex s = State.runPendingBy ex { s with env := rest } := by
  rcases ht with ⟨h, rfl⟩ | h
  · have : { s with env := [] } = s := by
      cases s
      cases h
      rfl
    rw [this]
    simp only [stepBy, h, State.engineTurnBy, hb, if_true]
  · simp only [stepBy, h, State.engineTurnBy]
    exact if_pos hb

theorem step_pending {s : State} {rest : List Event} (ht : EnginesTurn s rest) (hb : s.busy = true) :
    step s = State.runPendingBy exec { s with env := rest } := stepBy_pending exec ht hb

/-- A pending command ends with what its rule came to, or as an illegal encoding (R20, R94). -/
theorem runPending_eq (s : State) :
    ∃ r : Except Raised Done, State.runPendingBy exec s = .next (s.finish r) ∧
      ((∃ i, decode s.cmd = .ok i ∧ r = ruleOf i s) ∨ ((∃ e, decode s.cmd = .error e) ∧ r = illegal)) := by
  unfold State.runPendingBy
  split
  · rename_i i hi
    exact ⟨_, exec_eq i s, .inl ⟨i, hi, rfl⟩⟩
  · rename_i e he
    exact ⟨_, rfl, .inr ⟨⟨e, he⟩, rfl⟩⟩

theorem formOf_toNat (w : Word) : (formOf w).toNat = w.toNat / 256 % 4 := by
  simp [formOf, modeOf, Nat.shiftRight_eq_div_pow]

theorem hintOf_toNat (w : Word) : (hintOf w).toNat = w.toNat / 1024 % 4 := by
  simp [hintOf, modeOf, Nat.shiftRight_eq_div_pow]
  omega

theorem tableOf_toNat (w : Word) : (tableOf w).toNat = w.toNat / 256 % 8 := by
  simp [tableOf, modeOf, Nat.shiftRight_eq_div_pow]

theorem opcodeOf_toNat (w : Word) : (opcodeOf w).toNat = w.toNat % 256 := by
  simp [opcodeOf]

theorem eq_three_iff (x : BitVec 2) : x = 3#2 ↔ x.toNat = 3 := by
  revert x
  decide

/-- A word is illegal exactly where it names no command, or an ill-formed one (R94). -/
theorem illegalWord_iff (w : Word) :
    IllegalWord w ↔ ((∃ e, decode w = .error e) ∨ ∃ i, decode w = .ok i ∧ i.wellFormed = false) := by
  have hlt := (opcodeOf w).isLt
  have hf := eq_three_iff (formOf w)
  have hh := eq_three_iff (hintOf w)
  have ht := tableOf_toNat w
  rw [formOf_toNat] at hf
  rw [hintOf_toNat] at hh
  unfold decode IllegalWord
  simp only [← opcodeOf_toNat]
  generalize (opcodeOf w).toNat = o at hlt
  split <;> simp [Instr.wellFormed, ht, hf, hh, or_iff_not_imp_left]
  simp only [imp_false] at *
  omega

/-- Everything one step can do: the ENGINE's turn, the platform's reset, a host write or a host read (R20, R450, R457). -/
theorem step_cases (s : State) :
    (s.env = [] ∧ step s = s.engineTurn) ∨
      ∃ e rest, s.env = e :: rest ∧
        ((e = .engine ∧ step s = State.engineTurn { s with env := rest }) ∨
          (e = .reset ∧ step s = .next (State.platformReset { s with env := rest })) ∨
          (∃ addr bits v, e = .write addr bits v ∧ step s = .next (State.hostWrite { s with env := rest } addr bits v)) ∨
          ∃ addr bits, e = .read addr bits ∧ step s = .next { s with env := rest, busData := s.hostRead addr bits }) := by
  unfold step stepBy
  cases h : s.env with
  | nil => exact .inl ⟨rfl, rfl⟩
  | cons e rest =>
    refine .inr ⟨e, rest, rfl, ?_⟩
    cases e with
    | write addr bits v => exact .inr (.inr (.inl ⟨addr, bits, v, rfl, rfl⟩))
    | read addr bits => exact .inr (.inr (.inr ⟨addr, bits, rfl, rfl⟩))
    | engine => exact .inl ⟨rfl, rfl⟩
    | reset => exact .inr (.inl ⟨rfl, rfl⟩)

end Sys2Proof.Machine
end

