-- ==== Sys2Proof/Tests/Slice0.lean ====
section
/-! SUPPORT. Tests: the ill-formed commands, a word of every command, at most two steps per command (expected results from the
spec's vectors, 95_test_vectors.md), the host's accesses, and a witness for the hypotheses of every statement. -/

namespace Sys2Proof.Tests

open Machine

/-! One theorem at a time: the kernel's evaluations are long, and those waiting would each hold a thread. -/
set_option Elab.async false

/-! ### Well-formedness: each reserved MODE value is refused (R92, R94) -/

theorem test_wf_form_3 : (Instr.addrParse 3 0).wellFormed = false := by decide

theorem test_wf_hint_3 : (Instr.addrParse 2 3).wellFormed = false := by decide

theorem test_wf_fmt_3 : (Instr.addrRender 3).wellFormed = false := by decide

theorem test_wf_table_5_to_7 :
    (Instr.tblResolve 0 5).wellFormed = false ∧ (Instr.tblResolve 1 6).wellFormed = false ∧
      (Instr.tblResolve 0 7).wellFormed = false := by
  decide

theorem test_wf_build_form_3 :
    (Instr.buildAction 3 0 5).wellFormed = false ∧ (Instr.buildStatus 3 1 0).wellFormed = false ∧
      (Instr.buildResponse 3 2 0).wellFormed = false := by
  decide

theorem test_wf_build_hint_3 :
    (Instr.buildAction 0 3 5).wellFormed = false ∧ (Instr.buildStatus 1 3 0).wellFormed = false ∧
      (Instr.buildResponse 2 3 0).wellFormed = false := by
  decide

theorem test_wf_legal :
    (Instr.addrParse 2 2).wellFormed = true ∧ (Instr.addrRender 2).wellFormed = true ∧
      (Instr.tblResolve 1 4).wellFormed = true ∧ (Instr.buildAction 2 2 5).wellFormed = true := by
  decide

/-! ### Decoding: words written out from the tables of R91 and R92, bit fields IMM, MODE, OPCODE -/

/-- 0x01, FORM_STR (2), HINT_G2 (1 in MODE[3:2]): MODE 0b0110. -/
theorem test_decode_addrParse : decode 0b0000000000000000_00000110_00000001 = .ok (.addrParse 2 1) := by decide

/-- 0x02, FMT_G2 (2). -/
theorem test_decode_addrRender : decode 0b0000000000000000_00000010_00000010 = .ok (.addrRender 2) := by decide

/-- 0x08, DIR 1 in MODE[7], TABLE 4. -/
theorem test_decode_tblResolve : decode 0b0000000000000000_10000100_00001000 = .ok (.tblResolve 1 4) := by decide

theorem test_decode_apciPack : decode 0b0000000000000000_00000000_00001001 = .ok .apciPack := by decide

theorem test_decode_apciUnpack : decode 0b0000000000000000_00000000_00001010 = .ok .apciUnpack := by decide

theorem test_decode_cemiEncode : decode 0b0000000000000000_00000000_00010000 = .ok .cemiEncode := by decide

/-- Vector Z4: the MODE bits and IMM a command does not list are ignored (R93). -/
theorem test_decode_cemiDecode : decode 0b1111111111111111_00000000_00010001 = .ok .cemiDecode := by decide

theorem test_decode_hdrEncode : decode 0b0000000000000000_00000000_00011000 = .ok .hdrEncode := by decide

theorem test_decode_hdrDecode : decode 0b0000000000000000_00000000_00011001 = .ok .hdrDecode := by decide

/-- 0x20, KIND 1 in MODE[0]. -/
theorem test_decode_secNonce : decode 0b0000000000000000_00000001_00100000 = .ok (.secNonce 1) := by decide

theorem test_decode_cmacGen : decode 0b0000000000000000_00000000_00100001 = .ok .cmacGen := by decide

theorem test_decode_secUnwrap : decode 0b0000000000000000_00000000_00100010 = .ok .secUnwrap := by decide

theorem test_decode_secTimerVerify : decode 0b0000000000000000_00000000_00100011 = .ok .secTimerVerify := by decide

theorem test_decode_secWrap : decode 0b0000000000000000_00000000_00100100 = .ok .secWrap := by decide

theorem test_decode_dptDecode : decode 0b0000000000000000_00000000_00101000 = .ok .dptDecode := by decide

theorem test_decode_dptEncode : decode 0b0000000000000000_00000000_00101001 = .ok .dptEncode := by decide

/-- 0x30, FORM_STR (2), HINT_IND (2 in MODE[3:2]), IMM 0x8005. -/
theorem test_decode_buildAction : decode 0b1000000000000101_00001010_00110000 = .ok (.buildAction 2 2 0x8005) := by decide

/-- 0x31, FORM_BYTES (1), HINT_G2 (1), IMM 2. -/
theorem test_decode_buildStatus : decode 0b0000000000000010_00000101_00110001 = .ok (.buildStatus 1 1 2) := by decide

/-- 0x32, FORM_INT (0), HINT_IND (2). -/
theorem test_decode_buildResponse : decode 0b0000000000000000_00001000_00110010 = .ok (.buildResponse 0 2 0) := by decide

theorem test_decode_decode : decode 0b0000000000000000_00000000_00110011 = .ok .decode := by decide

/-- Vector Z2: opcodes outside the map of R91. -/
theorem test_decode_illegal :
    decode 0x00000000 = .error (.illegalOpcode 0) ∧ decode 0x000000FF = .error (.illegalOpcode 0xFF) ∧
      decode 0x00000025 = .error (.illegalOpcode 0x25) ∧ decode 0x00000034 = .error (.illegalOpcode 0x34) := by
  decide

/-- The decoder reads the opcode table's numbering of a command word. -/
theorem test_decodeTableWord :
    decodeTableWord 32 0x00050230 = some (.buildAction 2 0 5) ∧ decodeTableWord 8 0x33 = some .decode ∧
      decodeTableWord 32 0 = none := by
  decide

/-! ### Small states -/

/-- The machine after reset with these bytes in IN_BUF and their number in IN_LEN. -/
def given (bytes : List Byte) : State :=
  { State.reset with inBuf := Memory.ofBytes bytes, inLen := BitVec.ofNat 32 bytes.length }

/-- With the key `00 01 02 … 0F` of the spec's vectors, and KEY_VALID. -/
def withKey (s : State) : State :=
  { s with key0 := 0x00010203, key1 := 0x04050607, key2 := 0x08090A0B, key3 := 0x0C0D0E0F, keyctl := 1 }

/-- The datagram D2 of the spec: a group write of true to 1/2/0. -/
def d2 : List Byte :=
  [0x06, 0x10, 0x05, 0x30, 0x00, 0x11, 0x29, 0x00, 0xBC, 0xE0, 0x00, 0x01, 0x0A, 0x00, 0x01, 0x00, 0x81]

/-- The secure wrapper WR1 of the spec, which carries D2 (vector S1). -/
def wr1 : List Byte :=
  [0x06, 0x10, 0x09, 0x50, 0x00, 0x37, 0x00, 0x01, 0x00, 0x00, 0x00, 0x00, 0x00, 0x01, 0x00, 0xFA, 0x12, 0x34, 0x56,
   0x78, 0xAF, 0xFE, 0x7C, 0x63, 0xF8, 0x4D, 0xA3, 0xEF, 0x88, 0xD8, 0x1B, 0xD5, 0xFB, 0x76, 0xE9, 0x31, 0x9C, 0x24,
   0xB5, 0x83, 0x4B, 0x45, 0xC0, 0x8F, 0x5E, 0xA8, 0x1B, 0x4B, 0x4F, 0xA2, 0x68, 0xEA, 0xAC, 0xE9, 0xD0]

/-- The timer notify TN1 of the spec (vector S5). -/
def tn1 : List Byte :=
  [0x06, 0x10, 0x09, 0x55, 0x00, 0x24, 0x00, 0x00, 0x00, 0x00, 0x00, 0x01, 0x00, 0xFA, 0x12, 0x34, 0x56, 0x78, 0xAF,
   0xFE, 0xA9, 0x0F, 0x46, 0xB5, 0xC8, 0x3F, 0xEC, 0xF6, 0x2A, 0xE5, 0x1D, 0x9E, 0x8F, 0x00, 0x42, 0x02]

/-- STATUS, the results and the output after the step that runs the command word `w`. -/
def ends (s : State) (w : Word) : Word × Results × List Byte :=
  match step (s.commandStart w) with
  | .next t => (t.status, t.res, t.outBuf.bytes t.outLen.toNat)
  | .fault _ => (0, {}, [])
  | .refused _ => (0, {}, [])

/-! ### Steps -/

/-- Vector A7 (95_test_vectors.md; R111). -/
theorem test_addrParse_leading_zeros :
    ends (given [0x30, 0x30, 0x37, 0x2F, 0x30, 0x2F, 0x30, 0x31]) 0x00000201 =
      (0x00000002, { r0 := 0x00053801 }, []) := by
  decide +kernel

/-- Vector A9 (95_test_vectors.md; R114). -/
theorem test_addrParse_raw_pair :
    ends (given [0x31, 0x2F]) 0x00000A01 =
      (0x00000002, { r0 := 0x0008312F }, []) := by
  decide +kernel

/-- Vector A35 (95_test_vectors.md; R121). -/
theorem test_addrRender_ignores_bit_15 :
    ends { given [] with arg0 := 0x00008A00 } 0x00000102 =
      (0x00000002, {}, [0x31, 0x2F, 0x32, 0x2F, 0x30]) := by
  decide +kernel

/-- Vector A33 (95_test_vectors.md; R119). -/
theorem test_addrRender_two_level :
    ends { given [] with arg0 := 0x00001203 } 0x00000202 =
      (0x00000002, {}, [0x32, 0x2F, 0x35, 0x31, 0x35]) := by
  decide +kernel

/-- Vector P8 (95_test_vectors.md; R145). -/
theorem test_tblResolve_code_to_row :
    ends { given [] with arg0 := 0x00000950 } 0x00000308 =
      (0x00000002, { r0 := 0x00000001, r1 := 0x00000013 }, []) := by
  decide +kernel

/-- Vector P4 (95_test_vectors.md; R152). -/
theorem test_tblResolve_unknown_row :
    ends { given [] with arg0 := 0x00000010 } 0x00008008 =
      (0x00000002, { r1 := 0xFFFFFFFF }, []) := by
  decide +kernel

/-- Vector P20 (95_test_vectors.md; R147). -/
theorem test_apciPack_carries :
    ends { given [] with arg0 := 0x00000002, arg1 := 0x00000114 } 0x00000009 =
      (0x00000002, { r0 := 0x00000542 }, []) := by
  decide +kernel

/-- Vector P27 (95_test_vectors.md; R147). -/
theorem test_apciPack_extended :
    ends { given [] with arg0 := 0x000003F0, arg1 := 0x00000105 } 0x00000009 =
      (0x00000002, { r0 := 0x0000030F }, []) := by
  decide +kernel

/-- Vector P35 (95_test_vectors.md; R149). -/
theorem test_apciUnpack_packed :
    ends { given [0x01, 0x02] with arg0 := 0x00000FF2 } 0x0000000A =
      (0x00000002, { r0 := 0x00004BF2 }, [0x3F, 0x01, 0x02]) := by
  decide +kernel

/-- Vector P38 (95_test_vectors.md; R149). -/
theorem test_apciUnpack_truncated :
    ends { given [] with arg0 := 0x00000802 } 0x0000000A =
      (0x00000306, {}, []) := by
  decide +kernel

/-- Vector E9 (95_test_vectors.md; R176). -/
theorem test_cemiEncode_seq_and_tpci :
    ends { given [0x05] with arg0 := 0x0A869F29, arg1 := 0x0A000001, arg2 := 0x00000002 } 0x00000010 =
      (0x00000002, {},
        [0x29, 0x00, 0xBC, 0xE0, 0x00, 0x01, 0x0A, 0x00, 0x01, 0x54, 0x85]) := by
  decide +kernel

/-- Vector E8 (95_test_vectors.md; R147). -/
theorem test_cemiEncode_extended_code :
    ends { given [0x05] with arg0 := 0x00069F29, arg1 := 0x0A000001, arg2 := 0x000003F0 } 0x00000010 =
      (0x00000002, {},
        [0x29, 0x00, 0xBC, 0xE0, 0x00, 0x01, 0x0A, 0x00, 0x01, 0x03, 0xF0, 0x05]) := by
  decide +kernel

/-- Vector E26 (95_test_vectors.md; R177). -/
theorem test_cemiDecode_excess :
    ends (given [0x29, 0x00, 0xBC, 0xE0, 0x00, 0x01, 0x0A, 0x00, 0x01, 0x00, 0x80, 0x05, 0x06]) 0x00000011 =
      (0x00000002,
        { r0 := 0xE0BC0029, r1 := 0x0A000001, r2 := 0x02008001, r3 := 0x00000802, r4 := 0x00000D3D,
          r5 := 0x00010002 },
        [0x05]) := by
  decide +kernel

/-- Vector E27 (95_test_vectors.md; R179). -/
theorem test_cemiDecode_every_field :
    ends (given [0x2E, 0x05, 0xFF, 0x7F, 0x12, 0x03, 0xFF, 0xFF, 0x00, 0xFF, 0xFF]) 0x00000011 =
      (0x00000002,
        { r0 := 0x7FFF052E, r1 := 0xFFFF1203, r2 := 0x00FFFF00, r3 := 0x03FFFFFF, r4 := 0x0000FEFF },
        []) := by
  decide +kernel

/-- Vector H3 (95_test_vectors.md; R203). -/
theorem test_hdrEncode_given_length :
    ends { given [] with arg0 := 0x000001FF, arg1 := 0x00010201, arg2 := 0x00000006 } 0x00000018 =
      (0x00000002, {}, [0x06, 0xFF, 0x02, 0x01, 0x00, 0x06]) := by
  decide +kernel

/-- Vector H15 (95_test_vectors.md; R204). -/
theorem test_hdrDecode_timer :
    ends (given tn1) 0x00000019 =
      (0x00000002, { r0 := 0x09551006, r1 := 0x00060024 },
        [0x00, 0x00, 0x00, 0x00, 0x00, 0x01, 0x00, 0xFA, 0x12, 0x34, 0x56, 0x78, 0xAF, 0xFE, 0xA9, 0x0F, 0x46, 0xB5, 0xC8,
         0x3F, 0xEC, 0xF6, 0x2A, 0xE5, 0x1D, 0x9E, 0x8F, 0x00, 0x42, 0x02]) := by
  decide +kernel

/-- Vector H18 (95_test_vectors.md; R202). -/
theorem test_hdrDecode_short :
    ends (given [0x06, 0x10, 0x05, 0x30, 0x00]) 0x00000019 =
      (0x00000206, {}, []) := by
  decide +kernel

/-- Vector S9 (95_test_vectors.md; R264). -/
theorem test_secNonce_auth :
    ends { given [0x00, 0x00, 0x00, 0x00, 0x00, 0x01, 0x00, 0xFA, 0x12, 0x34, 0x56, 0x78, 0xAF, 0xFE] with arg0 :=
        0x00000011 } 0x00000020 =
      (0x00000002, {},
        [0x00, 0x00, 0x00, 0x00, 0x00, 0x01, 0x00, 0xFA, 0x12, 0x34, 0x56, 0x78, 0xAF, 0xFE, 0x00, 0x11]) := by
  decide +kernel

/-- Vector S9 (95_test_vectors.md; R264). -/
theorem test_secNonce_dec :
    ends (given [0x00, 0x00, 0x00, 0x00, 0x00, 0x01, 0x00, 0xFA, 0x12, 0x34, 0x56, 0x78, 0xAF, 0xFE]) 0x00000120 =
      (0x00000002, {},
        [0x00, 0x00, 0x00, 0x00, 0x00, 0x01, 0x00, 0xFA, 0x12, 0x34, 0x56, 0x78, 0xAF, 0xFE, 0x01]) := by
  decide +kernel

/-- Vector X10 (95_test_vectors.md; R236). -/
theorem test_cmacGen_block :
    ends (withKey (given [0x00, 0x00, 0x00, 0x00, 0x00, 0x01, 0x00, 0xFA, 0x12, 0x34, 0x56, 0x78, 0xAF, 0xFE, 0x00,
        0x00])) 0x00000021 =
      (0x00000002, {},
        [0xA9, 0x0F, 0x46, 0xB5, 0xC8, 0x3F, 0xEC, 0xF6, 0x2A, 0xE5, 0x1D, 0x9E, 0x8F, 0x00, 0x42, 0x02]) := by
  decide +kernel

/-- Vector X11 (95_test_vectors.md; R265). -/
theorem test_cmacGen_needs_key :
    ends (given []) 0x00000021 =
      (0x00000706, {}, []) := by
  decide +kernel

/-- Vector S2 (95_test_vectors.md; R266). -/
theorem test_secUnwrap_accepts :
    ends (withKey (given wr1)) 0x00000022 =
      (0x00020002, { r0 := 0x09501006, r1 := 0x00050037, r2 := 0x00110001 },
        d2) := by
  decide +kernel

/-- Vector S4 (95_test_vectors.md; R268). -/
theorem test_secUnwrap_rejects_tag :
    ends (withKey (given [0x06, 0x10, 0x09, 0x50, 0x00, 0x37, 0x00, 0x01, 0x00, 0x00, 0x00, 0x00, 0x00, 0x01, 0x00, 0xFA,
        0x12, 0x34, 0x56, 0x78, 0xAF, 0xFE, 0x7C, 0x63, 0xF8, 0x4D, 0xA3, 0xEF, 0x88, 0xD8, 0x1B, 0xD5, 0xFB, 0x76,
        0xE9, 0x31, 0x9C, 0x24, 0xB5, 0x83, 0x4B, 0x45, 0xC0, 0x8F, 0x5E, 0xA8, 0x1B, 0x4B, 0x4F, 0xA2, 0x68, 0xEA,
        0xAC, 0xE9, 0x50])) 0x00000022 =
      (0x00030606, {}, []) := by
  decide +kernel

/-- Vector S5 (95_test_vectors.md; R270). -/
theorem test_secTimerVerify_accepts :
    ends (withKey (given tn1)) 0x00000023 =
      (0x00020002, { r0 := 0x09551006, r1 := 0x00060024 },
        [0x00, 0x00, 0x00, 0x00, 0x00, 0x01, 0x00, 0xFA, 0x12, 0x34, 0x56, 0x78, 0xAF, 0xFE]) := by
  decide +kernel

/-- Vector S6 (95_test_vectors.md; R271). -/
theorem test_secTimerVerify_rejects :
    ends (withKey (given [0x06, 0x10, 0x09, 0x55, 0x00, 0x24, 0x00, 0x00, 0x00, 0x00, 0x00, 0x01, 0x00, 0xFA, 0x12, 0x34,
        0x56, 0x78, 0xAF, 0xFE, 0xA9, 0x0F, 0x46, 0xB5, 0xC8, 0x3F, 0xEC, 0xF6, 0x2A, 0xE5, 0x1D, 0x9E, 0x8F, 0x00,
        0x42, 0x03])) 0x00000023 =
      (0x00030606, {}, []) := by
  decide +kernel

/-- Vector S1 (95_test_vectors.md; R272). -/
theorem test_secWrap_wraps :
    ends { withKey (given [0x00, 0x01, 0x00, 0x00, 0x00, 0x00, 0x00, 0x01, 0x00, 0xFA, 0x12, 0x34, 0x56, 0x78, 0xAF, 0xFE,
        0x06, 0x10, 0x05, 0x30, 0x00, 0x11, 0x29, 0x00, 0xBC, 0xE0, 0x00, 0x01, 0x0A, 0x00, 0x01, 0x00, 0x81]) with
        arg0 := 0x00000010 } 0x00000024 =
      (0x00000002, {},
        wr1) := by
  decide +kernel

/-- Vector S20 (95_test_vectors.md; R272). -/
theorem test_secWrap_short :
    ends (given [0x00, 0x00, 0x00, 0x00, 0x00, 0x00, 0x00, 0x00, 0x00, 0x00, 0x00, 0x00, 0x00, 0x00, 0x00]) 0x00000024 =
      (0x00000306, {}, []) := by
  decide +kernel

/-- Vector T1 (95_test_vectors.md; R292). -/
theorem test_dptDecode_negative :
    ends { given [0x8A, 0x24] with arg0 := 0x00090001 } 0x00000028 =
      (0x00000002, { r0 := 0xFFFFF448, r1 := 0x00004483 }, []) := by
  decide +kernel

/-- Vector T8 (95_test_vectors.md; R292). -/
theorem test_dptDecode_largest :
    ends { given [0x7F, 0xFF] with arg0 := 0x00090001 } 0x00000028 =
      (0x00000002, { r0 := 0x03FF8000, r1 := 0x0000FFFE }, []) := by
  decide +kernel

/-- Vector T34 (95_test_vectors.md; R293). -/
theorem test_dptEncode_least :
    ends { given [] with arg0 := 0x00090001, arg1 := 0xFFFF955C } 0x00000029 =
      (0x00000002, { r1 := 0x00002AA9 }, [0xA1, 0x55]) := by
  decide +kernel

/-- Vector T36 (95_test_vectors.md; R293). -/
theorem test_dptEncode_below_range :
    ends { given [] with arg0 := 0x00090001, arg1 := 0xFFFF955B } 0x00000029 =
      (0x00000506, {}, []) := by
  decide +kernel

/-- Vector B9 (95_test_vectors.md; R316). -/
theorem test_buildAction_options :
    ends { given [0x31, 0x2F, 0x32, 0x2F, 0x30, 0x01] with opt := 0x00001178, src := 0x00001105 } 0x00050230 =
      (0x00000002, { r0 := 0x00050A00 },
        [0x06, 0x10, 0x05, 0x30, 0x00, 0x11, 0x11, 0x00, 0x90, 0xF0, 0x11, 0x05, 0x0A, 0x00, 0x01, 0x00, 0x81]) := by
  decide +kernel

/-- Vector B22 (95_test_vectors.md; R311). -/
theorem test_buildAction_truncated :
    ends (given [0x31, 0x2F, 0x32, 0x2F, 0x30]) 0x00060230 =
      (0x00000306, {}, []) := by
  decide +kernel

/-- Vector B11 (95_test_vectors.md; R314). -/
theorem test_buildStatus_no_data :
    ends (given [0x31, 0x2F, 0x32, 0x2F, 0x30, 0x01, 0x02]) 0x00050231 =
      (0x00000002, { r0 := 0x00050A00 },
        [0x06, 0x10, 0x05, 0x30, 0x00, 0x11, 0x29, 0x00, 0xBC, 0xE0, 0x00, 0x01, 0x0A, 0x00, 0x00, 0x00, 0x00]) := by
  decide +kernel

/-- Vector B26 (95_test_vectors.md; R314). -/
theorem test_buildStatus_form_int :
    ends { given (List.replicate 256 0x00) with arg0 := 0x00000A00 } 0x00000031 =
      (0x00000002, { r0 := 0x000D0A00 },
        [0x06, 0x10, 0x05, 0x30, 0x00, 0x11, 0x29, 0x00, 0xBC, 0xE0, 0x00, 0x01, 0x0A, 0x00, 0x00, 0x00, 0x00]) := by
  decide +kernel

/-- Vector B14 (95_test_vectors.md; R315). -/
theorem test_buildResponse_unpacked :
    ends (given [0x31, 0x2F, 0x32, 0x2F, 0x30, 0x40]) 0x00050232 =
      (0x00000002, { r0 := 0x00050A00 },
        [0x06, 0x10, 0x05, 0x30, 0x00, 0x12, 0x29, 0x00, 0xBC, 0xE0, 0x00, 0x01, 0x0A, 0x00, 0x01, 0x00, 0x40, 0x40]) := by
  decide +kernel

/-- Vector B13 (95_test_vectors.md; R315). -/
theorem test_buildResponse_packed :
    ends (given [0x31, 0x2F, 0x32, 0x2F, 0x30, 0x01]) 0x00050232 =
      (0x00000002, { r0 := 0x00050A00 },
        [0x06, 0x10, 0x05, 0x30, 0x00, 0x11, 0x29, 0x00, 0xBC, 0xE0, 0x00, 0x01, 0x0A, 0x00, 0x01, 0x00, 0x41]) := by
  decide +kernel

/-- Vector G2 (95_test_vectors.md; R317). -/
theorem test_decode_individual :
    ends (given [0x06, 0x10, 0x05, 0x30, 0x00, 0x11, 0x29, 0x00, 0xBC, 0x60, 0x00, 0x01, 0x12, 0x03, 0x01, 0x00, 0x81])
        0x00000033 =
      (0x00000002,
        { r0 := 0x05301006, r1 := 0x00040011, r3 := 0x60BC0029, r4 := 0x12030001, r5 := 0x01008101,
          r6 := 0x00100812, r7 := 0x00000C3D, r11 := 0x00000010 },
        [0x01]) := by
  decide +kernel

/-- Vector G4 (95_test_vectors.md; R317). -/
theorem test_decode_wrapper :
    ends (withKey (given wr1)) 0x00000033 =
      (0x00020002,
        { r0 := 0x09501006, r1 := 0x001D0037, r2 := 0x00110001, r3 := 0xE0BC0029, r4 := 0x0A000001,
          r5 := 0x03008101, r6 := 0x00100812, r7 := 0x00000D3D, r9 := 0x05301006, r10 := 0x00040011,
          r11 := 0x00000011 },
        [0x01]) := by
  decide +kernel


/-! ### Witnesses: concrete values that meet the hypotheses of each statement, clause by clause, at boundary values -/

/-- A pending command, right after the host wrote the word `w` to CMD. -/
def pending (w : Word) : State := State.reset.commandStart w

/-- A state with this sample; exec reads nothing of IN_BUF. -/
def sampled (bytes : List Byte) : State := { State.reset with inSample := bytes }

theorem witness_IllegalEncodingsEndTheCommand :
    (∀ w : Word, (pending w).busy = true ∧ EnginesTurn (pending w) []) ∧
      (∀ n : Nat,
        n ∈ [0x00000000, 0x00000003, 0x00000007, 0x0000000B, 0x0000000F, 0x00000012, 0x00000017, 0x0000001A, 0x0000001F,
            0x00000025, 0x00000027, 0x0000002A, 0x0000002F, 0x00000034, 0x000000FF, 0x00000301, 0x00000C01, 0x00000302,
            0x00000508, 0x00000708, 0x00000330, 0x00000C31, 0x00000F32] →
          IllegalWord (pending (BitVec.ofNat 32 n)).cmd) ∧
      ∀ n : Nat, n ∈ [0x00000001, 0x00000A01, 0x00000202, 0x00008408, 0x00000A30, 0x00000033, 0xFFFFFF11] →
        ¬ IllegalWord (pending (BitVec.ofNat 32 n)).cmd := by
  refine ⟨fun w => ⟨statusWord_busy _ _ _ _, .inl ⟨rfl, rfl⟩⟩, ?_, ?_⟩ <;> unfold IllegalWord <;> decide +kernel

theorem witness_StepRunsTheDecodedCommand :
    EnginesTurn (pending 0x00000033) [] ∧ (pending 0x00000033).busy = true ∧ decode (pending 0x00000033).cmd = .ok .decode ∧
      EnginesTurn { pending 0x00000033 with env := [.engine, .reset] } [.reset] :=
  ⟨.inl ⟨rfl, rfl⟩, by decide, by decide, .inr rfl⟩

theorem witness_StepKeepsTheInvariant :
    (pending 0x00000102).Inv ∧ (∃ t, step (pending 0x00000102) = .next t) ∧
      (given [0x31, 0x2F]).Inv ∧ ∃ t, step (given [0x31, 0x2F]) = .next t := by
  refine ⟨?_, ⟨_, rfl⟩, ?_, ⟨_, rfl⟩⟩
  · exact
      { status := .inr (.inl rfl), opt := by decide, src := by decide, inLen := by decide, outLen := by decide,
        keyctl := by decide, inBuf := rfl, outBuf := rfl, outZero := fun _ _ => rfl,
        pending := fun _ => ⟨rfl, rfl, rfl, rfl⟩, idle := fun h => absurd h (by decide) }
  · exact
      { status := .inl rfl, opt := by decide, src := by decide, inLen := by decide, outLen := by decide,
        keyctl := by decide, inBuf := by decide, outBuf := rfl, outZero := fun _ _ => rfl,
        pending := fun h => absurd h (by decide), idle := fun _ => rfl }

theorem witness_EngineTurnEndsTheCommand :
    (pending 0x00000033).busy = true ∧ EnginesTurn (pending 0x00000033) [] := ⟨by decide, .inl ⟨rfl, rfl⟩⟩

theorem witness_CommandStart :
    (given [0x31]).busy = false ∧
      ({ given [0x31] with env := [.write 0 32 0x00000102, .engine] } : State).env = .write 0 32 0x00000102 :: [.engine] ∧
      decode 0x00000102 = .ok (.addrRender 1) := by
  decide

theorem witness_BusyWindow :
    (pending 0x00000102).Inv ∧ (pending 0x00000102).busy = true ∧
      ({ pending 0x00000102 with env := [.write 0x030 32 7] } : State).env = .write 0x030 32 7 :: [] ∧
      { pending 0x00000102 with env := [.write 0x030 32 7] }.Inv :=
  ⟨witness_StepKeepsTheInvariant.1, by decide, rfl,
    { status := .inr (.inl rfl), opt := by decide, src := by decide, inLen := by decide, outLen := by decide,
      keyctl := by decide, inBuf := rfl, outBuf := rfl, outZero := fun _ _ => rfl,
      pending := fun _ => ⟨rfl, rfl, rfl, rfl⟩, idle := fun h => absurd h (by decide) }⟩

theorem witness_PlatformReset :
    ({ pending 0x00000033 with env := [.reset, .engine] } : State).env = .reset :: [.engine] := rfl

theorem witness_IdleEngineKeepsItsState : (given [0x31]).busy = false ∧ EnginesTurn (given [0x31]) [] :=
  ⟨by decide, .inl ⟨rfl, rfl⟩⟩

/-- The first and last unmapped, narrow, wide, misaligned and read-only places. -/
theorem witness_WrongAccessesAreHarmless :
    (∀ x : BitVec 18 × Nat,
        x ∈ [(0x00028, 32), (0x0002C, 32), (0x00044, 32), (0x0007C, 32), (0x000B0, 32), (0x000FC, 32), (0x00000, 8),
            (0x00000, 16), (0x00002, 32), (0x00100, 32), (0x0FFFF, 8), (0x10000, 32), (0x1FFFE, 16), (0x1FFFF, 8),
            (0x20000, 32), (0x2FFFF, 8), (0x3FFFF, 8)] →
          NoSuchAccess x.1 x.2) ∧
      (∀ a : Nat, a ∈ [0x00004, 0x00014, 0x00080, 0x000AC, 0x20000, 0x2FFFE] → ReadOnly (BitVec.ofNat 18 a)) ∧
      ({ State.reset with env := [.read 0x00028 32] } : State).env = .read 0x00028 32 :: [] ∧
      ({ State.reset with env := [.write 0x00004 32 1] } : State).env = .write 0x00004 32 1 :: [] := by
  refine ⟨?_, ?_, rfl, rfl⟩
  · unfold NoSuchAccess
    decide +kernel
  · unfold ReadOnly
    decide +kernel

theorem witness_OnlyACommandWriteHasASideEffect :
    (given [0x31]).inBuf.wf = true ∧
      ({ given [0x31] with env := [.read 0x10000 8] } : State).env = .read 0x10000 8 :: [] ∧
      ¬ ((given [0x31]).busy = false ∧ (0x10000 : BitVec 18) = 0 ∧ 8 = 32) ∧ (0x10001 : BitVec 18) ≠ 0x10000 ∧
      (given [0x31]).busy = false := by
  decide

theorem witness_RegistersReadBack :
    State.reset.busy = false ∧
      ((0x008 : BitVec 18), (0x0000FFFF : Word)) ∈
        [((0x008 : BitVec 18), (0x0000FFFF : Word)), (0x00C, 0x0000FFFF), (0x010, 0x0000FFFF), (0x018, 0xFFFFFFFF),
         (0x01C, 0xFFFFFFFF), (0x020, 0xFFFFFFFF), (0x024, 0xFFFFFFFF), (0x040, 0x00000001)] ∧
      ((0x040 : BitVec 18), (0x00000001 : Word)) ∈
        [((0x008 : BitVec 18), (0x0000FFFF : Word)), (0x00C, 0x0000FFFF), (0x010, 0x0000FFFF), (0x018, 0xFFFFFFFF),
         (0x01C, 0xFFFFFFFF), (0x020, 0xFFFFFFFF), (0x024, 0xFFFFFFFF), (0x040, 0x00000001)] :=
  ⟨by decide, List.mem_cons_self, by simp⟩

theorem witness_InputBufferReadsBack :
    State.reset.busy = false ∧ State.reset.inBuf.wf = true ∧ 0 < 65535 ∧ 65534 < 65535 ∧ 65533 ≠ 65534 := by
  decide

theorem witness_KeyRegisters :
    15 < 16 ∧ 3 < 4 ∧ State.reset.busy = false ∧ (withKey (pending 0x00000021)).busy = true := by
  decide

theorem witness_KeysReachOnlyKeyedCommands :
    State.reset.keyctl.getLsbD 0 = false ∧
      Instr.apciPack ∉ [Instr.cmacGen, .secUnwrap, .secTimerVerify, .secWrap, .decode] := by
  decide

theorem witness_CommandsReadOnlyTheSample :
    (∃ t, exec .cemiDecode (sampled d2) = .next t) ∧
      (({ State.reset with inLen := 1 } : State).inLen = (given [0x31]).inLen) ∧
      ∀ k, k < (given [0x31]).inLen.toNat % 65536 →
        ({ State.reset with inLen := 1, inBuf := [(0, 0x31), (1, 0x32)] } : State).inBuf.read k = (given [0x31]).inBuf.read k := by
  refine ⟨⟨_, rfl⟩, by decide, ?_⟩
  have : (given [0x31]).inLen.toNat % 65536 = 1 := by decide
  intro k hk
  rw [this] at hk
  interval_cases k
  decide

theorem witness_UnnamedArgumentsAreIgnored :
    (∃ t, exec .cemiDecode (sampled d2) = .next t) ∧
      Instr.cemiDecode ∈ [Instr.cemiDecode, .hdrDecode, .cmacGen, .secUnwrap, .secTimerVerify, .decode] ∧
      Instr.cemiDecode ∉ [Instr.apciPack, .cemiEncode, .hdrEncode, .dptEncode] ∧
      Instr.cemiDecode ∉ [Instr.cemiEncode, .hdrEncode] ∧
      (¬ ∃ form hint imm,
          Instr.cemiDecode = .buildAction form hint imm ∨ Instr.cemiDecode = .buildStatus form hint imm ∨
            Instr.cemiDecode = .buildResponse form hint imm) ∧
      Instr.cemiDecode ≠ .decode ∧ (0xFFFF0001 : Word) &&& 0x0000FFFF = (sampled d2).src &&& 0x0000FFFF ∧
      (0xFFFF296F : Word) &&& 0x0000FFFF = (sampled d2).opt &&& 0x0000FFFF := by
  refine ⟨⟨_, rfl⟩, by decide, by decide, by decide, ?_, by decide, by decide, by decide⟩
  rintro ⟨form, hint, imm, h | h | h⟩ <;> cases h

theorem witness_AddrParseOfRawForms :
    (0 : BitVec 2) ≠ 3 ∧ (2 : BitVec 2) ≠ 3 ∧ ({ State.reset with arg0 := 0x0000FFFF } : State).arg0.toNat ≤ 0xFFFF ∧
      0xFFFF < ({ State.reset with arg0 := 0x00010000 } : State).arg0.toNat ∧ (sampled [0x0A, 0x00]).inSample.length = 2 ∧
      (sampled [0x0A, 0x00, 0x01]).inSample.length ≠ 2 ∧ (sampled [0x0A]).inSample.length ≠ 2 := by
  decide

/-- "15/7/255", "16/0/0", "15/2047", "15/2048", "15.15.255" and "15.16.0": each clause, in range and out of range. -/
theorem witness_AddrParseOfFriendlyStrings :
    (∀ x : List Byte,
        x ∈ [[0x31, 0x35], [0x37], [0x32, 0x35, 0x35], [0x31, 0x36], [0x30], [0x32, 0x30, 0x34, 0x37], [0x32, 0x30, 0x34, 0x38]] →
          isDec x = true) ∧
      (sampled [0x31, 0x35, 0x2F, 0x37, 0x2F, 0x32, 0x35, 0x35]).inSample =
        [0x31, 0x35] ++ slash :: [0x37] ++ slash :: [0x32, 0x35, 0x35] ∧
      decValue [0x31, 0x35] = 15 ∧ decValue [0x37] = 7 ∧ decValue [0x32, 0x35, 0x35] = 255 ∧
      (sampled [0x31, 0x36, 0x2F, 0x30, 0x2F, 0x30]).inSample = [0x31, 0x36] ++ slash :: [0x30] ++ slash :: [0x30] ∧
      decValue [0x31, 0x36] = 16 ∧
      (sampled [0x31, 0x35, 0x2F, 0x32, 0x30, 0x34, 0x37]).inSample = [0x31, 0x35] ++ slash :: [0x32, 0x30, 0x34, 0x37] ∧
      decValue [0x32, 0x30, 0x34, 0x37] = 2047 ∧
      (sampled [0x31, 0x35, 0x2F, 0x32, 0x30, 0x34, 0x38]).inSample = [0x31, 0x35] ++ slash :: [0x32, 0x30, 0x34, 0x38] ∧
      decValue [0x32, 0x30, 0x34, 0x38] = 2048 ∧
      (sampled [0x31, 0x35, 0x2E, 0x31, 0x35, 0x2E, 0x32, 0x35, 0x35]).inSample =
        [0x31, 0x35] ++ dot :: [0x31, 0x35] ++ dot :: [0x32, 0x35, 0x35] ∧
      (sampled [0x31, 0x35, 0x2E, 0x31, 0x36, 0x2E, 0x30]).inSample = [0x31, 0x35] ++ dot :: [0x31, 0x36] ++ dot :: [0x30] := by
  decide

/-- "1/" (vector A8), and the empty string (vector A11). -/
theorem witness_AddrParseOfOtherStrings :
    ¬ FriendlyString (sampled [0x31, 0x2F]).inSample ∧ (sampled [0x31, 0x2F]).inSample.length = 2 ∧
      ¬ FriendlyString (sampled []).inSample ∧ (sampled []).inSample.length ≠ 2 :=
  ⟨(matchFriendly_eq_none _).mp (by decide), by decide, (matchFriendly_eq_none _).mp (by decide), by decide⟩

theorem witness_DecimalRendering : 65535 ≠ 0 := by decide

/-- 15/7/255 as a three-level group, and 15.15.255, with the string the rendering gives. -/
theorem witness_AddressRoundTrip :
    (1 : BitVec 2) ≠ 3 ∧ (0x7FFF : Half).toNat < 32768 ∧
      ({ State.reset with arg0 := 0xABCD7FFF } : State).arg0.extractLsb' 0 16 = (0x7FFF : Half) ∧
      ({ State.reset with arg0 := 0x0000FFFF } : State).arg0.extractLsb' 0 16 = (0xFFFF : Half) ∧
      (sampled (render 0x7FFF .group3)).inSample = [0x31, 0x35, 0x2F, 0x37, 0x2F, 0x32, 0x35, 0x35] := by
  decide

theorem witness_TblResolveLooksUp :
    ((3 : BitVec 3), requestTypes) ∈
        [((0 : BitVec 3), [0, 1, 2, 3, 4, 5, 6, 7, 8, 9, 10, 11, 12, 13, 14, 15]), (1, [0, 1, 2, 3]),
         (2, [0x10, 0x11, 0x13, 0x25, 0x29, 0x2B, 0x2D, 0x2E, 0x2F]), (3, requestTypes), (4, [0, 1, 2, 3])] ∧ 24 < requestTypes.length ∧
      ({ State.reset with arg0 := 0x00000955 } : State).arg0.toNat = requestTypes.getD 24 0 ∧
      ({ State.reset with arg0 := 0x00010955 } : State).arg0.toNat ∉ requestTypes ∧
      ({ State.reset with arg0 := 24 } : State).arg0.toNat < requestTypes.length ∧
      requestTypes.length ≤ ({ State.reset with arg0 := 25 } : State).arg0.toNat ∧ 5 ≤ (5 : BitVec 3).toNat := by
  exact ⟨by simp, by decide, by decide, by decide, by decide, by decide, by decide⟩

/-- data_length 2, 1 and 0 over no trailing byte, then 1 over one. -/
theorem witness_ApciUnpackUnpacks :
    (sampled []).inSample.length + 1 < ({ State.reset with arg0 := 0x00000802 } : State).arg0.toNat / 1024 % 256 ∧
      ({ State.reset with arg0 := 0x00000402 } : State).arg0.toNat / 1024 % 256 = (sampled []).inSample.length + 1 ∧
      ({ State.reset with arg0 := 0x00000002 } : State).arg0.toNat / 1024 % 256 ≤ (sampled []).inSample.length ∧
      ({ State.reset with arg0 := 0x00000402 } : State).arg0.toNat / 1024 % 256 ≤ (sampled [0x05]).inSample.length := by
  decide

theorem witness_PackThenUnpack :
    (List.replicate 255 (0x3F : Byte)).length ≤ 255 ∧ (15 : BitVec 10).toNat ≤ 15 ∧ 15 < (16 : BitVec 10).toNat := by
  decide +kernel

/-- 256 and 255 data bytes; the codes 15 and 16; the first bytes 63 and 64; no data. -/
theorem witness_CemiEncodeWritesTheFrame :
    255 < (sampled (List.replicate 256 0x3F)).inSample.length ∧ (sampled (List.replicate 255 0x3F)).inSample.length ≤ 255 ∧
      ({ State.reset with arg2 := 15 } : State).arg2.toNat / 2 ^ 0 % 2 ^ 10 ≤ 15 ∧
      15 < ({ State.reset with arg2 := 16 } : State).arg2.toNat / 2 ^ 0 % 2 ^ 10 ∧ (sampled [0x3F]).inSample ≠ [] ∧
      ((sampled [0x3F]).inSample.headD 0).toNat ≤ 63 ∧ 63 < ((sampled [0x40]).inSample.headD 0).toNat ∧
      (sampled []).inSample = [] := by
  decide +kernel

/-- A frame of 10 bytes, one whose data_length is two more than its trailing bytes, one with a packed byte, one without. -/
theorem witness_CemiDecodeReadsTheFrame :
    FrameBad (sampled [0x29, 0x00, 0xBC, 0xE0, 0x00, 0x01, 0x0A, 0x00, 0x00, 0x00]).inSample ∧
      FrameBad (sampled [0x29, 0x00, 0xBC, 0xE0, 0x00, 0x01, 0x0A, 0x00, 0x02, 0x00, 0x80]).inSample ∧
      FrameGives (sampled [0x29, 0x00, 0xBC, 0xE0, 0x00, 0x01, 0x0A, 0x00, 0x01, 0x00, 0x94]).inSample [0x14] 1 0 ∧
      FrameGives (sampled [0x29, 0x00, 0xBC, 0xE0, 0x00, 0x01, 0x0A, 0x00, 0x01, 0x00, 0x80, 0x05, 0x06]).inSample [0x05] 0 1 := by
  unfold FrameBad FrameGives
  decide

theorem witness_CemiRoundTrip :
    (sampled (List.replicate 255 0x3F)).inSample.length ≤ 255 ∧
      (sampled [0x29, 0x00, 0xBC, 0xE0, 0x00, 0x01, 0x0A, 0x00, 0x01, 0x00, 0x94]).inSample =
        [0x29, 0x00, 0xBC, 0xE0, 0x00, 0x01, 0x0A, 0x00, 0x01, 0x00, 0x94] ∧
      ({ State.reset with arg2 := 15 } : State).arg2.extractLsb' 0 10 = (15 : BitVec 10) ∧
      ({ State.reset with arg2 := 16 } : State).arg2.extractLsb' 0 10 = (16 : BitVec 10) := by
  decide +kernel

theorem witness_HdrEncodeWritesTheHeader :
    (sampled (List.replicate 65529 0x00)).inSample.length ≤ 65529 ∧
      65529 < (sampled (List.replicate 65530 0x00)).inSample.length :=
  ⟨by rw [sampled, List.length_replicate], by rw [sampled, List.length_replicate]; decide⟩

/-- Five bytes; request_length 5, and longer than the datagram; a wrapper of 37 bytes and a timer notify of 35. -/
theorem witness_HdrDecodeReadsTheHeader :
    (∀ b : List Byte,
        b ∈ [[0x06, 0x10, 0x05, 0x30, 0x00], [0x06, 0x10, 0x05, 0x30, 0x00, 0x05], [0x06, 0x10, 0x05, 0x30, 0x00, 0x07],
            [0x06, 0x10, 0x09, 0x50, 0x00, 0x25] ++ List.replicate 31 0x00,
            [0x06, 0x10, 0x09, 0x55, 0x00, 0x23] ++ List.replicate 29 0x00] →
          HeaderBad (sampled b).inSample) ∧
      (∀ b : List Byte, b ∈ [wr1, [0x06, 0x10, 0x09, 0x50, 0x00, 0x26] ++ List.replicate 32 0x00] →
          ¬ HeaderBad (sampled b).inSample ∧ wireHalf (sampled b).inSample 2 = 0x0950) ∧
      (¬ HeaderBad (sampled tn1).inSample ∧ wireHalf (sampled tn1).inSample 2 = 0x0955) ∧
      ∀ b : List Byte, b ∈ [d2, [0x07, 0x20, 0x12, 0x34, 0x00, 0x06]] →
        ¬ HeaderBad (sampled b).inSample ∧ wireHalf (sampled b).inSample 2 ≠ 0x0950 ∧ wireHalf (sampled b).inSample 2 ≠ 0x0955 := by
  unfold HeaderBad
  decide +kernel

theorem witness_KeystreamBytes : 4095 < 4096 ∧ 4096 < 65535 := by decide

theorem witness_SecNonceBuildsTheNonce :
    (sampled (List.replicate 13 0xAF)).inSample.length < 14 ∧ 14 ≤ (sampled (List.replicate 14 0xAF)).inSample.length := by
  decide

theorem witness_CmacGenNeedsTheKey :
    (withKey State.reset).keyctl.getLsbD 0 = true ∧ State.reset.keyctl.getLsbD 0 = false := by
  decide

/-- Five bytes; D2 and TN1, which are no wrappers; WR1 without the key (vector S7), under the key 0 (S14), and under its key (S2). -/
theorem witness_SecUnwrapVerifiesThenDecrypts :
    HeaderBad (sampled [0x06, 0x10, 0x09, 0x50, 0x00]).inSample ∧
      (¬ HeaderBad (sampled d2).inSample ∧ wireHalf (sampled d2).inSample 2 ≠ 0x0950) ∧
      (¬ HeaderBad (sampled tn1).inSample ∧ wireHalf (sampled tn1).inSample 2 ≠ 0x0950) ∧
      ¬ HeaderBad (sampled wr1).inSample ∧ wireHalf (sampled wr1).inSample 2 = 0x0950 ∧
      (sampled wr1).keyctl.getLsbD 0 = false ∧ ({ sampled wr1 with keyctl := 1 } : State).keyctl.getLsbD 0 = true ∧
      wrapperMac ({ sampled wr1 with keyctl := 1 } : State).key wr1 ≠ storedMac wr1 ∧
      (withKey (sampled wr1)).keyctl.getLsbD 0 = true ∧ wrapperMac (withKey (sampled wr1)).key wr1 = storedMac wr1 := by
  unfold HeaderBad
  decide +kernel

/-- Five bytes; WR1, which is no timer notify; TN1 without the key (S7), with its last byte changed (S6), and as it is (S5). -/
theorem witness_SecTimerVerifyChecksTheTag :
    HeaderBad (sampled [0x06, 0x10, 0x09, 0x55, 0x00]).inSample ∧
      (¬ HeaderBad (sampled wr1).inSample ∧ wireHalf (sampled wr1).inSample 2 ≠ 0x0955) ∧
      ¬ HeaderBad (sampled tn1).inSample ∧ wireHalf (sampled tn1).inSample 2 = 0x0955 ∧
      (sampled tn1).keyctl.getLsbD 0 = false ∧ (withKey (sampled tn1)).keyctl.getLsbD 0 = true ∧
      timerMac (withKey (sampled tn1)).key tn1 = slice tn1 20 36 ∧ ¬ HeaderBad (tn1.take 35 ++ [0x03]) ∧
      wireHalf (tn1.take 35 ++ [0x03]) 2 = 0x0955 ∧
      timerMac (withKey (sampled tn1)).key (tn1.take 35 ++ [0x03]) ≠ slice (tn1.take 35 ++ [0x03]) 20 36 := by
  unfold HeaderBad
  decide +kernel

theorem witness_SecWrapWritesTheWrapper :
    (sampled (List.replicate 15 0x00)).inSample.length < 16 ∧ 16 ≤ (sampled (List.replicate 16 0x00)).inSample.length ∧
      (sampled (List.replicate 65513 0x00)).inSample.length ≤ 65513 ∧
      65513 < (sampled (List.replicate 65514 0x00)).inSample.length ∧
      (sampled (List.replicate 65513 0x00)).keyctl.getLsbD 0 = false ∧
      (withKey (sampled (List.replicate 65513 0x00))).keyctl.getLsbD 0 = true := by
  simp only [sampled, withKey, List.length_replicate]
  decide

/-- The inputs of vector S1, and WR1, which SEC_WRAP writes for them. -/
theorem witness_WrapThenUnwrap :
    let s := withKey (sampled ([0x00, 0x01, 0x00, 0x00, 0x00, 0x00, 0x00, 0x01, 0x00, 0xFA, 0x12, 0x34, 0x56, 0x78, 0xAF, 0xFE] ++ d2))
    16 ≤ s.inSample.length ∧ s.inSample.length ≤ 65513 ∧ s.keyctl.getLsbD 0 = true ∧ (withKey (sampled wr1)).key = s.key ∧
      (withKey (sampled wr1)).keyctl.getLsbD 0 = true ∧
      wrapDatagram Config.params s.key 0x10 (slice s.inSample 0 2) (slice s.inSample 2 8) (slice s.inSample 8 14)
          (slice s.inSample 14 16) (s.inSample.drop 16) =
        wr1 := by
  decide +kernel

/-- OPEN values other than the defaults: the wrapper is type 0x0123, the timer notify 0x0124, and the cipher the one given. -/
def otherValues (cipher : Block → List Byte → List Byte → Option (List Byte)) : OpenParams :=
  { Config.openDefaults with
    reqSecureWrapper := 0x0123, reqSecureTimerNotify := 0x0124, secCipher := cipher, secEncipher := fun _ _ p => p }

/-- A cipher that leaves its text alone meets the contract of R238 and R272. -/
theorem witness_WrapThenUnwrap_cipherContract : (otherValues fun _ _ c => some c).CipherContract where
  length _ _ _ _ h := by
    cases h
    rfl
  encipher_length _ _ _ := rfl
  inverse _ _ _ := rfl

/-- WR1 with the type 0x0123, which its tag does not cover (R268): accepted by a cipher that succeeds, and one that fails; WR1 and a
timer notify are no wrappers there; 37 bytes are too few. The last three clauses run it: plaintext, R269's failure, and
UnsupportedFrameError at the defaults. -/
theorem witness_SecUnwrapAtAnyOpenValues :
    let o := otherValues fun _ _ c => some c
    let b := wr1.take 2 ++ [0x01, 0x23] ++ wr1.drop 4
    let s := withKey (sampled b)
    let short : List Byte := [0x06, 0x10, 0x01, 0x23, 0x00, 0x25] ++ List.replicate 31 0x00
    let timer : List Byte := [0x06, 0x10, 0x01, 0x24, 0x00, 0x24] ++ List.replicate 30 0x00
    (6 ≤ b.length ∧ 6 ≤ wireHalf b 4 ∧ wireHalf b 4 ≤ b.length ∧ wireHalf b 2 = o.reqSecureWrapper.toNat ∧ 38 ≤ wireHalf b 4) ∧
      (wireHalf wr1 2 ≠ o.reqSecureWrapper.toNat ∧ wireHalf wr1 2 ≠ o.reqSecureTimerNotify.toNat) ∧
      (wireHalf timer 2 = o.reqSecureTimerNotify.toNat ∧ 36 ≤ wireHalf timer 4 ∧ wireHalf timer 4 ≤ timer.length) ∧
      (wireHalf short 2 = o.reqSecureWrapper.toNat ∧ wireHalf short 4 < 38 ∧ wireHalf short 4 ≤ short.length) ∧
      (sampled b).keyctl.getLsbD 0 = false ∧ s.keyctl.getLsbD 0 = true ∧ wrapperMac s.key b = storedMac b ∧
      wrapperMac ({ sampled b with keyctl := 1 } : State).key b ≠ storedMac b ∧
      (∃ p, o.secCipher s.key (slice b 8 22 ++ [0x01]) (slice b 22 (wireHalf b 4 - 16)) = some p) ∧
      (otherValues fun _ _ _ => none).secCipher s.key (slice b 8 22 ++ [0x01]) (slice b 22 (wireHalf b 4 - 16)) = none ∧
      (secUnwrap (Config.paramsAt o) s).map (fun d => d.out) = .ok (slice b 22 39) ∧
      secUnwrap (Config.paramsAt (otherValues fun _ _ _ => none)) s = .error ⟨.authentication, .rejected⟩ ∧
      secUnwrap Config.params s = .error ⟨.unsupportedFrame, .none⟩ := by
  refine ⟨by decide, by decide, by decide, by decide, by decide, by decide, by decide +kernel, by decide +kernel, ⟨_, rfl⟩, rfl,
    ?_, ?_, ?_⟩ <;> decide +kernel

/-- OUT_BUF and RES4 as the host reads them. -/
theorem test_hostRead_outputs :
    let s : State := { State.reset with outBuf := [(0, 1), (65534, 0xAB)], res := { r4 := 7, r11 := 9 }, outLen := 5 }
    s.hostRead 0x2FFFE 8 = 0xAB ∧ s.hostRead 0x2FFFD 8 = 0 ∧ s.hostRead 0x20000 8 = 1 ∧ s.hostRead 0x090 32 = 7 ∧
      s.hostRead 0x0AC 32 = 9 ∧ s.hostRead 0x014 32 = 5 := by
  decide

/-- WR1 is accepted; with its last byte changed it differs in the cmac field alone. -/
theorem witness_TamperedTagIsRejected :
    let s := withKey (sampled wr1)
    let s' := withKey (sampled (wr1.take 54 ++ [0x50]))
    (∃ res out, Completes .secUnwrap s res out .authenticated) ∧ s'.key = s.key ∧ s'.keyctl.getLsbD 0 = true ∧
      s'.inSample.length = s.inSample.length ∧
      (∀ i, i < wireHalf s.inSample 4 - 16 ∨ wireHalf s.inSample 4 ≤ i → s'.inSample.getD i 0 = s.inSample.getD i 0) ∧
      ∃ i, wireHalf s.inSample 4 - 16 ≤ i ∧ i < wireHalf s.inSample 4 ∧ s'.inSample.getD i 0 ≠ s.inSample.getD i 0 := by
  refine ⟨⟨_, _, completes_of_rule (d := ⟨{ r0 := 0x09501006, r1 := 0x00050037, r2 := 0x00110001 }, d2, .authenticated⟩)
    (by decide +kernel) rfl rfl rfl⟩, by decide, by decide, by decide, ?_, 54, by decide, by decide, by decide⟩
  have h1 : ∀ i, i < 54 →
      (withKey (sampled (wr1.take 54 ++ [0x50]))).inSample.getD i 0 = (withKey (sampled wr1)).inSample.getD i 0 := by
    decide
  have h2 : wireHalf (withKey (sampled wr1)).inSample 4 = 55 := by decide
  intro i hi
  rw [h2] at hi
  rcases hi with hi | hi
  · exact h1 i (by omega)
  · rw [List.getD_eq_default _ _ (le_trans (by decide) hi), List.getD_eq_default _ _ (le_trans (by decide) hi)]

/-- Vector S4: a rejected command. -/
theorem witness_RejectedShowsNothing :
    ∃ t, exec .secUnwrap (withKey (sampled (wr1.take 54 ++ [0x50]))) = .next t ∧ t.secState = 3 :=
  ⟨_, rfl, by decide +kernel⟩

/-- A command that is not secure; vector S7, which ends in WRAPPED; and vector S2, which ends normally. -/
theorem witness_SecStateIsWrittenBySecureCommands :
    (∃ t, exec .apciPack State.reset = .next t) ∧ Instr.apciPack ∉ [Instr.secUnwrap, .secTimerVerify, .decode] ∧
      (∃ t, exec .secUnwrap (sampled wr1) = .next t ∧ t.secState = 1) ∧
      ∃ t, exec .secUnwrap (withKey (sampled wr1)) = .next t ∧ t.errCode = 0 :=
  ⟨⟨_, rfl⟩, by decide, ⟨_, rfl, by decide +kernel⟩, _, rfl, by decide +kernel⟩

theorem witness_DptDecodeGivesTheValue :
    ({ State.reset with arg0 := 0x00090002 } : State).arg0 ≠ 0x00090001 ∧
      ({ sampled [0x8A] with arg0 := 0x00090001 } : State).arg0 = 0x00090001 ∧
      ({ sampled [0x8A] with arg0 := 0x00090001 } : State).inSample.length < 2 ∧
      2 ≤ ({ sampled [0x8A, 0x24] with arg0 := 0x00090001 } : State).inSample.length := by
  decide

/-- The ends of the range, and one beyond each: -27301, -27300, 67076000 and 67076001 hundredths. -/
theorem witness_DptEncodeGivesTheBytes :
    ({ State.reset with arg0 := 0x00050001 } : State).arg0 ≠ 0x00090001 ∧
      ({ State.reset with arg0 := 0x00090001, arg1 := 0xFFFF955B } : State).arg1.toInt < -27300 ∧
      ({ State.reset with arg0 := 0x00090001, arg1 := 0xFFFF955C } : State).arg1.toInt = -27300 ∧
      ({ State.reset with arg0 := 0x00090001, arg1 := 0x03FF7FA0 } : State).arg1.toInt = 67076000 ∧
      67076000 < ({ State.reset with arg0 := 0x00090001, arg1 := 0x03FF7FA1 } : State).arg1.toInt := by
  decide

/-- In range and out of it; `2 ^ 4` divides -27296 and not -27300; 2047 and -2048 stand unhalved. -/
theorem witness_DptRoundTrip :
    let s (v : Word) : State := { State.reset with arg0 := 0x00090001, arg1 := v }
    (s 0xFFFF955C).arg0 = 0x00090001 ∧ (s 0xFFFF955B).arg1.toInt < -27300 ∧ 67076000 < (s 0x03FF7FA1).arg1.toInt ∧
      (s 0xFFFF955C).arg1.toInt = -27300 ∧ (s 0x000007FF).arg1.toInt = 2047 ∧ (s 0xFFFFF800).arg1.toInt = -2048 ∧
      ({ sampled [0xA1, 0x55] with arg0 := 0x00090001 } : State).inSample = [0xA1, 0x55] ∧ (2 ^ 4 : Int) ∣ -27296 := by
  decide

/-- `8A 24` is a pair the encoder produces, `08 01` is not, and both values are in range. -/
theorem witness_DptNormalForm :
    (Dpt9.ofBytes 0x8A 0x24).value ≤ 67076000 ∧ -27300 ≤ (Dpt9.ofBytes 0x8A 0x24).value ∧
      (Dpt9.ofBytes 0x08 0x01).value ≤ 67076000 ∧ -27300 ≤ (Dpt9.ofBytes 0x08 0x01).value ∧
      (Dpt9.ofBytes 0x7F 0xFE).value ≤ 67076000 := by
  decide

/-- An address as an integer, as two bytes, as a friendly string and as a raw string, with 255 and 256 data bytes. -/
theorem witness_BuildersWriteTheDatagram :
    (2 : BitVec 2) ≠ 3 ∧ ParsesTo 0 2 ({ State.reset with arg0 := 0x0000FFFF } : State).arg0.toNat [] 0xFFFF 0 1 ∧
      ParsesTo 1 1 0 ((sampled [0x0A, 0x00, 0x01]).inSample.take 2) 0x0A00 2 1 ∧
      ParsesTo 2 0 0 ((sampled [0x31, 0x2F, 0x32, 0x2F, 0x30, 0x01]).inSample.take 5) 0x0A00 1 0 ∧
      ParsesTo 2 0 0 ((sampled [0x31, 0x2F, 0x01]).inSample.take 2) 0x312F 1 1 ∧
      (5 : Half).toNat ≤ (sampled [0x31, 0x2F, 0x32, 0x2F, 0x30]).inSample.length ∧
      (sampled (List.replicate 255 0x00)).inSample.length ≤ 255 ∧ 255 < (sampled (List.replicate 256 0x00)).inSample.length :=
  ⟨by decide, .inl (by decide), .inr (.inl (by decide)),
    .inr (.inr (.inl ⟨rfl, ⟨[0x31], [0x32], [0x30], by decide, by decide, by decide, .inl (by decide)⟩, rfl⟩)),
    .inr (.inr (.inr ⟨rfl, (matchFriendly_eq_none _).mp (by decide), by decide, by decide, by decide, rfl⟩)),
    by decide, by decide +kernel, by decide +kernel⟩

/-- The spec's own example of the datagram: vectors W2 and B10. -/
theorem test_builtDatagram :
    builtDatagram State.reset 0x0A00 1 2 [0x01] = d2 ∧
      builtDatagram State.reset 0x0A00 1 0 [] =
        [0x06, 0x10, 0x05, 0x30, 0x00, 0x11, 0x29, 0x00, 0xBC, 0xE0, 0x00, 0x01, 0x0A, 0x00, 0x00, 0x00, 0x00] := by
  decide

/-- FORM 3; an address longer than IN; a byte pair of three bytes; ARG0 = 0x10000. -/
theorem witness_BuildersCheckInOrder :
    Instr.buildAction 3 0 5 ∈ [Instr.buildAction 3 0 5] ∧ (sampled [0x0A]).inSample.length < (2 : Half).toNat ∧
      (3 : Half).toNat ≤ (sampled [0x0A, 0x00, 0x01]).inSample.length ∧
      (¬ ∃ v fam raw, ParsesTo 1 0 0 ((sampled [0x0A, 0x00, 0x01]).inSample.take (3 : Half).toNat) v fam raw) ∧
      0xFFFF < ({ State.reset with arg0 := 0x00010000 } : State).arg0.toNat := by
  refine ⟨by decide, by decide, by decide, ?_, by decide⟩
  rintro ⟨v, fam, raw, h | h | h | h⟩
  · exact absurd h.1 (by decide)
  · exact absurd h.2.1 (by decide)
  · exact absurd h.1 (by decide)
  · exact absurd h.1 (by decide)

/-- Vectors G15, G1 and G14, and a request type just beyond the secure services. -/
theorem witness_DecodeOfAPlainDatagram :
    HeaderBad (sampled [0x06, 0x10, 0x05, 0x30, 0x00, 0x11]).inSample ∧
      (¬ HeaderBad (sampled d2).inSample ∧ wireHalf (sampled d2).inSample 2 < 0x0950 ∧
        FrameGives (slice (sampled d2).inSample 6 (wireHalf (sampled d2).inSample 4)) [0x01] 1 0) ∧
      (¬ HeaderBad (sampled [0x06, 0x10, 0x05, 0x30, 0x00, 0x06]).inSample ∧
        FrameBad (slice (sampled [0x06, 0x10, 0x05, 0x30, 0x00, 0x06]).inSample 6 6)) ∧
      0x0955 < wireHalf (sampled [0x06, 0x10, 0x09, 0x56, 0x00, 0x06]).inSample 2 := by
  unfold HeaderBad FrameBad FrameGives
  decide +kernel

/-- The first and last session service (vector G6), and TN1 with and without its key. -/
theorem witness_DecodeOfSessionAndTimer :
    (∀ b : List Byte, b ∈ [[0x06, 0x10, 0x09, 0x51, 0x00, 0x08, 0xAA, 0xBB], [0x06, 0x10, 0x09, 0x54, 0x00, 0x06]] →
        ¬ HeaderBad (sampled b).inSample ∧ 0x0951 ≤ wireHalf (sampled b).inSample 2 ∧ wireHalf (sampled b).inSample 2 ≤ 0x0954) ∧
      ¬ HeaderBad (sampled tn1).inSample ∧ wireHalf (sampled tn1).inSample 2 = 0x0955 ∧
      (sampled tn1).keyctl.getLsbD 0 = false ∧ ({ sampled tn1 with keyctl := 1 } : State).keyctl.getLsbD 0 = true ∧
      timerMac ({ sampled tn1 with keyctl := 1 } : State).key tn1 ≠ slice tn1 20 36 ∧
      timerMac (withKey (sampled tn1)).key tn1 = slice tn1 20 36 := by
  unfold HeaderBad
  decide +kernel

/-- The wrapper of vector G11, whose plaintext is a session datagram. -/
def wrG11 : List Byte :=
  [0x06, 0x10, 0x09, 0x50, 0x00, 0x2C, 0x00, 0x01, 0x00, 0x00, 0x00, 0x00, 0x00, 0x01, 0x00, 0xFA, 0x12, 0x34, 0x56,
   0x78, 0xAF, 0xFE, 0x7C, 0x63, 0xF4, 0x2C, 0xA3, 0xF8, 0x8D, 0xBF, 0xB0, 0x59, 0xFB, 0xC7, 0xA7, 0x6A, 0x21, 0x85,
   0x6C, 0x93, 0x94, 0x0F, 0x93, 0xFE]

/-- The wrapper of vector G12, whose plaintext is a truncated frame. -/
def wrG12 : List Byte :=
  [0x06, 0x10, 0x09, 0x50, 0x00, 0x2C, 0x00, 0x01, 0x00, 0x00, 0x00, 0x00, 0x00, 0x01, 0x00, 0xFA, 0x12, 0x34, 0x56,
   0x78, 0xAF, 0xFE, 0x7C, 0x63, 0xF8, 0x4D, 0xA3, 0xF8, 0x55, 0x9F, 0x66, 0x0F, 0x7A, 0xE2, 0xB0, 0x00, 0x3D, 0x71,
   0x4E, 0x89, 0x50, 0xC3, 0x7A, 0x8D]

/-- The wrapper of vector G13, whose plaintext is shorter than a header. -/
def wrG13 : List Byte :=
  [0x06, 0x10, 0x09, 0x50, 0x00, 0x29, 0x00, 0x01, 0x00, 0x00, 0x00, 0x00, 0x00, 0x01, 0x00, 0xFA, 0x12, 0x34, 0x56,
   0x78, 0xAF, 0xFE, 0x7B, 0x71, 0xFE, 0x3F, 0x3A, 0xBE, 0xB9, 0xBB, 0xBF, 0x59, 0x80, 0x4E, 0xB9, 0xD9, 0xBF, 0xB8,
   0xB6, 0xA2, 0x74]

/-- WR1 without its key and under another; the plaintexts of vectors G13, G11, G12 and G4, one per clause. -/
theorem witness_DecodeOfAWrapper :
    let key := (withKey State.reset).key
    (∀ b : List Byte, b ∈ [wr1, wrG11, wrG12, wrG13] →
        ¬ HeaderBad (withKey (sampled b)).inSample ∧ wireHalf b 2 = 0x0950 ∧ wrapperMac key b = storedMac b) ∧
      (sampled wr1).keyctl.getLsbD 0 = false ∧ (withKey (sampled wr1)).keyctl.getLsbD 0 = true ∧
      wrapperMac (sampled wr1).key wr1 ≠ storedMac wr1 ∧ HeaderBad (wrapperPlain key wrG13) ∧
      (¬ HeaderBad (wrapperPlain key wrG11) ∧ 0x0950 ≤ wireHalf (wrapperPlain key wrG11) 2 ∧
        wireHalf (wrapperPlain key wrG11) 2 ≤ 0x0955) ∧
      (¬ HeaderBad (wrapperPlain key wrG12) ∧ wireHalf (wrapperPlain key wrG12) 2 < 0x0950 ∧
        FrameBad (slice (wrapperPlain key wrG12) 6 (wireHalf (wrapperPlain key wrG12) 4))) ∧
      ¬ HeaderBad (wrapperPlain key wr1) ∧ wireHalf (wrapperPlain key wr1) 2 < 0x0950 ∧
      FrameGives (slice (wrapperPlain key wr1) 6 (wireHalf (wrapperPlain key wr1) 4)) [0x01] 1 0 := by
  unfold HeaderBad FrameBad FrameGives
  decide +kernel

theorem witness_DecodeReadsBuiltDatagrams :
    0xFFFF < 65536 ∧ 2 < 3 ∧ (List.replicate 255 (0x40 : Byte)).length ≤ 255 ∧
      (sampled (builtDatagram State.reset 0xFFFF 2 2 (List.replicate 255 0x40))).inSample.length = 272 := by
  decide +kernel

/-! ### Host accesses -/

/-- R27: a key register takes a write and reads 0; R62: a byte of IN_BUF reads back; R64: 65535 is no index. -/
theorem test_hostWrite :
    (State.reset.hostWrite 0x034 32 0xDEADBEEF).key1 = 0xDEADBEEF ∧
      (State.reset.hostWrite 0x034 32 0xDEADBEEF).hostRead 0x034 32 = 0 ∧
      (State.reset.hostWrite 0x1FFFE 8 0x1A5).hostRead 0x1FFFE 8 = 0xA5 ∧ State.reset.hostWrite 0x1FFFF 8 0xA5 = State.reset := by
  decide

/-- R450: reset ends a pending command; R452: a pending command ignores a write. -/
theorem test_reset_and_busy :
    (pending 0x00000033).platformReset = State.reset ∧
      (pending 0x00000033).hostWrite 0x018 32 7 = pending 0x00000033 := by
  decide

end Sys2Proof.Tests
end

/-! The header codec and SEC_UNWRAP in an engine with any OPEN values (R6): what HdrDecode and UnwrapCore answer for a datagram that
holds its request_length, with the types and the cipher of the engine. -/

namespace Sys2Proof.Machine

/-! ### The end of a command at any OPEN values -/

/-- `completes_of_ok` at any OPEN values. -/
theorem completesAt_of_ok {o : OpenParams} {i : Instr} {s : State} {d : Done}
    (h : execAt o i s = .next (s.finish (.ok d))) : CompletesAt o i s d.res d.out d.sec :=
  ⟨_, h, s.normalEnd_endedNormally d⟩

/-- `raises_of_error` at any OPEN values. -/
theorem raisesAt_of_error {o : OpenParams} {i : Instr} {s : State} {e : Raised}
    (h : execAt o i s = .next (s.finish (.error e))) : RaisesAt o i s e.err e.sec :=
  ⟨_, h, s.errorEnd_endedWithError e⟩

theorem execAt_secUnwrap (o : OpenParams) (s : State) :
    execAt o .secUnwrap s = .next (s.finish (secUnwrap (Config.paramsAt o) s)) := rfl

/-! ### The header at any parameters -/

/-- The header HdrDecode answers for `b` with the tail `t` at the parameters `P`: only type_known depends on them (R200, R202). -/
def headerAt (P : Params) (b : List Byte) (t : Tail) : Header :=
  { headerOf b t with known := knownType P (unBe16 (slice b 2 4)) }

@[simp] theorem headerAt_tail (P : Params) (b : List Byte) (t : Tail) : (headerAt P b t).tail = t := rfl

theorem headerAt_rl_toNat (P : Params) (b : List Byte) (t : Tail) : (headerAt P b t).rl.toNat = wireHalf b 4 :=
  headerOf_rl_toNat b t

theorem headerWord0_headerAt (P : Params) (b : List Byte) (t : Tail) : headerWord0 (headerAt P b t) = headerRes0 b :=
  headerWord0_headerOf b t

/-- The request type of a datagram, compared with a type of the engine. -/
theorem requestType_eq_half (b : List Byte) (v : Half) : unBe16 (slice b 2 4) = v ↔ wireHalf b 2 = v.toNat := by
  simpa using requestType_eq b v.toNat v.isLt

/-- HdrDecode of a datagram that holds its request_length: only the type's own length check is left (R202, R206, R207). -/
theorem hdrDecodeBytes_of_length (P : Params) {b : List Byte} (h6 : 6 ≤ wireHalf b 4) (hlen : wireHalf b 4 ≤ b.length) :
    hdrDecodeBytes P b =
      if wireHalf b 2 = P.reqSecureWrapper.toNat then
        if wireHalf b 4 < 38 then .error .headerLength
        else .ok (headerAt P b (.wrapper (wrapperTail b (wireHalf b 4))))
      else if wireHalf b 2 = P.reqSecureTimerNotify.toNat then
        if wireHalf b 4 < 36 then .error .headerLength else .ok (headerAt P b (.timer (timerTail b)))
      else .ok (headerAt P b .plain) := by
  have hrl : (unBe16 (slice b 4 6)).toNat = wireHalf b 4 := unBe16_slice_toNat b 4
  have hlong : ¬ b.length < 6 := by omega
  have hheld : ¬ (wireHalf b 4 < 6 ∨ b.length < wireHalf b 4) := by omega
  simp only [hdrDecodeBytes, hrl, if_neg hlong, if_neg hheld, requestType_eq_half]
  rfl

/-! ### The fields of a wrapper whose length checks hold -/

section Wrapper

variable {b : List Byte} (h38 : 38 ≤ wireHalf b 4) (hlen : wireHalf b 4 ≤ b.length)

include h38

/-- The encrypted frame is the bytes between the tail fields and the tag (R82). -/
theorem wrapperTail_c_eq_slice : (wrapperTail b (wireHalf b 4)).c = slice b 22 (wireHalf b 4 - 16) := by
  rw [wrapperTail, show 22 + (wireHalf b 4 - 38) = wireHalf b 4 - 16 by omega]

theorem wrapperTail_cmac_eq_storedMac : (wrapperTail b (wireHalf b 4)).cmac = storedMac b := by
  rw [wrapperTail, storedMac, show 22 + (wireHalf b 4 - 38) = wireHalf b 4 - 16 by omega]

include hlen

/-- The encrypted frame has the length request_length gives it (R206). -/
theorem wrapperTail_c_length_of_le : (wrapperTail b (wireHalf b 4)).c.length = wireHalf b 4 - 38 := by
  rw [wrapperTail_c_eq_slice h38, slice_length]
  omega

/-- The tag UnwrapCore computes (R268). -/
theorem wrapperTag_eq_wrapperMac (key : Block) :
    wrapperTag key (wrapperTail b (wireHalf b 4)).ts (wrapperTail b (wireHalf b 4)).ser (wrapperTail b (wireHalf b 4)).tag
      (wrapperTail b (wireHalf b 4)).c = wrapperMac key b := by
  rw [wrapperTag, nonceAuth, wrapperTail_fields, wrapperTail_c_length_of_le h38 hlen, wrapperTail_c_eq_slice h38, wrapperMac]

/-- session_id and L of a wrapper (R204). -/
theorem wrapperWord_wrapperTail : wrapperWord (wrapperTail b (wireHalf b 4)) = headerRes2 b := by
  have hc := wrapperTail_c_length_of_le h38 hlen
  have hsid : (wrapperTail b (wireHalf b 4)).sid.toNat = wireHalf b 6 := unBe16_slice_toNat b 6
  have hlt := wireHalf_lt b 4
  rw [wrapperWord_eq _ (by omega), hc, hsid, headerRes2]

end Wrapper

/-- The second word SEC_UNWRAP writes: request_length, variant 1 and type_known 1, whatever the table of types holds (R266). -/
theorem unwrapWord1_headerAt (P : Params) (b : List Byte) (t : Tail) :
    (placeAt 0 (headerAt P b t).rl ||| placeAt 16 (1 : BitVec 2) ||| placeAt 18 (1 : BitVec 1) : Word) =
      BitVec.ofNat 32 (wireHalf b 4 + 65536 + 262144) := by
  have hlt := (headerAt P b t).rl.isLt
  rw [placeAt_eq_ofNat _ _ (by omega), ofNat_or_above _ (by omega) (by omega), ofNat_or_above _ (by omega) (by simp; omega),
    headerAt_rl_toNat]
  simp

/-! ### UnwrapCore at any parameters -/

/-- UnwrapCore of a datagram that is no wrapper of this engine (R267). -/
theorem unwrapCore_noWrapper (P : Params) (key : Block) (keyValid : Bool) {b : List Byte} (h6 : 6 ≤ wireHalf b 4)
    (hlen : wireHalf b 4 ≤ b.length) (hr : wireHalf b 2 ≠ P.reqSecureWrapper.toNat)
    (ht : wireHalf b 2 = P.reqSecureTimerNotify.toNat → 36 ≤ wireHalf b 4) :
    unwrapCore P key keyValid b = .error ⟨.unsupportedFrame, .none⟩ := by
  rw [unwrapCore, hdrDecodeBytes_of_length P h6 hlen, if_neg hr]
  by_cases htimer : wireHalf b 2 = P.reqSecureTimerNotify.toNat
  · rw [if_pos htimer, if_neg (Nat.not_lt.mpr (ht htimer))]
    rfl
  · rw [if_neg htimer]
    rfl

/-- UnwrapCore of a wrapper too short for its tail fields and tag (R206, R267). -/
theorem unwrapCore_shortWrapper (P : Params) (key : Block) (keyValid : Bool) {b : List Byte} (h6 : 6 ≤ wireHalf b 4)
    (hlen : wireHalf b 4 ≤ b.length) (hr : wireHalf b 2 = P.reqSecureWrapper.toNat) (h38 : wireHalf b 4 < 38) :
    unwrapCore P key keyValid b = .error ⟨.headerLength, .none⟩ := by
  rw [unwrapCore, hdrDecodeBytes_of_length P h6 hlen, if_pos hr, if_pos h38]

/-- UnwrapCore of a wrapper: the key, the tag, then the cipher, which may fail (R267 to R269). -/
theorem unwrapCore_wrapperAt (P : Params) (key : Block) (keyValid : Bool) {b : List Byte} (h38 : 38 ≤ wireHalf b 4)
    (hlen : wireHalf b 4 ≤ b.length) (hr : wireHalf b 2 = P.reqSecureWrapper.toNat) :
    unwrapCore P key keyValid b =
      if keyValid = false then .error ⟨.keyRequired, .wrapped⟩
      else if wrapperMac key b ≠ storedMac b then .error ⟨.authentication, .rejected⟩
      else
        (P.secCipher key (slice b 8 22 ++ [0x01]) (slice b 22 (wireHalf b 4 - 16))).elim (.error ⟨.authentication, .rejected⟩)
          fun p => .ok (headerAt P b (.wrapper (wrapperTail b (wireHalf b 4))), wrapperTail b (wireHalf b 4), p) := by
  rw [unwrapCore, hdrDecodeBytes_of_length P (by omega) hlen, if_pos hr, if_neg (Nat.not_lt.mpr h38)]
  simp only [headerAt_tail, wrapperTag_eq_wrapperMac h38 hlen, wrapperTail_cmac_eq_storedMac h38]
  rw [nonceDec, wrapperTail_fields, wrapperTail_c_eq_slice h38]
  cases P.secCipher key (slice b 8 22 ++ [0x01]) (slice b 22 (wireHalf b 4 - 16)) <;> rfl

/-! ### SEC_UNWRAP at any OPEN values -/

/-- SEC_UNWRAP ends with the error of UnwrapCore (R266). -/
theorem raisesAt_secUnwrap {o : OpenParams} {s : State} {e : ErrCode} {sec : SecState}
    (h : unwrapCore (Config.paramsAt o) s.key s.keyValid s.inSample = .error ⟨e, sec⟩) : RaisesAt o .secUnwrap s e sec :=
  raisesAt_of_error (by rw [execAt_secUnwrap, secUnwrap, h])

/-- SEC_UNWRAP of a wrapper that UnwrapCore decrypts to `p` (R266). -/
theorem completesAt_secUnwrap {o : OpenParams} {s : State} {p : List Byte} (h38 : 38 ≤ wireHalf s.inSample 4)
    (hlen : wireHalf s.inSample 4 ≤ s.inSample.length)
    (h : unwrapCore (Config.paramsAt o) s.key s.keyValid s.inSample =
      .ok (headerAt (Config.paramsAt o) s.inSample (.wrapper (wrapperTail s.inSample (wireHalf s.inSample 4))),
        wrapperTail s.inSample (wireHalf s.inSample 4), p)) :
    CompletesAt o .secUnwrap s
      { r0 := headerRes0 s.inSample, r1 := BitVec.ofNat 32 (wireHalf s.inSample 4 + 65536 + 262144),
        r2 := headerRes2 s.inSample } p .authenticated := by
  rw [← headerWord0_headerAt (Config.paramsAt o) s.inSample (.wrapper (wrapperTail s.inSample (wireHalf s.inSample 4))),
    ← unwrapWord1_headerAt (Config.paramsAt o) s.inSample (.wrapper (wrapperTail s.inSample (wireHalf s.inSample 4))),
    ← wrapperWord_wrapperTail h38 hlen]
  exact completesAt_of_ok (d := ⟨_, p, .authenticated⟩) (by rw [execAt_secUnwrap, secUnwrap, h])

/-- Settles O60: each clause is one branch of UnwrapCore at the engine's own types and cipher. -/
theorem secUnwrapAtAnyOpenValues : Obligations.SecUnwrapAtAnyOpenValues := by
  intro o s b rl r _ h6 hlen
  refine ⟨fun hr ht => ?noWrapper, fun hr hshort => ?short, fun hr h38 => ?wrapper⟩
  case noWrapper => exact raisesAt_secUnwrap (unwrapCore_noWrapper _ _ _ h6 hlen hr ht)
  case short => exact raisesAt_secUnwrap (unwrapCore_shortWrapper _ _ _ h6 hlen hr hshort)
  case wrapper =>
    have core := unwrapCore_wrapperAt (Config.paramsAt o) s.key s.keyValid h38 hlen hr
    refine ⟨fun hkey => ?noKey, fun hkey => ?wrongTag, fun hkey hmac => ?rightTag⟩
    case noKey => exact raisesAt_secUnwrap (core.trans (if_pos hkey))
    all_goals
      have hvalid : ¬ s.keyValid = false := by simpa [State.keyValid] using hkey
      rw [if_neg hvalid] at core
    case wrongTag => exact fun hmac => raisesAt_secUnwrap (core.trans (if_pos hmac))
    case rightTag =>
      rw [if_neg (not_not.mpr hmac)] at core
      change _ = r.elim _ _ at core
      refine ⟨fun hfails => ?cipherFails, fun p hp => ?accepted⟩
      case cipherFails =>
        rw [hfails] at core
        exact raisesAt_secUnwrap core
      case accepted =>
        rw [hp] at core
        exact completesAt_secUnwrap h38 hlen core

end Sys2Proof.Machine

/-! The state as every step leaves it: the STATUS of an ended command, the ENGINE's turn, and the invariant (10_state.md R20 to R34;
60_exceptions.md R401 to R403). -/

namespace Sys2Proof.Machine

/-! ### The STATUS fields of an ended command -/

@[simp] theorem State.normalEnd_done (s : State) (d : Done) : (s.normalEnd d).done = true := statusWord_done _ _ _ _

@[simp] theorem State.errorEnd_done (s : State) (e : Raised) : (s.errorEnd e).done = true := statusWord_done _ _ _ _

@[simp] theorem State.normalEnd_errCode (s : State) (d : Done) : (s.normalEnd d).errCode = 0 := statusWord_errCode _ _ _ _

@[simp] theorem State.errorEnd_errCode (s : State) (e : Raised) : (s.errorEnd e).errCode = e.err.code :=
  statusWord_errCode _ _ _ _

@[simp] theorem State.normalEnd_err (s : State) (d : Done) : (s.normalEnd d).err = false := statusWord_err _ _ _ _

@[simp] theorem State.errorEnd_err (s : State) (e : Raised) : (s.errorEnd e).err = (e.err.code != 0) := statusWord_err _ _ _ _

@[simp] theorem State.normalEnd_secState (s : State) (d : Done) : (s.normalEnd d).secState = d.sec.code := statusWord_sec _ _ _ _

@[simp] theorem State.errorEnd_secState (s : State) (e : Raised) : (s.errorEnd e).secState = e.sec.code := statusWord_sec _ _ _ _

/-- The codes of R400 are 1 to 10. -/
theorem ErrCode.code_ne_zero (e : ErrCode) : e.code ≠ 0 := by
  cases e <;> decide

theorem ErrCode.code_le_ten (e : ErrCode) : e.code.toNat ≤ 10 := by
  cases e <;> decide

@[simp] theorem State.finish_busy (s : State) (r : Except Raised Done) : (s.finish r).busy = false := by
  cases r with
  | ok d => exact s.normalEnd_busy d
  | error e => exact s.errorEnd_busy e

@[simp] theorem State.finish_done (s : State) (r : Except Raised Done) : (s.finish r).done = true := by
  cases r with
  | ok d => exact s.normalEnd_done d
  | error e => exact s.errorEnd_done e

/-- ERR_CODE of an ended command is 0 or a code of R400, and ERR says which (R22, R402, R403). -/
theorem State.finish_err (s : State) (r : Except Raised Done) :
    ((s.finish r).err = true ↔ (s.finish r).errCode ≠ 0) ∧ (s.finish r).errCode.toNat ≤ 10 := by
  cases r with
  | ok d => simp
  | error e => simp [e.err.code_le_ten]

/-- Beside an error a command leaves no result and no output (R403). -/
theorem State.finish_shows_nothing (s : State) (r : Except Raised Done) (h : (s.finish r).errCode ≠ 0) :
    (s.finish r).res = {} ∧ (s.finish r).outLen = 0 ∧ ∀ i, (s.finish r).outBuf.read i = 0 := by
  cases r with
  | ok d => exact absurd (s.normalEnd_errCode d) h
  | error e => exact ⟨rfl, rfl, fun _ => rfl⟩

/-! ### The ENGINE's turn -/

/-- Where no command is pending the ENGINE's turn changes nothing (R418), whatever commands mean. -/
theorem State.engineTurnBy_idle (ex : Meaning) {s : State} (hb : s.busy = false) : s.engineTurnBy ex = .next s := by
  simp [State.engineTurnBy, hb]

/-- On the ENGINE's turn the step of an idle engine only takes the turn off the event list (log 16). -/
theorem stepBy_idle (ex : Meaning) {s : State} {rest : List Event} (ht : EnginesTurn s rest) (hb : s.busy = false) :
    stepBy ex s = .next { s with env := rest } := by
  rcases ht with ⟨hnil, rfl⟩ | hcons
  · have same : { s with env := [] } = s := by rw [← hnil]
    rw [same, stepBy, hnil]
    exact State.engineTurnBy_idle ex hb
  · rw [stepBy, hcons]
    exact State.engineTurnBy_idle ex hb

/-- A pending command that CMD names runs by its meaning (R20). -/
theorem State.runPendingBy_of_decode (ex : Meaning) {s : State} {i : Instr} (hi : decode s.cmd = .ok i) :
    s.runPendingBy ex = ex i s := by
  rw [State.runPendingBy, hi]

theorem State.engineTurn_idle {s : State} (hb : s.busy = false) : s.engineTurn = .next s := State.engineTurnBy_idle exec hb

theorem State.engineTurn_pending {s : State} (hb : s.busy = true) : s.engineTurn = s.runPendingBy exec := by
  simp [State.engineTurn, State.engineTurnBy, hb]

/-- Settles O5: on the ENGINE's turn the step runs the pending command, by its meaning at the defaults or at any OPEN values. -/
theorem stepRunsTheDecodedCommand : Obligations.StepRunsTheDecodedCommand := by
  intro s rest i ht hb hi
  have run : ∀ ex : Meaning, stepBy ex s = ex i { s with env := rest } := fun ex =>
    (stepBy_pending ex ht hb).trans (State.runPendingBy_of_decode ex hi)
  exact ⟨run exec, fun o => run (execAt o)⟩

/-- Settles O13: an idle engine's step at the meanings of the defaults. -/
theorem idleEngineKeepsItsState : Obligations.IdleEngineKeepsItsState :=
  fun _ _ hb ht => stepBy_idle exec ht hb

/-- Settles O9: the turn ends the command with what its rule came to, or as an illegal encoding, and each clause is what every
such end does. -/
theorem engineTurnEndsTheCommand : Obligations.EngineTurnEndsTheCommand := by
  intro s rest hb ht
  obtain ⟨r, hrun, -⟩ := runPending_eq { s with env := rest }
  obtain ⟨frame, cleared⟩ := State.finish_frame { s with env := rest } r
  obtain ⟨herr, hcode⟩ := State.finish_err { s with env := rest } r
  exact ⟨_, (step_pending ht hb).trans hrun, State.finish_busy _ r, State.finish_done _ r, cleared, frame, herr, hcode,
    State.finish_shows_nothing _ r⟩

/-! ### The invariant -/

/-- A word below `2 ^ lo` has no bit at or above `lo`. -/
theorem extractLsb'_eq_zero_of_lt {x : Word} {lo n : Nat} (h : x.toNat < 2 ^ lo) : x.extractLsb' lo n = 0 := by
  apply BitVec.eq_of_toNat_eq
  rw [BitVec.extractLsb'_toNat, Nat.shiftRight_eq_div_pow, Nat.div_eq_of_lt h]
  simp

/-- A masked write leaves no bit at or above the mask's length. -/
theorem extractLsb'_and_eq_zero (v : Word) {mask : Word} {lo n : Nat} (h : mask.toNat < 2 ^ lo) :
    (v &&& mask).extractLsb' lo n = 0 :=
  extractLsb'_eq_zero_of_lt (by
    rw [BitVec.toNat_and]
    exact lt_of_le_of_lt Nat.and_le_right h)

/-- The invariant says nothing of what belongs to the host. -/
theorem State.Inv.withHost {s : State} (h : s.Inv) (env : List Event) (d : Word) :
    State.Inv { s with env := env, busData := d } := { h with }

@[simp] theorem State.platformReset_busy (s : State) : s.platformReset.busy = false := by
  simp [State.busy]

/-- The platform's reset meets the invariant (R450, R451). -/
theorem State.platformReset_inv (s : State) : s.platformReset.Inv where
  status := .inl rfl
  opt := by simp
  src := by simp
  inLen := by simp
  outLen := by simp
  keyctl := by simp
  inBuf := rfl
  outBuf := rfl
  outZero _ _ := rfl
  pending hb := absurd hb (by simp)
  idle _ := rfl

/-- A command start takes the sample and shows no result (R401). -/
theorem State.Inv.commandStart {s : State} (h : s.Inv) (v : Word) : (s.commandStart v).Inv :=
  { h with
    status := .inr (.inl rfl)
    outLen := by simp
    outBuf := rfl
    outZero := fun _ _ => rfl
    pending := fun _ => ⟨rfl, rfl, rfl, rfl⟩
    idle := fun hb => absurd (s.commandStart_busy v) (by simp [hb]) }

/-- A normal end keeps the invariant where its output fits OUT_BUF (R402). -/
theorem State.Inv.normalEnd {s : State} (h : s.Inv) {d : Done} (hd : d.out.length ≤ 65535) : (s.normalEnd d).Inv := by
  have hlen : (BitVec.ofNat 32 d.out.length).toNat = d.out.length := by
    rw [BitVec.toNat_ofNat]
    omega
  exact
    { h with
      status := .inr (.inr (.inl ⟨d.sec, rfl⟩))
      outLen := extractLsb'_eq_zero_of_lt (by rw [State.normalEnd_outLen, hlen]; omega)
      keyctl := by simp
      outBuf := Memory.ofBytes_wf d.out hd
      outZero := fun i hi => by
        rw [State.normalEnd_outLen, hlen] at hi
        rw [State.normalEnd_outBuf, Memory.read_ofBytes, List.getD_eq_default _ _ hi]
      pending := fun hb => absurd (s.normalEnd_busy d) (by simp [hb])
      idle := fun _ => rfl }

/-- An error end keeps the invariant (R403). -/
theorem State.Inv.errorEnd {s : State} (h : s.Inv) (e : Raised) : (s.errorEnd e).Inv :=
  { h with
    status := .inr (.inr (.inr ⟨e.err, e.sec, rfl⟩))
    outLen := by simp
    keyctl := by simp
    outBuf := rfl
    outZero := fun _ _ => rfl
    pending := fun hb => absurd (s.errorEnd_busy e) (by simp [hb])
    idle := fun _ => rfl }

/-- A register write of the host on an idle engine keeps the invariant (R23 to R29). -/
theorem State.Inv.writeReg {s : State} (h : s.Inv) (hb : s.busy = false) (off : Nat) (v : Word) : (s.writeReg off v).Inv := by
  unfold State.writeReg
  split
  case h_1 => exact h.commandStart v
  case h_2 => exact { h with opt := extractLsb'_and_eq_zero v (by decide) }
  case h_3 => exact { h with src := extractLsb'_and_eq_zero v (by decide) }
  case h_4 =>
    exact
      { h with
        inLen := extractLsb'_and_eq_zero v (by decide)
        pending := fun hp => absurd (hb.symm.trans hp) Bool.false_ne_true }
  case h_13 => exact { h with keyctl := extractLsb'_and_eq_zero v (by decide) }
  all_goals exact { h with }

/-- A host write keeps the invariant (R62 to R65, R452). -/
theorem State.Inv.hostWrite {s : State} (h : s.Inv) (addr : BitVec 18) (bits : Nat) (v : Word) :
    (s.hostWrite addr bits v).Inv := by
  rcases s.hostWrite_cases addr bits v with hw | ⟨hb, ⟨off, -, hw⟩ | ⟨i, hl, hw⟩⟩ <;> rw [hw]
  · exact h
  · exact h.writeReg hb off v
  · obtain ⟨-, hi, -⟩ := locate_inBuf hl
    exact
      { h with
        inBuf := Memory.write_wf h.inBuf hi _
        pending := fun hp => absurd (hb.symm.trans hp) Bool.false_ne_true }

/-- The sample of a pending command fits IN_BUF (R31). -/
theorem State.Inv.inSample_length_le {s : State} (h : s.Inv) (hb : s.busy = true) : s.inSample.length ≤ 65535 := by
  obtain ⟨hs, -, -, -⟩ := h.pending hb
  rw [hs]
  exact Nat.le_of_lt_succ s.inputBytes_length_lt

/-- Every end of a pending command keeps the invariant: its sample fits IN_BUF, so its output fits OUT_BUF. -/
theorem State.Inv.finish_ruleOf {s : State} (h : s.Inv) (hb : s.busy = true) (i : Instr) : (s.finish (ruleOf i s)).Inv := by
  cases hr : ruleOf i s with
  | ok d =>
    obtain ⟨-, hfits⟩ := ruleOf_ok hr
    exact h.normalEnd (hfits (h.inSample_length_le hb))
  | error e => exact h.errorEnd e

/-- The ENGINE's turn keeps the invariant (R20). -/
theorem State.Inv.engineTurn {s t : State} (h : s.Inv) (ht : s.engineTurn = .next t) : t.Inv := by
  cases hb : s.busy with
  | false =>
    rw [State.engineTurn_idle hb] at ht
    cases ht
    exact h
  | true =>
    obtain ⟨r, hrun, hr⟩ := runPending_eq s
    rw [State.engineTurn_pending hb, hrun] at ht
    cases ht
    rcases hr with ⟨i, -, rfl⟩ | ⟨-, rfl⟩
    · exact h.finish_ruleOf hb i
    · exact h.errorEnd _

/-- Settles O8, by the cases of a step: the ENGINE's turn, the platform's reset, a host write and a host read. -/
theorem stepKeepsTheInvariant : Obligations.StepKeepsTheInvariant := by
  intro s t h ht
  rcases step_cases s with ⟨-, hs⟩ | ⟨e, rest, -, ⟨-, hs⟩ | ⟨-, hs⟩ | ⟨addr, bits, v, -, hs⟩ | ⟨addr, bits, -, hs⟩⟩ <;>
    rw [hs] at ht
  · exact h.engineTurn ht
  · exact (h.withHost rest s.busData).engineTurn ht
  · cases ht
    exact State.platformReset_inv _
  · cases ht
    exact (h.withHost rest s.busData).hostWrite addr bits v
  · cases ht
    exact h.withHost rest _

end Sys2Proof.Machine

/-! What the host reads and writes, and what a command's outcome depends on (20_memory.md R62 to R65; 10_state.md R27, R28, R31,
R33). -/

namespace Sys2Proof.Machine

/-! ### Where a host access goes -/

/-- An aligned 32-bit access of the window names the register at that offset (R62, R63). -/
theorem locate_ofNat_register {off : Nat} (hoff : off < 0x100) (halign : off % 4 = 0) :
    locate (BitVec.ofNat 18 off) 32 = .register off := by
  have ha : (BitVec.ofNat 18 off).toNat = off := by
    rw [BitVec.toNat_ofNat]
    omega
  simp [locate, ha, hoff, halign]

/-- An 8-bit access of the input buffer's window names that byte (R62). -/
theorem locate_ofNat_inBuf {i : Nat} (hi : i < 65535) : locate (BitVec.ofNat 18 (0x10000 + i)) 8 = .inBuf i := by
  have ha : (BitVec.ofNat 18 (0x10000 + i)).toNat = 0x10000 + i := by
    rw [BitVec.toNat_ofNat]
    omega
  have hreg : ¬ 0x10000 + i < 0x100 := by omega
  have hwin : 0x10000 ≤ 0x10000 + i ∧ 0x10000 + i ≤ 0x1FFFE := by omega
  simp only [locate, ha, if_neg hreg, if_pos hwin, if_true, Nat.add_sub_cancel_left]

/-- An 8-bit access of the output buffer's window names that byte (R62). -/
theorem locate_ofNat_outBuf {i : Nat} (hi : i < 65535) : locate (BitVec.ofNat 18 (0x20000 + i)) 8 = .outBuf i := by
  have ha : (BitVec.ofNat 18 (0x20000 + i)).toNat = 0x20000 + i := by
    rw [BitVec.toNat_ofNat]
    omega
  have hreg : ¬ 0x20000 + i < 0x100 := by omega
  have hin : ¬ (0x10000 ≤ 0x20000 + i ∧ 0x20000 + i ≤ 0x1FFFE) := by omega
  have hwin : 0x20000 ≤ 0x20000 + i ∧ 0x20000 + i ≤ 0x2FFFE := by omega
  simp only [locate, ha, if_neg hreg, if_neg hin, if_pos hwin, if_true, Nat.add_sub_cancel_left]

theorem State.hostRead_register (s : State) {off : Nat} (hoff : off < 0x100) (halign : off % 4 = 0) :
    s.hostRead (BitVec.ofNat 18 off) 32 = s.readReg off := by
  rw [State.hostRead, locate_ofNat_register hoff halign]

theorem State.hostRead_inBuf (s : State) {i : Nat} (hi : i < 65535) :
    s.hostRead (BitVec.ofNat 18 (0x10000 + i)) 8 = (s.inBuf.read i).setWidth 32 := by
  rw [State.hostRead, locate_ofNat_inBuf hi]

theorem State.hostRead_outBuf (s : State) {i : Nat} (hi : i < 65535) :
    s.hostRead (BitVec.ofNat 18 (0x20000 + i)) 8 = (s.outBuf.read i).setWidth 32 := by
  rw [State.hostRead, locate_ofNat_outBuf hi]

theorem State.hostWrite_register {s : State} (hb : s.busy = false) {off : Nat} (hoff : off < 0x100) (halign : off % 4 = 0)
    (v : Word) : s.hostWrite (BitVec.ofNat 18 off) 32 v = s.writeReg off v := by
  simp only [State.hostWrite, hb, locate_ofNat_register hoff halign, Bool.false_eq_true, if_false]

theorem State.hostWrite_inBuf {s : State} (hb : s.busy = false) {i : Nat} (hi : i < 65535) (v : Word) :
    s.hostWrite (BitVec.ofNat 18 (0x10000 + i)) 8 v = { s with inBuf := s.inBuf.write i (v.extractLsb' 0 8) } := by
  simp only [State.hostWrite, hb, locate_ofNat_inBuf hi, Bool.false_eq_true, if_false]

/-- The result registers stand at offsets 0x80 to 0xAC (R21, R30). -/
theorem State.readReg_result (s : State) {k : Nat} (hk : k < 12) : s.readReg (0x80 + 4 * k) = s.res.get k := by
  interval_cases k <;> rfl

/-- KEY0 to KEY3 are write-only (R27). -/
theorem State.readReg_key (s : State) {k : Nat} (hk : k < 4) : s.readReg (0x30 + 4 * k) = 0 := by
  interval_cases k <;> rfl

/-- The writable registers that a host read shows, each with the bits of it that are not reserved (R21, R24 to R29). -/
def visibleRegisters : List (Nat × Word) :=
  [(0x008, 0x0000FFFF), (0x00C, 0x0000FFFF), (0x010, 0x0000FFFF), (0x018, 0xFFFFFFFF), (0x01C, 0xFFFFFFFF), (0x020, 0xFFFFFFFF),
   (0x024, 0xFFFFFFFF), (0x040, 0x00000001)]

/-- A visible register shows what was written, with its reserved bits 0. -/
theorem State.readReg_writeReg (s : State) (v : Word) {off : Nat} {mask : Word} (h : (off, mask) ∈ visibleRegisters) :
    (s.writeReg off v).readReg off = v &&& mask := by
  have whole : v = v &&& 0xFFFFFFFF := (BitVec.and_allOnes (x := v)).symm
  simp only [visibleRegisters, List.mem_cons, List.not_mem_nil, or_false, Prod.mk.injEq] at h
  rcases h with ⟨rfl, rfl⟩ | ⟨rfl, rfl⟩ | ⟨rfl, rfl⟩ | ⟨rfl, rfl⟩ | ⟨rfl, rfl⟩ | ⟨rfl, rfl⟩ | ⟨rfl, rfl⟩ | ⟨rfl, rfl⟩
  exacts [rfl, rfl, rfl, whole, whole, whole, whole, rfl]

theorem visibleRegisters_offset : ∀ r ∈ visibleRegisters, r.1 < 0x100 ∧ r.1 % 4 = 0 := by
  decide

/-- Settles O16: each register and each buffer byte at its address, then the visible registers after a write. -/
theorem registersReadBack : Obligations.RegistersReadBack := by
  intro s
  have reads : ∀ off, off < 0x100 ∧ off % 4 = 0 → s.hostRead (BitVec.ofNat 18 off) 32 = s.readReg off :=
    fun _ ⟨hoff, halign⟩ => s.hostRead_register hoff halign
  refine ⟨?registers, fun k hk => ?results, fun i hi => s.hostRead_outBuf hi, fun i hi => s.hostRead_inBuf hi,
    fun v mask addr hb hmem => ?written⟩
  case registers =>
    exact ⟨reads 0x000 (by decide), reads 0x004 (by decide), reads 0x008 (by decide), reads 0x00C (by decide),
      reads 0x010 (by decide), reads 0x014 (by decide), reads 0x018 (by decide), reads 0x01C (by decide),
      reads 0x020 (by decide), reads 0x024 (by decide), reads 0x040 (by decide)⟩
  case results => rw [reads _ (by omega), s.readReg_result hk]
  case written =>
    have hmap : (addr, mask) ∈ visibleRegisters.map fun r => (BitVec.ofNat 18 r.1, r.2) := hmem
    obtain ⟨⟨off, bits⟩, hvis, heq⟩ := List.mem_map.mp hmap
    cases heq
    obtain ⟨hoff, halign⟩ := visibleRegisters_offset _ hvis
    rw [State.hostWrite_register hb hoff halign, State.hostRead_register _ hoff halign, s.readReg_writeReg v hvis]

/-- Settles O17: the access is a write of the buffer, which keeps its canonical form. -/
theorem inputBufferReadsBack : Obligations.InputBufferReadsBack := by
  intro s i v hb hwf hi
  simp only [State.hostWrite_inBuf hb hi, State.hostRead_inBuf _ hi, Memory.read_write_same hwf]
  refine ⟨?byte, fun j hj => Memory.read_write_other hwf hj _, Memory.write_wf hwf hi _⟩
  apply BitVec.eq_of_toNat_eq
  simp

/-! ### The key -/

/-- Byte `k` of a block is byte `k % 4` of its column `k / 4` (R230). -/
theorem State.key_bytes_getD (s : State) {k : Nat} (hk : k < 16) :
    s.key.bytes.getD k 0 = ([s.key0, s.key1, s.key2, s.key3].getD (k / 4) 0).extractLsb' (24 - 8 * (k % 4)) 8 := by
  interval_cases k <;> rfl

/-- Settles O18: the byte places, the write-only reads, the writes, and the clearing at every command's end. -/
theorem keyRegisters : Obligations.KeyRegisters := by
  intro s
  refine ⟨fun k hk => s.key_bytes_getD hk, fun k hk => ?hidden, fun hb v => ?written, fun hb => ?cleared, rfl, rfl, rfl, rfl⟩
  case hidden => rw [s.hostRead_register (by omega) (by omega), s.readReg_key hk]
  case written =>
    have writes : ∀ off, off < 0x100 ∧ off % 4 = 0 → s.hostWrite (BitVec.ofNat 18 off) 32 v = s.writeReg off v :=
      fun _ ⟨hoff, halign⟩ => State.hostWrite_register hb hoff halign v
    exact ⟨congrArg State.key0 (writes 0x030 (by decide)), congrArg State.key1 (writes 0x034 (by decide)),
      congrArg State.key2 (writes 0x038 (by decide)), congrArg State.key3 (writes 0x03C (by decide))⟩
  case cleared =>
    obtain ⟨r, hrun, -⟩ := runPending_eq s
    obtain ⟨-, cleared⟩ := s.finish_frame r
    exact ⟨_, (State.engineTurn_pending hb).trans hrun, cleared.key0, cleared.key1, cleared.key2, cleared.key3⟩

/-! ### What a command's outcome depends on -/

/-- An end clears the key, so what the KEY registers and KEYCTL held does not show in it (R402, R403). -/
theorem State.finish_withKey (s : State) (k0 k1 k2 k3 c : Word) (r : Except Raised Done) :
    State.finish { s with key0 := k0, key1 := k1, key2 := k2, key3 := k3, keyctl := c } r = s.finish r := by
  cases r <;> rfl

/-- An end leaves IN_BUF, IN_LEN and ARG3 as they are (R402, R403). -/
theorem State.finish_withInput (s : State) (m : Memory) (n x : Word) (r : Except Raised Done) :
    State.finish { s with inBuf := m, inLen := n, arg3 := x } r = { s.finish r with inBuf := m, inLen := n, arg3 := x } := by
  cases r <;> rfl

/-- No rule reads IN_BUF, IN_LEN or ARG3: each takes its input from the sample (R31, R93). -/
theorem ruleOf_withInput (i : Instr) (s : State) (m : Memory) (n x : Word) :
    ruleOf i { s with inBuf := m, inLen := n, arg3 := x } = ruleOf i s := by
  cases i <;> rfl

/-- The rule of a command that needs no key reads neither the KEY registers nor KEYCTL (R28). -/
theorem ruleOf_withKey {i : Instr} (hi : i ∉ [Instr.cmacGen, .secUnwrap, .secTimerVerify, .secWrap, .decode]) (s : State)
    (k0 k1 k2 k3 c : Word) :
    ruleOf i { s with key0 := k0, key1 := k1, key2 := k2, key3 := k3, keyctl := c } = ruleOf i s := by
  cases i
  case cmacGen => exact absurd (by simp) hi
  case secUnwrap => exact absurd (by simp) hi
  case secTimerVerify => exact absurd (by simp) hi
  case secWrap => exact absurd (by simp) hi
  case decode => exact absurd (by simp) hi
  all_goals rfl

/-- Without a valid key UnwrapCore ends before it uses the key (R267). -/
theorem unwrapCore_of_no_key (P : Params) (key key' : Block) (b : List Byte) :
    unwrapCore P key false b = unwrapCore P key' false b := by
  simp only [unwrapCore, if_true]

/-- Without a valid key TimerCore ends before it uses the key (R271). -/
theorem timerCore_of_no_key (P : Params) (key key' : Block) (b : List Byte) :
    timerCore P key false b = timerCore P key' false b := by
  simp only [timerCore, if_true]

/-- DECODE reads the key only in its two cores, the sample, and OPT (R317, R318). -/
theorem decodeDatagram_congr (P : Params) {s t : State} (hin : t.inSample = s.inSample) (hopt : t.opt = s.opt)
    (hunwrap : unwrapCore P t.key t.keyValid s.inSample = unwrapCore P s.key s.keyValid s.inSample)
    (htimer : timerCore P t.key t.keyValid s.inSample = timerCore P s.key s.keyValid s.inSample) :
    decodeDatagram P t = decodeDatagram P s := by
  have hdisplay : displayWord t = displayWord s := by
    funext fr
    rw [displayWord, displayWord, destFmt, destFmt, State.optTwoLevelGroup, State.optTwoLevelGroup, hopt]
  simp only [decodeDatagram, decodeWrapper, decodeTimer, decodePlain, hin, hunwrap, htimer, hdisplay]

/-- While KEY_VALID is 0 no rule reads the KEY registers (R28, R412). -/
theorem ruleOf_withKey_of_no_key (i : Instr) {s : State} (hv : s.keyctl.getLsbD 0 = false) (k0 k1 k2 k3 : Word) :
    ruleOf i { s with key0 := k0, key1 := k1, key2 := k2, key3 := k3 } = ruleOf i s := by
  by_cases hi : i ∉ [Instr.cmacGen, .secUnwrap, .secTimerVerify, .secWrap, .decode]
  · exact ruleOf_withKey hi s k0 k1 k2 k3 s.keyctl
  · have hs : s.keyValid = false := hv
    have hs' : State.keyValid { s with key0 := k0, key1 := k1, key2 := k2, key3 := k3 } = false := hv
    simp only [not_not, List.mem_cons, List.not_mem_nil, or_false] at hi
    rcases hi with rfl | rfl | rfl | rfl | rfl
    · simp only [ruleOf, cmacGen, hs, hs', Bool.false_eq_true, if_false]
    · simp only [ruleOf, secUnwrap, hs, hs', unwrapCore_of_no_key _ _ s.key]
    · simp only [ruleOf, secTimerVerify, hs, hs', timerCore_of_no_key _ _ s.key]
    · simp only [ruleOf, secWrap, hs, hs', if_true]
    · refine decodeDatagram_congr Config.params rfl rfl ?_ ?_ <;> rw [hs, hs']
      · exact unwrapCore_of_no_key _ _ _ _
      · exact timerCore_of_no_key _ _ _ _

/-- Settles O19: the rule does not read the key, and the end clears it. -/
theorem keysReachOnlyKeyedCommands : Obligations.KeysReachOnlyKeyedCommands := by
  intro i s k0 k1 k2 k3 c
  refine ⟨fun hv => ?noKey, fun hi => ?unkeyed⟩
  case noKey => rw [exec_eq, exec_eq, ruleOf_withKey_of_no_key i hv, ← s.finish_withKey k0 k1 k2 k3 s.keyctl]
  case unkeyed => rw [exec_eq, exec_eq, ruleOf_withKey hi, s.finish_withKey]

/-- The sample depends on IN_LEN and on the bytes below it alone (R31). -/
theorem State.inputBytes_congr {s s' : State} (hlen : s'.inLen = s.inLen)
    (hbytes : ∀ k, k < s.inLen.toNat % 65536 → s'.inBuf.read k = s.inBuf.read k) : s'.inputBytes = s.inputBytes := by
  have hn : (s.inLen.extractLsb' 0 16).toNat = s.inLen.toNat % 65536 := by simp
  rw [State.inputBytes, State.inputBytes, hlen, hn, Memory.bytes, Memory.bytes]
  exact List.map_congr_left fun k hk => hbytes k (List.mem_range.mp hk)

/-- Settles O20: no rule reads IN_BUF, IN_LEN or ARG3, no end writes them, and the sample is IN_BUF up to IN_LEN. -/
theorem commandsReadOnlyTheSample : Obligations.CommandsReadOnlyTheSample := by
  refine ⟨fun i s t m n x ht => ?outcome, fun s s' _ hlen hbytes => State.inputBytes_congr hlen hbytes⟩
  rw [exec_eq] at ht ⊢
  cases ht
  rw [ruleOf_withInput, State.finish_withInput]

/-! ### SEC_STATE -/

theorem SecState.eq_wrapped_of_code {x : SecState} (h : x.code = 1) : x = .wrapped := by
  revert h
  cases x <;> decide

/-- The SEC_STATE that each end of a command's rule leaves (R33, R262, R402, R403). -/
theorem ruleOf_sec (i : Instr) (s : State) :
    (∃ d, ruleOf i s = .ok d ∧ (d.sec = .none ∨ (Secure i ∧ d.sec = .authenticated))) ∨
      ∃ e, ruleOf i s = .error e ∧ (e.sec = .none ∨ (Secure i ∧ (e.sec = .wrapped → e.err = .keyRequired))) := by
  cases hr : ruleOf i s with
  | ok d => exact .inl ⟨d, rfl, (ruleOf_ok hr).1⟩
  | error e =>
    refine .inr ⟨e, rfl, ?_⟩
    rcases ruleOf_error hr with ⟨rfl, -⟩ | ⟨hnone, -, -⟩ | ⟨hsec, rfl | rfl | ⟨hauth, -, -⟩⟩
    · exact .inl rfl
    · exact .inl hnone
    · exact .inr ⟨hsec, fun _ => rfl⟩
    · exact .inr ⟨hsec, fun h => by cases h⟩
    · exact .inr ⟨hsec, fun h => by rw [hauth] at h; cases h⟩

/-- Settles O49, end by end. -/
theorem secStateIsWrittenBySecureCommands : Obligations.SecStateIsWrittenBySecureCommands := by
  have secure_mem : ∀ i, Secure i → i ∈ [Instr.secUnwrap, .secTimerVerify, .decode] := by simp [Secure]
  intro i s t ht
  rw [exec_eq] at ht
  cases ht
  rcases ruleOf_sec i s with ⟨d, hr, hd⟩ | ⟨e, hr, he⟩ <;> rw [hr]
  · simp only [State.finish_ok, State.normalEnd_secState, State.normalEnd_errCode]
    rcases hd with hnone | ⟨hsec, hauth⟩
    · simp [hnone, SecState.code]
    · exact ⟨fun hi => absurd (secure_mem i hsec) hi, by simp [hauth, SecState.code], fun _ => .inr (by rw [hauth]; rfl)⟩
  · simp only [State.finish_error, State.errorEnd_secState, State.errorEnd_errCode]
    refine ⟨fun hi => ?_, fun hw => ?_, fun h0 => absurd h0 e.err.code_ne_zero⟩
    · rcases he with hnone | ⟨hsec, -⟩
      · rw [hnone]
        rfl
      · exact absurd (secure_mem i hsec) hi
    · have hwrapped := SecState.eq_wrapped_of_code hw
      rcases he with hnone | ⟨-, hkey⟩
      · rw [hnone] at hwrapped
        cases hwrapped
      · rw [hkey hwrapped]
        rfl

end Sys2Proof.Machine

/-! Host accesses that do nothing, and what every access but a CMD write leaves alone (20_memory.md R62 to R65). -/

namespace Sys2Proof.Machine

/-! ### The offsets a register answers at -/

/-- The window offsets that a host read shows (R21); at every other offset it reads 0. -/
def readableOffsets : List Nat :=
  [0x000, 0x004, 0x008, 0x00C, 0x010, 0x014, 0x018, 0x01C, 0x020, 0x024, 0x040, 0x080, 0x084, 0x088, 0x08C, 0x090, 0x094, 0x098,
   0x09C, 0x0A0, 0x0A4, 0x0A8, 0x0AC]

/-- The window offsets that a host write reaches (R21). -/
def writableOffsets : List Nat :=
  [0x000, 0x008, 0x00C, 0x010, 0x018, 0x01C, 0x020, 0x024, 0x030, 0x034, 0x038, 0x03C, 0x040]

theorem State.readReg_of_not_mem (s : State) {off : Nat} (h : off ∉ readableOffsets) : s.readReg off = 0 := by
  unfold State.readReg
  split
  case h_24 => rfl
  all_goals exact absurd (by decide) h

theorem State.writeReg_of_not_mem (s : State) {off : Nat} (h : off ∉ writableOffsets) (v : Word) : s.writeReg off v = s := by
  unfold State.writeReg
  split
  case h_14 => rfl
  all_goals exact absurd (by decide) h

/-! ### Accesses that R64 answers with 0 or ignores -/

/-- An access of R64's kinds names no location, or an offset where no register stands. -/
theorem locate_of_noSuchAccess {addr : BitVec 18} {bits : Nat} (h : NoSuchAccess addr bits) :
    locate addr bits = .none ∨
      ∃ off, locate addr bits = .register off ∧ off ∉ readableOffsets ∧ off ∉ writableOffsets := by
  simp only [NoSuchAccess] at h
  unfold locate
  simp only [readableOffsets, writableOffsets, List.mem_cons, List.not_mem_nil, or_false]
  split_ifs with hwin haligned hin hin8 hout hout8
  · exact .inr ⟨_, rfl, by omega, by omega⟩
  · exact .inl rfl
  · omega
  · exact .inl rfl
  · omega
  · exact .inl rfl
  · exact .inl rfl

/-- A write at a read-only address names a byte of OUT_BUF, an offset no write reaches, or no location. -/
theorem locate_of_readOnly {addr : BitVec 18} (h : ReadOnly addr) (bits : Nat) :
    locate addr bits = .none ∨ (∃ i, locate addr bits = .outBuf i) ∨
      ∃ off, locate addr bits = .register off ∧ off ∉ writableOffsets := by
  simp only [ReadOnly] at h
  unfold locate
  simp only [writableOffsets, List.mem_cons, List.not_mem_nil, or_false]
  split_ifs with hwin haligned hin hin8 hout hout8
  · exact .inr (.inr ⟨_, rfl, by omega⟩)
  · exact .inl rfl
  · omega
  · exact .inl rfl
  · exact .inr (.inl ⟨_, rfl⟩)
  · exact .inl rfl
  · exact .inl rfl

theorem State.hostRead_of_noSuchAccess (s : State) {addr : BitVec 18} {bits : Nat} (h : NoSuchAccess addr bits) :
    s.hostRead addr bits = 0 := by
  rcases locate_of_noSuchAccess h with hl | ⟨off, hl, hread, -⟩ <;> rw [State.hostRead, hl]
  exact s.readReg_of_not_mem hread

/-- A write that names no place a write reaches is ignored, busy or not (R64). -/
theorem State.hostWrite_of_unreached (s : State) {addr : BitVec 18} {bits : Nat} (v : Word)
    (hreg : ∀ off, locate addr bits = .register off → off ∉ writableOffsets) (hin : ∀ i, locate addr bits ≠ .inBuf i) :
    s.hostWrite addr bits v = s := by
  rcases s.hostWrite_cases addr bits v with hw | ⟨-, ⟨off, hl, hw⟩ | ⟨i, hl, -⟩⟩
  · exact hw
  · rw [hw, s.writeReg_of_not_mem (hreg off hl)]
  · exact absurd hl (hin i)

theorem State.hostWrite_of_noSuchAccess (s : State) {addr : BitVec 18} {bits : Nat} (h : NoSuchAccess addr bits) (v : Word) :
    s.hostWrite addr bits v = s := by
  rcases locate_of_noSuchAccess h with hl | ⟨off, hl, -, hwrite⟩ <;> refine s.hostWrite_of_unreached v ?_ (by simp [hl])
  · simp [hl]
  · simpa [hl] using hwrite

theorem State.hostWrite_of_readOnly (s : State) {addr : BitVec 18} (h : ReadOnly addr) (bits : Nat) (v : Word) :
    s.hostWrite addr bits v = s := by
  rcases locate_of_readOnly h bits with hl | ⟨i, hl⟩ | ⟨off, hl, hwrite⟩ <;> refine s.hostWrite_of_unreached v ?_ (by simp [hl])
  · simp [hl]
  · simp [hl]
  · simpa [hl] using hwrite

/-! ### The step of a host access -/

/-- A host read is the step's event (R20, log 1), and changes only the value read (R65). -/
theorem step_of_read {s : State} {addr : BitVec 18} {bits : Nat} {rest : List Event} (h : s.env = .read addr bits :: rest) :
    step s = .next { s with env := rest, busData := s.hostRead addr bits } := by
  rw [step, stepBy, h]

/-- A host write is the step's event (R20, log 1). -/
theorem step_of_write {s : State} {addr : BitVec 18} {bits : Nat} {v : Word} {rest : List Event}
    (h : s.env = .write addr bits v :: rest) : step s = .next (State.hostWrite { s with env := rest } addr bits v) := by
  rw [step, stepBy, h]

/-- Settles O14: the access names no location, or an offset where no register answers. -/
theorem wrongAccessesAreHarmless : Obligations.WrongAccessesAreHarmless := by
  intro s rest addr bits v
  refine ⟨fun hno henv => ?read, fun hno henv => ?write, fun hro henv => ?readOnly⟩
  case read => rw [step_of_read henv, s.hostRead_of_noSuchAccess hno]
  case write => rw [step_of_write henv, State.hostWrite_of_noSuchAccess _ hno]
  case readOnly => rw [step_of_write henv, State.hostWrite_of_readOnly _ hro]

/-! ### What a write other than CMD's leaves alone -/

/-- Nothing of a command's course or outcome changes: STATUS, CMD, the sample, the results and the output (R22, R23, R30 to
R32). -/
structure SameOutcome (s t : State) : Prop where
  status : t.status = s.status
  cmd : t.cmd = s.cmd
  inSample : t.inSample = s.inSample
  res : t.res = s.res
  outLen : t.outLen = s.outLen
  outBuf : t.outBuf = s.outBuf

theorem SameOutcome.refl (s : State) : SameOutcome s s := ⟨rfl, rfl, rfl, rfl, rfl, rfl⟩

theorem SameOutcome.busy {s t : State} (h : SameOutcome s t) : t.busy = s.busy := by
  rw [State.busy, State.busy, h.status]

/-- What offset `x` shows depends on the outcome registers and on the one writable register that stands there (R21). -/
theorem State.readReg_congr {s t : State} {x : Nat} (h : SameOutcome s t) (hopt : x = 0x008 → t.opt = s.opt)
    (hsrc : x = 0x00C → t.src = s.src) (hinLen : x = 0x010 → t.inLen = s.inLen) (harg0 : x = 0x018 → t.arg0 = s.arg0)
    (harg1 : x = 0x01C → t.arg1 = s.arg1) (harg2 : x = 0x020 → t.arg2 = s.arg2) (harg3 : x = 0x024 → t.arg3 = s.arg3)
    (hkeyctl : x = 0x040 → t.keyctl = s.keyctl) : t.readReg x = s.readReg x := by
  by_cases hx : x ∈ readableOffsets
  case neg => rw [t.readReg_of_not_mem hx, s.readReg_of_not_mem hx]
  case pos =>
    have result : ∀ k, t.res.get k = s.res.get k := fun k => congrArg (Results.get · k) h.res
    simp only [readableOffsets, List.mem_cons, List.not_mem_nil, or_false] at hx
    rcases hx with rfl | rfl | rfl | rfl | rfl | rfl | rfl | rfl | rfl | rfl | rfl | rfl | rfl | rfl | rfl | rfl | rfl | rfl |
      rfl | rfl | rfl | rfl | rfl
    exacts [h.cmd, h.status, hopt rfl, hsrc rfl, hinLen rfl, h.outLen, harg0 rfl, harg1 rfl, harg2 rfl, harg3 rfl, hkeyctl rfl,
      result 0, result 1, result 2, result 3, result 4, result 5, result 6, result 7, result 8, result 9, result 10, result 11]

/-- A register write but CMD's starts nothing and clears nothing (R65). -/
theorem State.writeReg_sameOutcome (s : State) {off : Nat} (hoff : off ≠ 0) (v : Word) : SameOutcome s (s.writeReg off v) := by
  unfold State.writeReg
  split
  case h_1 => exact absurd rfl hoff
  all_goals exact ⟨rfl, rfl, rfl, rfl, rfl, rfl⟩

@[simp] theorem State.writeReg_inBuf (s : State) (off : Nat) (v : Word) : (s.writeReg off v).inBuf = s.inBuf := by
  unfold State.writeReg
  split <;> rfl

/-- A register write but CMD's, done twice, is done once (R65). -/
theorem State.writeReg_writeReg (s : State) {off : Nat} (hoff : off ≠ 0) (v : Word) :
    (s.writeReg off v).writeReg off v = s.writeReg off v := by
  by_cases h : off ∈ writableOffsets
  case neg => rw [s.writeReg_of_not_mem h, s.writeReg_of_not_mem h]
  case pos =>
    simp only [writableOffsets, List.mem_cons, List.not_mem_nil, or_false] at h
    rcases h with h | rfl | rfl | rfl | rfl | rfl | rfl | rfl | rfl | rfl | rfl | rfl | rfl
    · exact absurd h hoff
    all_goals rfl

/-- A register write but CMD's shows at its own offset alone (R65). -/
theorem State.readReg_writeReg_of_ne (s : State) {off x : Nat} (hoff : off ≠ 0) (hx : x ≠ off) (v : Word) :
    (s.writeReg off v).readReg x = s.readReg x := by
  unfold State.writeReg
  split
  case h_1 => exact absurd rfl hoff
  case h_14 => rfl
  -- The one field written stands at `off`, where `x` is not.
  all_goals refine State.readReg_congr ⟨rfl, rfl, rfl, rfl, rfl, rfl⟩ ?_ ?_ ?_ ?_ ?_ ?_ ?_ ?_ <;> simp [hx]

/-- What an access reads depends only on the place it names (R62, R63). -/
theorem State.hostRead_congr {s t : State} {addr : BitVec 18} {bits : Nat}
    (hreg : ∀ off, locate addr bits = .register off → t.readReg off = s.readReg off)
    (hin : ∀ i, locate addr bits = .inBuf i → t.inBuf.read i = s.inBuf.read i) (hout : t.outBuf = s.outBuf) :
    t.hostRead addr bits = s.hostRead addr bits := by
  unfold State.hostRead
  cases hl : locate addr bits with
  | register off => exact hreg off hl
  | inBuf i => exact congrArg (BitVec.setWidth 32) (hin i hl)
  | outBuf i => exact congrArg (fun m : Memory => (m.read i).setWidth 32) hout
  | none => rfl

/-- Writing the same byte at the same index twice is writing it once. -/
theorem Memory.write_write_same {m : Memory} (w : m.wf = true) {i : Nat} (hi : i < 65535) (b : Byte) :
    (m.write i b).write i b = m.write i b := by
  have once : (m.write i b).wf = true := Memory.write_wf w hi b
  refine Memory.ext_of_wfFrom (Memory.write_wf once hi b) once fun x => ?_
  rw [Memory.read_write once, Memory.read_write w]
  split <;> rfl

/-- A harmless write: done twice it is done once, the outcome stands, and no other address reads otherwise (R65). -/
structure HarmlessWrite (addr : BitVec 18) (bits : Nat) (v : Word) (s t : State) : Prop where
  again : t.hostWrite addr bits v = t
  outcome : SameOutcome s t
  others : ∀ a b, a ≠ addr → t.hostRead a b = s.hostRead a b

/-- A write of a register but CMD on an idle engine is harmless (R65). -/
theorem State.writeReg_harmless {s : State} {addr : BitVec 18} {bits off : Nat} (hb : s.busy = false)
    (hl : locate addr bits = .register off) (hoff : off ≠ 0) (v : Word) :
    HarmlessWrite addr bits v s (s.writeReg off v) where
  again := by
    have hb' : (s.writeReg off v).busy = false := (s.writeReg_sameOutcome hoff v).busy.trans hb
    rw [State.hostWrite, hb', hl]
    exact s.writeReg_writeReg hoff v
  outcome := s.writeReg_sameOutcome hoff v
  others a b ha := by
    refine State.hostRead_congr (fun x hx => s.readReg_writeReg_of_ne hoff ?_ v) (fun i _ => by rw [s.writeReg_inBuf])
      (s.writeReg_sameOutcome hoff v).outBuf
    rintro rfl
    obtain ⟨-, -, -, haddr⟩ := locate_register hl
    obtain ⟨-, -, -, hother⟩ := locate_register hx
    exact ha (BitVec.eq_of_toNat_eq (hother.trans haddr.symm))

/-- A write of one byte of IN_BUF on an idle engine is harmless (R31, R65). -/
theorem State.writeInBuf_harmless {s : State} {addr : BitVec 18} {bits i : Nat} (hb : s.busy = false) (hwf : s.inBuf.wf = true)
    (hl : locate addr bits = .inBuf i) (v : Word) :
    HarmlessWrite addr bits v s { s with inBuf := s.inBuf.write i (v.extractLsb' 0 8) } where
  again := by
    obtain ⟨-, hi, -⟩ := locate_inBuf hl
    have hb' : State.busy { s with inBuf := s.inBuf.write i (v.extractLsb' 0 8) } = false := hb
    rw [State.hostWrite, hb', hl]
    simp only [Bool.false_eq_true, if_false, Memory.write_write_same hwf hi]
  outcome := ⟨rfl, rfl, rfl, rfl, rfl, rfl⟩
  others a b ha := by
    refine State.hostRead_congr (fun _ _ => rfl) (fun j hj => Memory.read_write_other hwf ?_ _) rfl
    rintro rfl
    obtain ⟨-, -, haddr⟩ := locate_inBuf hl
    obtain ⟨-, -, hother⟩ := locate_inBuf hj
    exact ha (BitVec.eq_of_toNat_eq (hother.trans haddr.symm))

/-- Every host write but CMD's on an idle engine is harmless (R65). -/
theorem State.hostWrite_harmless {s : State} (hwf : s.inBuf.wf = true) {addr : BitVec 18} {bits : Nat}
    (h : ¬ (s.busy = false ∧ addr = 0 ∧ bits = 32)) (v : Word) : HarmlessWrite addr bits v s (s.hostWrite addr bits v) := by
  rcases s.hostWrite_cases addr bits v with hw | ⟨hb, ⟨off, hl, hw⟩ | ⟨i, hl, hw⟩⟩ <;> rw [hw]
  · exact ⟨hw, SameOutcome.refl s, fun _ _ _ => rfl⟩
  · refine State.writeReg_harmless hb hl ?_ v
    rintro rfl
    obtain ⟨hbits, -, -, haddr⟩ := locate_register hl
    exact h ⟨hb, BitVec.eq_of_toNat_eq haddr, hbits⟩
  · exact State.writeInBuf_harmless hb hwf hl v

/-- Settles O15: the read's step, a write but CMD's by the place it names, and the four KEY registers. -/
theorem onlyACommandWriteHasASideEffect : Obligations.OnlyACommandWriteHasASideEffect := by
  intro s rest addr bits v hwf
  refine ⟨step_of_read, fun hcmd => ?harmless, fun hb => ?keys⟩
  case harmless =>
    obtain ⟨again, ⟨hstatus, hcmd, hsample, hres, houtLen, houtBuf⟩, others⟩ := State.hostWrite_harmless hwf hcmd v
    exact ⟨again, hstatus, hcmd, hsample, hres, houtLen, houtBuf, others⟩
  case keys =>
    have writes : ∀ off, off < 0x100 ∧ off % 4 = 0 → s.hostWrite (BitVec.ofNat 18 off) 32 v = s.writeReg off v :=
      fun _ ⟨hoff, halign⟩ => State.hostWrite_register hb hoff halign v
    exact ⟨writes 0x030 (by decide), writes 0x034 (by decide), writes 0x038 (by decide), writes 0x03C (by decide)⟩

end Sys2Proof.Machine

/-! The command word both ways (30_encoding.md R90 to R94): a word's opcode picks its row, the row's listed bits are the encoding of
the fields read from them, and the illegal encodings are the only ones that end with IllegalCommandError. -/

namespace Sys2Proof

open Machine

/-! ### Reading the fields of a command's row -/

/-- The command of the row of `i` with its fields read from `w` (R92). -/
def Instr.readFrom (w : Word) : Instr → Instr
  | .addrParse _ _ => .addrParse (formOf w) (hintOf w)
  | .addrRender _ => .addrRender (formOf w)
  | .tblResolve _ _ => .tblResolve (dirOf w) (tableOf w)
  | .secNonce _ => .secNonce (kindOf w)
  | .buildAction _ _ _ => .buildAction (formOf w) (hintOf w) (immOf w)
  | .buildStatus _ _ _ => .buildStatus (formOf w) (hintOf w) (immOf w)
  | .buildResponse _ _ _ => .buildResponse (formOf w) (hintOf w) (immOf w)
  | i => i

/-- A word with the opcode of a row names the command of that row with the fields of the word (R91). -/
theorem decode_of_opcode {w : Word} {i : Instr} (h : opcodeOf w = i.opcode) : decode w = .ok (i.readFrom w) := by
  unfold decode
  rw [h]
  cases i <;> rfl

/-- A word names a command exactly when its opcode is the command's and its fields read as the command's. -/
theorem decode_eq_ok_iff {w : Word} {i : Instr} : decode w = .ok i ↔ opcodeOf w = i.opcode ∧ i.readFrom w = i := by
  constructor
  · intro h
    have hop := decode_opcode h
    rw [decode_of_opcode hop] at h
    exact ⟨hop, Except.ok.inj h⟩
  · rintro ⟨hop, hfields⟩
    rw [decode_of_opcode hop, hfields]

/-! ### Fields written and read back -/

/-- A field placed at bit `lo` of MODE is read back there. -/
theorem extractLsb'_placeAt {n : Nat} (lo : Nat) (x : BitVec n) (h : lo + n ≤ 8) :
    (placeAt lo x : Byte).extractLsb' lo n = x := by
  apply BitVec.eq_of_getLsbD_eq
  intro i hi
  have hbyte : lo + i < 8 := by omega
  simp [hi, hbyte]

/-- DIR and TABLE stand in bits of MODE that do not meet (R92). -/
theorem modeDirTable_fields (dir : BitVec 1) (table : BitVec 3) :
    (placeAt 7 dir ||| placeAt 0 table : Byte).extractLsb' 7 1 = dir ∧
      (placeAt 7 dir ||| placeAt 0 table : Byte).extractLsb' 0 3 = table := by
  revert dir table
  decide

/-- The fields of a command read back from its encoding are the command's (R92). -/
theorem readFrom_encode (i : Instr) : i.readFrom (encode i) = i := by
  cases i
  case addrParse form hint => simp [Instr.readFrom, encode, formOf, hintOf, Instr.mode]
  case addrRender fmt => simp [Instr.readFrom, encode, formOf, Instr.mode, extractLsb'_placeAt]
  case tblResolve dir table =>
    obtain ⟨hdir, htable⟩ := modeDirTable_fields dir table
    simp [Instr.readFrom, encode, dirOf, tableOf, Instr.mode, hdir, htable]
  case secNonce kind => simp [Instr.readFrom, encode, kindOf, Instr.mode, extractLsb'_placeAt]
  case buildAction form hint imm => simp [Instr.readFrom, encode, formOf, hintOf, Instr.mode, Instr.imm]
  case buildStatus form hint imm => simp [Instr.readFrom, encode, formOf, hintOf, Instr.mode, Instr.imm]
  case buildResponse form hint imm => simp [Instr.readFrom, encode, formOf, hintOf, Instr.mode, Instr.imm]
  all_goals rfl

/-- Settles O1: the opcode picks the row, and the row's fields read back. -/
theorem encodeThenDecode : Obligations.EncodeThenDecode := fun i =>
  decode_eq_ok_iff.mpr ⟨opcodeOf_commandWord _ _ _, readFrom_encode i⟩

/-- Two commands have two command words. -/
theorem encode_injective {i j : Instr} (h : encode i = encode j) : i = j := by
  have hi := encodeThenDecode i
  rw [h, encodeThenDecode j] at hi
  exact (Except.ok.inj hi).symm

/-! ### The listed bits are the encoding of the fields read from them -/

/-- The MODE bits that a row lists (R92). -/
def Instr.modeMask : Instr → Byte
  | .addrParse _ _ => 0x0F
  | .addrRender _ => 0x03
  | .tblResolve _ _ => 0x87
  | .secNonce _ => 0x01
  | .buildAction _ _ _ => 0x0F
  | .buildStatus _ _ _ => 0x0F
  | .buildResponse _ _ _ => 0x0F
  | _ => 0x00

/-- The IMM bits that a row lists: all for BUILD_*, else none (R92). -/
def Instr.immMask : Instr → Half
  | .buildAction _ _ _ => BitVec.allOnes 16
  | .buildStatus _ _ _ => BitVec.allOnes 16
  | .buildResponse _ _ _ => BitVec.allOnes 16
  | _ => 0x0000

/-- The bits a row lists, field by field; the opcode is listed in every row (R92). -/
theorem usedBits_eq_commandWord (i : Instr) : i.usedBits = commandWord i.immMask i.modeMask (BitVec.allOnes 8) := by
  cases i <;> simp only [Instr.usedBits, Instr.immMask, Instr.modeMask] <;> decide

/-- A word masked field by field. -/
theorem and_commandWord (w : Word) (imm : Half) (mode opcode : Byte) :
    w &&& commandWord imm mode opcode = commandWord (immOf w &&& imm) (modeOf w &&& mode) (opcodeOf w &&& opcode) := by
  have himm : immOf (w &&& commandWord imm mode opcode) = immOf w &&& imm := by
    rw [immOf, BitVec.extractLsb'_and, ← immOf, ← immOf, immOf_commandWord]
  have hmode : modeOf (w &&& commandWord imm mode opcode) = modeOf w &&& mode := by
    rw [modeOf, BitVec.extractLsb'_and, ← modeOf, ← modeOf, modeOf_commandWord]
  have hop : opcodeOf (w &&& commandWord imm mode opcode) = opcodeOf w &&& opcode := by
    rw [opcodeOf, BitVec.extractLsb'_and, ← opcodeOf, ← opcodeOf, opcodeOf_commandWord]
  rw [← commandWord_fields (w &&& commandWord imm mode opcode), himm, hmode, hop]

/-- A word with only the bits a row lists left (R92, R93). -/
theorem and_usedBits (w : Word) (i : Instr) :
    w &&& i.usedBits = commandWord (immOf w &&& i.immMask) (modeOf w &&& i.modeMask) (opcodeOf w) := by
  rw [usedBits_eq_commandWord, and_commandWord, BitVec.and_allOnes]

/-- MODE[3:0] is HINT and FORM. -/
theorem and_modeFormHint (m : Byte) : m &&& 0x0F = modeFormHint (m.extractLsb' 0 2) (m.extractLsb' 2 2) := by
  revert m
  decide

/-- MODE[1:0] is FMT. -/
theorem and_modeFmt (m : Byte) : m &&& 0x03 = placeAt 0 (m.extractLsb' 0 2) := by
  revert m
  decide

/-- MODE[7] and MODE[2:0] are DIR and TABLE. -/
theorem and_modeDirTable (m : Byte) : m &&& 0x87 = placeAt 7 (m.extractLsb' 7 1) ||| placeAt 0 (m.extractLsb' 0 3) := by
  revert m
  decide

/-- MODE[0] is KIND. -/
theorem and_modeKind (m : Byte) : m &&& 0x01 = placeAt 0 (m.extractLsb' 0 1) := by
  revert m
  decide

theorem readFrom_opcode (i : Instr) (w : Word) : (i.readFrom w).opcode = i.opcode := by
  cases i <;> rfl

/-- The MODE bits a row lists hold its fields and nothing else (R92). -/
theorem readFrom_mode (i : Instr) (w : Word) : (i.readFrom w).mode = modeOf w &&& i.modeMask := by
  symm
  cases i
  case addrParse => exact and_modeFormHint _
  case addrRender => exact and_modeFmt _
  case tblResolve => exact and_modeDirTable _
  case secNonce => exact and_modeKind _
  case buildAction => exact and_modeFormHint _
  case buildStatus => exact and_modeFormHint _
  case buildResponse => exact and_modeFormHint _
  all_goals exact BitVec.and_zero

/-- A row lists IMM whole, or not at all (R92). -/
theorem readFrom_imm (i : Instr) (w : Word) : (i.readFrom w).imm = immOf w &&& i.immMask := by
  symm
  cases i
  case buildAction => exact BitVec.and_allOnes
  case buildStatus => exact BitVec.and_allOnes
  case buildResponse => exact BitVec.and_allOnes
  all_goals exact BitVec.and_zero

/-- The bits a row lists are the encoding of the command they spell, in a word with the row's opcode (R92). -/
theorem and_usedBits_eq_encode {w : Word} {i : Instr} (h : opcodeOf w = i.opcode) :
    w &&& i.usedBits = encode (i.readFrom w) := by
  rw [and_usedBits, encode, readFrom_imm, readFrom_mode, readFrom_opcode, h]

/-- Settles O2: either side fixes the opcode, and then the listed bits are the encoding of what the word spells. -/
theorem decodeReadsExactlyTheListedBits : Obligations.DecodeReadsExactlyTheListedBits := by
  intro w i
  constructor
  · intro h
    obtain ⟨hop, hfields⟩ := decode_eq_ok_iff.mp h
    rw [and_usedBits_eq_encode hop, hfields]
  · intro h
    have hop : opcodeOf w = i.opcode := by
      have h' := congrArg opcodeOf h
      rwa [and_usedBits, encode, opcodeOf_commandWord, opcodeOf_commandWord] at h'
    rw [and_usedBits_eq_encode hop] at h
    exact decode_eq_ok_iff.mpr ⟨hop, encode_injective h⟩

/-- Settles O4: the listed bits of each word are the encoding of its command, and 0x03 is no row's opcode. -/
theorem knownWordsDecode : Obligations.KnownWordsDecode := by
  have names : ∀ {w : Word} {i : Instr}, w &&& i.usedBits = encode i → decode w = .ok i :=
    (decodeReadsExactlyTheListedBits _ _).mpr
  exact ⟨names (by decide), names (by decide), names (by decide), names (by decide), names (by decide), names (by decide),
    names (by decide), rfl⟩

end Sys2Proof

namespace Sys2Proof.Machine

/-! ### Illegal encodings -/

theorem ErrCode.eq_illegalCommand_of_code {e : ErrCode} (h : e.code = 9) : e = .illegalCommand := by
  revert h
  cases e <;> decide

/-- Only a raised IllegalCommandError leaves ERR_CODE 9 (R400, R402, R403). -/
theorem State.finish_errCode_nine {s : State} {r : Except Raised Done} (h : (s.finish r).errCode = 9) :
    ∃ e, r = .error e ∧ e.err = .illegalCommand := by
  cases r with
  | ok d => exact absurd h (by simp)
  | error e => exact ⟨e, rfl, ErrCode.eq_illegalCommand_of_code (by simpa using h)⟩

/-- A command that raises IllegalCommandError holds a reserved MODE value (R94). -/
theorem illFormed_of_ruleOf_illegalCommand {i : Instr} {s : State} {e : Raised} (h : ruleOf i s = .error e)
    (he : e.err = .illegalCommand) : i.wellFormed = false := by
  rcases ruleOf_error h with ⟨-, hi⟩ | ⟨-, -, hlegal⟩ | ⟨-, rfl | rfl | ⟨-, -, hlegal⟩⟩
  · exact hi
  · exact absurd he hlegal
  · cases he
  · cases he
  · exact absurd he hlegal

/-- Settles O3: a word is illegal where it names no command or an ill-formed one, and each of these raises IllegalCommandError
and nothing else does. -/
theorem illegalEncodingsEndTheCommand : Obligations.IllegalEncodingsEndTheCommand := by
  intro s rest hb ht
  obtain ⟨r, hrun, hr⟩ := runPending_eq { s with env := rest }
  refine ⟨_, (step_pending ht hb).trans hrun, fun hillegal => ?ends, fun hlegal hnine => hlegal ?only⟩
  case ends =>
    have hraise : r = illegal := by
      rcases hr with ⟨i, hi, rfl⟩ | ⟨-, rfl⟩
      · rcases (illegalWord_iff s.cmd).mp hillegal with ⟨e, he⟩ | ⟨j, hj, hwf⟩
        · rw [he] at hi
          cases hi
        · rw [hj] at hi
          cases hi
          exact ruleOf_illFormed hwf _
      · rfl
    rw [hraise]
    exact State.errorEnd_endedWithError _ _
  case only =>
    obtain ⟨e, rfl, he⟩ := State.finish_errCode_nine hnine
    rcases hr with ⟨i, hi, hrule⟩ | ⟨hnone, -⟩
    · exact (illegalWord_iff s.cmd).mpr (.inr ⟨i, hi, illFormed_of_ruleOf_illegalCommand hrule.symm he⟩)
    · exact (illegalWord_iff s.cmd).mpr (.inl hnone)

end Sys2Proof.Machine

/-! What a command's outcome does not depend on: the registers its rule does not name, and the reserved bits of SRC and OPT
(10_state.md R24, R25; 30_encoding.md R93). -/

namespace Sys2Proof.Machine

/-! ### An end leaves the argument registers, SRC and OPT alone (R402, R403) -/

theorem State.finish_withArg0 (s : State) (x : Word) (r : Except Raised Done) :
    State.finish { s with arg0 := x } r = { s.finish r with arg0 := x } := by
  cases r <;> rfl

theorem State.finish_withArg1 (s : State) (x : Word) (r : Except Raised Done) :
    State.finish { s with arg1 := x } r = { s.finish r with arg1 := x } := by
  cases r <;> rfl

theorem State.finish_withArg2 (s : State) (x : Word) (r : Except Raised Done) :
    State.finish { s with arg2 := x } r = { s.finish r with arg2 := x } := by
  cases r <;> rfl

theorem State.finish_withSrc (s : State) (x : Word) (r : Except Raised Done) :
    State.finish { s with src := x } r = { s.finish r with src := x } := by
  cases r <;> rfl

theorem State.finish_withOpt (s : State) (x : Word) (r : Except Raised Done) :
    State.finish { s with opt := x } r = { s.finish r with opt := x } := by
  cases r <;> rfl

/-- A change of the state that the rule does not see and the end leaves alone shows in the outcome as that change. -/
theorem exec_of_unseen {f : State → State} {i : Instr} {s t : State} (hrule : ruleOf i (f s) = ruleOf i s)
    (hend : ∀ r, State.finish (f s) r = f (s.finish r)) (ht : exec i s = .next t) : exec i (f s) = .next (f t) := by
  rw [exec_eq] at ht ⊢
  cases ht
  rw [hrule, hend]

/-! ### The registers a rule does not name -/

/-- The commands that read no ARG register take everything from the sample, the key and OPT. -/
theorem ruleOf_withArg0 {i : Instr} (hi : i ∈ [Instr.cemiDecode, .hdrDecode, .cmacGen, .secUnwrap, .secTimerVerify, .decode])
    (s : State) (x : Word) : ruleOf i { s with arg0 := x } = ruleOf i s := by
  simp only [List.mem_cons, List.not_mem_nil, or_false] at hi
  rcases hi with rfl | rfl | rfl | rfl | rfl | rfl <;> rfl

theorem ruleOf_withArg1 {i : Instr} (hi : i ∉ [Instr.apciPack, .cemiEncode, .hdrEncode, .dptEncode]) (s : State) (x : Word) :
    ruleOf i { s with arg1 := x } = ruleOf i s := by
  cases i
  case apciPack => exact absurd (by simp) hi
  case cemiEncode => exact absurd (by simp) hi
  case hdrEncode => exact absurd (by simp) hi
  case dptEncode => exact absurd (by simp) hi
  all_goals rfl

theorem ruleOf_withArg2 {i : Instr} (hi : i ∉ [Instr.cemiEncode, .hdrEncode]) (s : State) (x : Word) :
    ruleOf i { s with arg2 := x } = ruleOf i s := by
  cases i
  case cemiEncode => exact absurd (by simp) hi
  case hdrEncode => exact absurd (by simp) hi
  all_goals rfl

/-- The three builders (R313 to R315), the only commands that read SRC. -/
def Builds (i : Instr) : Prop :=
  ∃ form hint imm, i = .buildAction form hint imm ∨ i = .buildStatus form hint imm ∨ i = .buildResponse form hint imm

theorem ruleOf_withSrc {i : Instr} (hi : ¬ Builds i) (s : State) (x : Word) : ruleOf i { s with src := x } = ruleOf i s := by
  cases i
  case buildAction form hint imm => exact absurd ⟨form, hint, imm, .inl rfl⟩ hi
  case buildStatus form hint imm => exact absurd ⟨form, hint, imm, .inr (.inl rfl)⟩ hi
  case buildResponse form hint imm => exact absurd ⟨form, hint, imm, .inr (.inr rfl)⟩ hi
  all_goals rfl

/-- OPT is read by the builders and by DECODE alone (R24). -/
theorem ruleOf_withOpt {i : Instr} (hi : ¬ Builds i) (hdecode : i ≠ .decode) (s : State) (x : Word) :
    ruleOf i { s with opt := x } = ruleOf i s := by
  cases i
  case buildAction form hint imm => exact absurd ⟨form, hint, imm, .inl rfl⟩ hi
  case buildStatus form hint imm => exact absurd ⟨form, hint, imm, .inr (.inl rfl)⟩ hi
  case buildResponse form hint imm => exact absurd ⟨form, hint, imm, .inr (.inr rfl)⟩ hi
  case decode => exact absurd rfl hdecode
  all_goals rfl

/-! ### The reserved bits of SRC and OPT -/

/-- Two words with the same low half have the same bits there. -/
theorem getLsbD_of_low_eq {x y : Word} (h : x &&& 0x0000FFFF = y &&& 0x0000FFFF) {i : Nat} (hi : i < 16) :
    x.getLsbD i = y.getLsbD i := by
  have mask : ∀ i, i < 16 → (0x0000FFFF : Word).getLsbD i = true := by decide
  have hbit := congrArg (BitVec.getLsbD · i) h
  simpa only [BitVec.getLsbD_and, mask i hi, Bool.and_true] using hbit

/-- Two words with the same low half have the same fields there. -/
theorem extractLsb'_of_low_eq {x y : Word} (h : x &&& 0x0000FFFF = y &&& 0x0000FFFF) {lo n : Nat} (hn : lo + n ≤ 16) :
    x.extractLsb' lo n = y.extractLsb' lo n := by
  apply BitVec.eq_of_getLsbD_eq
  intro i hi
  simp only [BitVec.getLsbD_extractLsb', getLsbD_of_low_eq h (show lo + i < 16 by omega)]

/-- A builder reads SRC and OPT only through the fields it writes (R310, R316). -/
theorem build_congr {s t : State} (hin : t.inSample = s.inSample) (harg : t.arg0 = s.arg0)
    (hfields : builderFields t = builderFields s) (P : Params) (code : BitVec 10) (useData : Bool) (form hint : BitVec 2)
    (imm : Half) : build P code useData form hint imm t = build P code useData form hint imm s := by
  simp only [build, builderInputs, hin, harg, hfields]

/-- The rule of a builder is Build with its own code (R313 to R315). -/
theorem Builds.ruleOf_congr {i : Instr} (hi : Builds i) {s t : State} (hin : t.inSample = s.inSample) (harg : t.arg0 = s.arg0)
    (hfields : builderFields t = builderFields s) : ruleOf i t = ruleOf i s := by
  obtain ⟨form, hint, imm, rfl | rfl | rfl⟩ := hi
  · exact build_congr hin harg hfields Config.params 2 true form hint imm
  · exact build_congr hin harg hfields Config.params 0 false form hint imm
  · exact build_congr hin harg hfields Config.params 1 true form hint imm

/-- SRC holds the source address in its low half (R25). -/
theorem builderFields_withSrc {s : State} {x : Word} (h : x &&& 0x0000FFFF = s.src &&& 0x0000FFFF) :
    builderFields { s with src := x } = builderFields s := by
  have hsrc : State.srcAddress { s with src := x } = s.srcAddress := extractLsb'_of_low_eq h (by omega)
  funext a code
  simp only [builderFields, hsrc]
  rfl

/-- The fields of OPT stand in its low half (R24). -/
theorem builderFields_withOpt {s : State} {x : Word} (h : x &&& 0x0000FFFF = s.opt &&& 0x0000FFFF) :
    builderFields { s with opt := x } = builderFields s := by
  have hmsg : State.optMsgCode { s with opt := x } = s.optMsgCode := extractLsb'_of_low_eq h (by omega)
  have hrepeat : State.optNoRepeat { s with opt := x } = s.optNoRepeat := extractLsb'_of_low_eq h (by omega)
  have hbroadcast : State.optBroadcast { s with opt := x } = s.optBroadcast := extractLsb'_of_low_eq h (by omega)
  have hpriority : State.optPriority { s with opt := x } = s.optPriority := extractLsb'_of_low_eq h (by omega)
  have hhop : State.optHopCount { s with opt := x } = s.optHopCount := extractLsb'_of_low_eq h (by omega)
  funext a code
  simp only [builderFields, hmsg, hrepeat, hbroadcast, hpriority, hhop]
  rfl

/-- DECODE reads OPT only for TWO_LEVEL_GROUP (R24, R318). -/
theorem decodeDatagram_withOpt (P : Params) {s : State} {x : Word} (h : x &&& 0x0000FFFF = s.opt &&& 0x0000FFFF) :
    decodeDatagram P { s with opt := x } = decodeDatagram P s := by
  have htwo : State.optTwoLevelGroup { s with opt := x } = s.optTwoLevelGroup := getLsbD_of_low_eq h (by omega)
  have hdisplay : displayWord { s with opt := x } = displayWord s := by
    funext fr
    rw [displayWord, displayWord, destFmt, destFmt, htwo]
  simp only [decodeDatagram, decodeWrapper, decodeTimer, decodePlain, hdisplay]
  rfl

/-- No rule reads the reserved bits of SRC (R25, R93). -/
theorem ruleOf_withReservedSrc (i : Instr) {s : State} {x : Word} (h : x &&& 0x0000FFFF = s.src &&& 0x0000FFFF) :
    ruleOf i { s with src := x } = ruleOf i s := by
  by_cases hi : Builds i
  · exact hi.ruleOf_congr rfl rfl (builderFields_withSrc h)
  · exact ruleOf_withSrc hi s x

/-- No rule reads the reserved bits of OPT (R24, R93). -/
theorem ruleOf_withReservedOpt (i : Instr) {s : State} {x : Word} (h : x &&& 0x0000FFFF = s.opt &&& 0x0000FFFF) :
    ruleOf i { s with opt := x } = ruleOf i s := by
  by_cases hi : Builds i
  · exact hi.ruleOf_congr rfl rfl (builderFields_withOpt h)
  · by_cases hdecode : i = .decode
    · subst hdecode
      exact decodeDatagram_withOpt Config.params h
    · exact ruleOf_withOpt hi hdecode s x

/-- Settles O21: in each clause the rule does not see the change and the end keeps it. -/
theorem unnamedArgumentsAreIgnored : Obligations.UnnamedArgumentsAreIgnored := by
  intro i s t x ht
  have src : ruleOf i { s with src := x } = ruleOf i s → exec i { s with src := x } = .next { t with src := x } :=
    fun hrule => exec_of_unseen (f := fun u => { u with src := x }) hrule (s.finish_withSrc x) ht
  have opt : ruleOf i { s with opt := x } = ruleOf i s → exec i { s with opt := x } = .next { t with opt := x } :=
    fun hrule => exec_of_unseen (f := fun u => { u with opt := x }) hrule (s.finish_withOpt x) ht
  refine ⟨fun hi => ?arg0, fun hi => ?arg1, fun hi => ?arg2, fun hi => src (ruleOf_withSrc hi s x),
    fun hi hdecode => opt (ruleOf_withOpt hi hdecode s x), fun h => src (ruleOf_withReservedSrc i h),
    fun h => opt (ruleOf_withReservedOpt i h)⟩
  case arg0 => exact exec_of_unseen (f := fun u => { u with arg0 := x }) (ruleOf_withArg0 hi s x) (s.finish_withArg0 x) ht
  case arg1 => exact exec_of_unseen (f := fun u => { u with arg1 := x }) (ruleOf_withArg1 hi s x) (s.finish_withArg1 x) ht
  case arg2 => exact exec_of_unseen (f := fun u => { u with arg2 := x }) (ruleOf_withArg2 hi s x) (s.finish_withArg2 x) ht

end Sys2Proof.Machine

/-! The address codec as commands: ADDR_PARSE of each form, the decimal fields and strings that ADDR_RENDER writes, and the round trip
(40_address.md R111 to R122). -/

namespace Sys2Proof.Machine

/-! ### ADDR_PARSE (R117) -/

/-- ADDR_PARSE completes with the ADDRWORD of the address that R117's relation gives. -/
theorem completes_addrParse {form hint : BitVec 2} {f : Form} {s : State} {v fam raw : Nat} (hf : formOperand form = some f)
    (hhint : hint ≠ 3) (h : ParsesTo form hint s.arg0.toNat s.inSample v fam raw) :
    Completes (.addrParse form hint) s { r0 := addressWord v fam raw } [] .none := by
  obtain ⟨hinted, hh, hcode⟩ := hintOperand_legal hhint
  obtain ⟨a, ha, hv, hfam, hraw⟩ := parseAddress_of_parsesTo hf hcode h
  have hrule : ruleOf (.addrParse form hint) s = .ok { res := { r0 := addrWord a } } := by
    simp only [ruleOf, addrParse, hf, hh, ha]
  exact completes_of_rule hrule (by rw [addrWord_of hv hfam hraw]) rfl rfl

/-- ADDR_PARSE raises AddressFormatError where ParseAddress does, which no hint changes. -/
theorem raises_addrParse {form hint : BitVec 2} {f : Form} {s : State} (hf : formOperand form = some f) (hhint : hint ≠ 3)
    (h : ∀ hinted, parseAddress f hinted s.arg0 s.inSample = .error .addressFormat) :
    Raises (.addrParse form hint) s .addressFormat .none := by
  obtain ⟨hinted, hh, -⟩ := hintOperand_legal hhint
  exact raises_of_rule (by simp only [ruleOf, addrParse, hf, hh, h hinted])

/-- ADDR_PARSE of a friendly string (R113): no hint changes the address (R123). -/
theorem completes_addrParse_of_friendly {hint : BitVec 2} {s : State} {v fam : Nat} (hhint : hint ≠ 3)
    (h : FriendlyAddress s.inSample v fam) : Completes (.addrParse 2 hint) s { r0 := addressWord v fam 0 } [] .none :=
  completes_addrParse formOperand_two hhint (.inr (.inr (.inl ⟨rfl, h, rfl⟩)))

/-- ADDR_PARSE of a string that matches a pattern: its address where every field fits its width, and otherwise AddressFormatError,
without a fallback to two raw bytes (R112, R113). -/
theorem addrParse_of_match {hint : BitVec 2} {s : State} {f : Friendly} {v fam : Nat} {fits : Prop} [Decidable fits]
    (hhint : hint ≠ 3) (hm : matchFriendly s.inSample = some f) (hfits : f.inRange = true ↔ fits)
    (hv : f.inRange = true → f.value.toNat = v) (hfam : f.family.code.toNat = fam) :
    if fits then Completes (.addrParse 2 hint) s { r0 := addressWord v fam 0 } [] .none
    else Raises (.addrParse 2 hint) s .addressFormat .none := by
  split
  case isTrue h =>
    have hr := hfits.mpr h
    rw [← hv hr, ← hfam]
    exact completes_addrParse_of_friendly hhint (friendlyAddress_of_match hm hr)
  case isFalse h =>
    have hr : ¬ f.inRange = true := fun hr => h (hfits.mp hr)
    exact raises_addrParse formOperand_two hhint fun _ => by simp only [parseAddress, hm, if_neg hr]

/-! ### The decimal fields (R118) -/

/-- No digit but that of 0 is the character 0. -/
theorem digit_ne_zero {n : Nat} (hpos : n ≠ 0) (hlt : n < 10) : digit n ≠ 0x30 := by
  interval_cases n
  · exact absurd rfl hpos
  all_goals decide

/-- With fuel enough, the digits of a number other than 0 begin with a digit other than 0: the first digit of `n` is that of
`n / 10` where `n` has two digits or more. -/
theorem decDigits_eq_cons {fuel n : Nat} (hfuel : n < fuel) (hn : n ≠ 0) :
    ∃ c cs, decDigits fuel n = c :: cs ∧ c ≠ 0x30 := by
  induction fuel generalizing n with
  | zero => omega
  | succ k ih =>
    unfold decDigits
    split
    case isTrue hlt => exact ⟨digit n, [], rfl, digit_ne_zero hn hlt⟩
    case isFalse =>
      obtain ⟨c, cs, hcs, hc⟩ := ih (n := n / 10) (by omega) (by omega)
      exact ⟨c, cs ++ [digit (n % 10)], by rw [hcs, List.cons_append], hc⟩

theorem isDec_dec (n : Nat) : isDec (dec n) = true := (dec_spec n).1

theorem decValue_dec (n : Nat) : decValue (dec n) = n := (dec_spec n).2

/-- A decimal field of a value below `10 ^ k` is 1 to `k` bytes long. -/
theorem dec_length_bounds {n k : Nat} (h : n < 10 ^ k) (hk : 1 ≤ k) : 1 ≤ (dec n).length ∧ (dec n).length ≤ k := by
  refine ⟨?_, dec_length_le h hk⟩
  have hdec := isDec_dec n
  rw [isDec, Bool.and_eq_true, Bool.not_eq_true', List.isEmpty_eq_false_iff] at hdec
  exact List.length_pos_iff.mpr hdec.1

/-! ### ADDR_RENDER (R119, R120) -/

/-- The string of an individual address, its fields as numbers. -/
theorem render_individual (v : Half) :
    render v .individual =
      dec (v.toNat / 4096) ++ [dot] ++ dec (v.toNat / 256 % 16) ++ [dot] ++ dec (v.toNat % 256) := by
  have harea : v.toNat / 4096 % 16 = v.toNat / 4096 := by omega
  simp only [render, extractLsb'_toNat_eq, Nat.reducePow, Nat.div_one, harea]

/-- The string of a three-level group address: bit 15 is in none of its fields. -/
theorem render_group3 (v : Half) :
    render v .group3 =
      dec (v.toNat / 2048 % 16) ++ [slash] ++ dec (v.toNat / 256 % 8) ++ [slash] ++ dec (v.toNat % 256) := by
  simp only [render, extractLsb'_toNat_eq, Nat.reducePow, Nat.div_one]

/-- The string of a two-level group address: bit 15 is in none of its fields. -/
theorem render_group2 (v : Half) :
    render v .group2 = dec (v.toNat / 2048 % 16) ++ [slash] ++ dec (v.toNat % 2048) := by
  simp only [render, extractLsb'_toNat_eq, Nat.reducePow, Nat.div_one]

/-- A legal FMT is the number of the family it renders (R110, R119). -/
theorem fmtOperand_legal {fmt : BitVec 2} (h : fmt ≠ 3) : ∃ f, fmtOperand fmt = some f ∧ f.code = fmt := by
  revert h
  revert fmt
  decide

/-- ADDR_RENDER completes with the string of ARG0[15:0]. -/
theorem completes_addrRender {fmt : BitVec 2} {f : Family} {s : State} {str : List Byte} (hf : fmtOperand fmt = some f)
    (h : render (s.arg0.extractLsb' 0 16) f = str) : Completes (.addrRender fmt) s {} str .none := by
  have hrule : ruleOf (.addrRender fmt) s = .ok { out := render (s.arg0.extractLsb' 0 16) f } := by
    simp only [ruleOf, addrRender, hf]
  exact completes_of_rule hrule rfl h rfl

/-! ### The round trip (R122) -/

/-- A rendered address is a friendly string of its own value and family; in the group formats where bit 15 is clear. -/
theorem friendlyAddress_render {v : Half} {f : Family} (h : f.code ≠ 0 → v.toNat < 32768) :
    FriendlyAddress (render v f) v.toNat f.code.toNat := by
  have hv := v.isLt
  cases f with
  | individual =>
    refine ⟨_, _, _, isDec_dec (v.toNat / 4096), isDec_dec (v.toNat / 256 % 16), isDec_dec (v.toNat % 256),
      .inr (.inr ⟨by simp [render_individual], ?_⟩)⟩
    simp only [decValue_dec]
    exact ⟨by omega, by omega, by omega, rfl, by omega⟩
  | group3 =>
    have hlow := h (by decide)
    refine ⟨_, _, _, isDec_dec (v.toNat / 2048 % 16), isDec_dec (v.toNat / 256 % 8), isDec_dec (v.toNat % 256),
      .inl ⟨by simp [render_group3], ?_⟩⟩
    simp only [decValue_dec]
    exact ⟨by omega, by omega, by omega, rfl, by omega⟩
  | group2 =>
    have hlow := h (by decide)
    refine ⟨_, _, [0x30], isDec_dec (v.toNat / 2048 % 16), isDec_dec (v.toNat % 2048), by decide,
      .inr (.inl ⟨by simp [render_group2], ?_⟩)⟩
    simp only [decValue_dec]
    exact ⟨by omega, by omega, rfl, by omega⟩

/-- Settles O27: the rendered string is a friendly string of the value and the family, and ADDR_PARSE of one completes. -/
theorem addressRoundTrip : Obligations.AddressRoundTrip := by
  intro v fmt s hfmt hgroup hv
  obtain ⟨f, hf, rfl⟩ := fmtOperand_legal hfmt
  refine ⟨render v f, completes_addrRender hf (by rw [hv]), fun hint s' hhint hin => ?_⟩
  exact completes_addrParse_of_friendly hhint (hin ▸ friendlyAddress_render hgroup)

/-- Settles O22: the first two forms of R117's relation, and their two errors. -/
theorem addrParseOfRawForms : Obligations.AddrParseOfRawForms := by
  intro hint s hhint
  refine ⟨fun hfits => ?int, fun hover => ?intOver, fun htwo => ?pair, fun hne => ?noPair⟩
  case int => exact completes_addrParse formOperand_zero hhint (.inl ⟨rfl, hfits, rfl, rfl, rfl⟩)
  case intOver => exact raises_addrParse formOperand_zero hhint fun _ => if_pos hover
  case pair => exact completes_addrParse formOperand_one hhint (.inr (.inl ⟨rfl, htwo, rfl, rfl, rfl⟩))
  case noPair => exact raises_addrParse formOperand_one hhint fun _ => if_pos hne

/-- Settles O23: each pattern matches with its decimal fields, and whether they fit decides. -/
theorem addrParseOfFriendlyStrings : Obligations.AddrParseOfFriendlyStrings := by
  intro hint s a b c hhint ha hb hc A B C
  refine ⟨fun hs => ?group3, fun hs => ?group2, fun hs => ?individual⟩
  case group3 =>
    exact addrParse_of_match hhint (hs ▸ matchFriendly_group3 ha hb hc) (by simp [Friendly.inRange, and_assoc, A, B, C])
      Friendly.value_toNat rfl
  case group2 =>
    exact addrParse_of_match hhint (hs ▸ matchFriendly_group2 ha hb) (by simp [Friendly.inRange, A, B]) Friendly.value_toNat rfl
  case individual =>
    exact addrParse_of_match hhint (hs ▸ matchFriendly_individual ha hb hc) (by simp [Friendly.inRange, and_assoc, A, B, C])
      Friendly.value_toNat rfl

/-- Settles O24: the string matches no pattern, so its length alone decides. -/
theorem addrParseOfOtherStrings : Obligations.AddrParseOfOtherStrings := by
  intro hint s hhint hno
  refine ⟨fun htwo => ?pair, fun hne => ?noPair⟩
  case pair => exact completes_addrParse formOperand_two hhint (.inr (.inr (.inr ⟨rfl, hno, htwo, rfl, rfl, rfl⟩)))
  case noPair =>
    have hm := (matchFriendly_eq_none s.inSample).mpr hno
    exact raises_addrParse formOperand_two hhint fun _ => by simp only [parseAddress, hm, if_neg hne]

/-- Settles O25: the value by `dec_spec`, the first digit by `decDigits_eq_cons`. -/
theorem decimalRendering : Obligations.DecimalRendering := by
  refine ⟨rfl, fun n => ⟨isDec_dec n, decValue_dec n, fun hn => ?_⟩⟩
  obtain ⟨c, cs, hcs, hc⟩ := decDigits_eq_cons (Nat.lt_succ_self n) hn
  rw [dec, hcs]
  exact hc

/-- Settles O26: the three strings as `render` gives them, then their lengths field by field. -/
theorem addrRenderWritesTheString : Obligations.AddrRenderWritesTheString := by
  intro s v ind g3 g2
  have hv : (s.arg0.extractLsb' 0 16).toNat = v := by simp [v]
  have hlt : v < 65536 := Nat.mod_lt _ (by decide)
  refine ⟨completes_addrRender (f := .individual) rfl (by rw [render_individual, hv]),
    completes_addrRender (f := .group3) rfl (by rw [render_group3, hv]),
    completes_addrRender (f := .group2) rfl (by rw [render_group2, hv]), ?_⟩
  have harea := dec_length_bounds (n := v / 4096) (k := 2) (by omega) (by omega)
  have hline := dec_length_bounds (n := v / 256 % 16) (k := 2) (by omega) (by omega)
  have hmain := dec_length_bounds (n := v / 2048 % 16) (k := 2) (by omega) (by omega)
  have hmiddle := dec_length_bounds (n := v / 256 % 8) (k := 1) (by omega) (by omega)
  have hsub3 := dec_length_bounds (n := v % 256) (k := 3) (by omega) (by omega)
  have hsub2 := dec_length_bounds (n := v % 2048) (k := 4) (by omega) (by omega)
  simp only [ind, g3, g2, List.length_append, List.length_singleton]
  omega

end Sys2Proof.Machine

/-! The tables and the packing rule as commands: TBL_RESOLVE over the tables' codes, APCI_PACK and APCI_UNPACK with their result
words as numbers, and packing then unpacking (41_apci_tpci.md R140 to R152). -/

namespace Sys2Proof.Machine

/-! ### The code tables (R140 to R144, R200) -/

/-- The code of a row, as a number. -/
def TableRow.codeNat (row : TableRow) : Nat := row.code.toNat

/-- The codes of each table, by TABLE (R145), at the defaults of R6 (log 6). -/
def tableCodes : List (BitVec 3 × List Nat) :=
  [(0, [0, 1, 2, 3, 4, 5, 6, 7, 8, 9, 10, 11, 12, 13, 14, 15]), (1, [0, 1, 2, 3]),
   (2, [0x10, 0x11, 0x13, 0x25, 0x29, 0x2B, 0x2D, 0x2E, 0x2F]), (3, requestTypes), (4, [0, 1, 2, 3])]

/-- TABLE selects a table whose rows hold the codes listed for it, none of them twice. -/
theorem tableOperand_codes {table : BitVec 3} {codes : List Nat} (h : (table, codes) ∈ tableCodes) :
    ∃ t, tableOperand Config.params table = some t ∧ t.map TableRow.codeNat = codes ∧ codes.Nodup := by
  simp only [tableCodes, List.mem_cons, Prod.mk.injEq, List.not_mem_nil, or_false] at h
  obtain ⟨rfl, rfl⟩ | ⟨rfl, rfl⟩ | ⟨rfl, rfl⟩ | ⟨rfl, rfl⟩ | ⟨rfl, rfl⟩ := h
  · exact ⟨actionTable, rfl, rfl, by decide⟩
  · exact ⟨tpciTable, rfl, rfl, by decide⟩
  · exact ⟨msgCodeTable, rfl, rfl, by decide⟩
  · exact ⟨reqTypeTable, rfl, rfl, by decide⟩
  · exact ⟨priorityTable, rfl, rfl, by decide⟩

/-- TABLE 5 to 7 selects no table (R92, R94). -/
theorem tableOperand_reserved (P : Params) {table : BitVec 3} (h : 5 ≤ table.toNat) : tableOperand P table = none := by
  obtain rfl | rfl | rfl : table = 5 ∨ table = 6 ∨ table = 7 := by
    revert table
    decide
  all_goals rfl

/-! ### Looking a key up (R145) -/

/-- Code to index: the key's place among the codes, all 32 bits of the key compared. -/
theorem lookup_code (t : List TableRow) (key : Word) :
    lookup t 0 key = ((t.map TableRow.codeNat).idxOf? key.toNat).map (BitVec.ofNat 32) := by
  have hsame (row : TableRow) : (row.code == key) = (row.codeNat == key.toNat) := by
    rw [Bool.eq_iff_iff, beq_iff_eq, beq_iff_eq, TableRow.codeNat, BitVec.toNat_inj]
  rw [lookup, if_pos rfl, List.idxOf?, List.findIdx?_map]
  simp only [hsame, Function.comp_def]

/-- Index to code: the code in the key's row. -/
theorem lookup_index (t : List TableRow) (key : Word) :
    lookup t 1 key = (t.map TableRow.codeNat)[key.toNat]?.map (BitVec.ofNat 32) := by
  rw [lookup, if_neg (by decide), List.getElem?_map, Option.map_map]
  simp only [Function.comp_def, TableRow.codeNat, BitVec.ofNat_toNat, BitVec.setWidth_eq]

/-- In a list without repetition each member is found at its own place. -/
theorem idxOf?_getElem {codes : List Nat} (h : codes.Nodup) {i : Nat} (hi : i < codes.length) :
    codes.idxOf? codes[i] = some i := by
  rw [List.idxOf?, List.findIdx?_eq_some_iff_findIdx_eq]
  exact ⟨hi, h.idxOf_getElem i hi⟩

/-- TBL_RESOLVE of a key that the table knows. -/
theorem completes_tblResolve {dir : BitVec 1} {table : BitVec 3} {t : List TableRow} {s : State} {x : Word}
    (ht : tableOperand Config.params table = some t) (h : lookup t dir s.arg0 = some x) :
    Completes (.tblResolve dir table) s { r0 := 1, r1 := x } [] .none := by
  have hrule : ruleOf (.tblResolve dir table) s = .ok { res := { r0 := 1, r1 := x } } := by
    simp only [ruleOf, tblResolve, ht, h]
  exact completes_of_rule hrule rfl rfl rfl

/-- TBL_RESOLVE of an unknown key gives the sentinel (R152). -/
theorem completes_tblResolve_unknown {dir : BitVec 1} {table : BitVec 3} {t : List TableRow} {s : State}
    (ht : tableOperand Config.params table = some t) (h : lookup t dir s.arg0 = none) :
    Completes (.tblResolve dir table) s { r0 := 0, r1 := 0xFFFFFFFF } [] .none := by
  have hrule : ruleOf (.tblResolve dir table) s = .ok { res := { r0 := 0, r1 := sentinel } } := by
    simp only [ruleOf, tblResolve, ht, h]
  exact completes_of_rule hrule rfl rfl rfl

/-- Settles O28: `lookup_code` and `lookup_index` turn each lookup into one in the list of codes. -/
theorem tblResolveLooksUp : Obligations.TblResolveLooksUp := by
  intro s
  refine ⟨fun table codes hmem => ?legal, fun dir table hres => ?reserved⟩
  case reserved => exact raises_of_rule (by simp only [ruleOf, tblResolve, tableOperand_reserved _ hres, illegal])
  case legal =>
    obtain ⟨t, ht, rfl, hnodup⟩ := tableOperand_codes hmem
    refine ⟨fun i hi hcode => ?code, fun hno => ?noCode, fun hrow => ?row, fun hno => ?noRow⟩
    case code =>
      rw [List.getD_eq_getElem _ _ hi] at hcode
      exact completes_tblResolve ht (by rw [lookup_code, hcode, idxOf?_getElem hnodup hi, Option.map_some])
    case noCode =>
      exact completes_tblResolve_unknown ht (by rw [lookup_code, List.idxOf?_eq_none_iff.mpr hno, Option.map_none])
    case row =>
      rw [List.getD_eq_getElem _ _ hrow]
      exact completes_tblResolve ht (by rw [lookup_index, List.getElem?_eq_getElem hrow, Option.map_some])
    case noRow =>
      exact completes_tblResolve_unknown ht (by rw [lookup_index, List.getElem?_eq_none hno, Option.map_none])

/-! ### Packing (R147, R148) -/

/-- RES0 of APCI_PACK (R148). -/
theorem packWord_eq (p : Packed) :
    (placeAt 0 p.apci ||| placeAt 4 p.f6 ||| placeAt 10 (bit p.carries) : Word) =
      BitVec.ofNat 32 (p.apci.toNat + 16 * p.f6.toNat + (if p.carries then 1024 else 0)) := by
  have ha := p.apci.isLt
  have hf := p.f6.isLt
  rw [placeAt_eq_ofNat _ _ (by omega), ofNat_or_above _ (by omega) (by omega), ofNat_or_above _ (by omega) (by omega), bit_toNat]
  congr 1
  cases p.carries <;> simp <;> omega

/-- APCI_PACK completes with the fields of what its operands pack to. -/
theorem completes_apciPack {s : State} {p : Packed} {n : Nat}
    (h : pack (s.arg0.extractLsb' 0 10) (s.arg1.getLsbD 8) (s.arg1.extractLsb' 0 8) = p)
    (hn : p.apci.toNat + 16 * p.f6.toNat + (if p.carries then 1024 else 0) = n) :
    Completes .apciPack s { r0 := BitVec.ofNat 32 n } [] .none := by
  subst h hn
  exact completes_of_rule (i := .apciPack) rfl (by rw [packWord_eq]) rfl rfl

/-- Settles O29: the three cases of Pack (R147), each with its fields as numbers. -/
theorem apciPackPacks : Obligations.ApciPackPacks := by
  intro s code d
  have hcode : (s.arg0.extractLsb' 0 10).toNat = code := by simp [code]
  have hd : (s.arg1.extractLsb' 0 8).toNat = d := by simp [d]
  split
  case isFalse hext =>
    refine completes_apciPack (pack_extended _ _ (hcode ▸ Nat.not_le.mp hext)) ?_
    simp only [extractLsb'_toNat_eq, hcode, Bool.false_eq_true, if_false]
    omega
  case isTrue hbase =>
    split
    case isTrue hcarry =>
      refine completes_apciPack (pack_carries (hcode ▸ hbase) hcarry.1 (hd ▸ hcarry.2)) ?_
      simp only [BitVec.toNat_setWidth, hcode, hd, if_true]
      omega
    case isFalse hno =>
      refine completes_apciPack (pack_base (hcode ▸ hbase) (hd ▸ hno)) ?_
      simp only [BitVec.toNat_setWidth, BitVec.ofNat_eq_ofNat, BitVec.toNat_ofNat, hcode, Bool.false_eq_true, if_false]
      omega

/-! ### Unpacking (R149, R150) -/

/-- A data_length of more than the trailing bytes and the packed one (R149). -/
theorem unpack_truncated {f6 : BitVec 6} {dl : Nat} {trailing : List Byte} (h : trailing.length + 1 < dl) :
    unpack f6 dl trailing = .error .frameTruncated := if_pos h

/-- The packed byte stands before the trailing bytes (R149). -/
theorem unpack_packed (f6 : BitVec 6) {dl : Nat} {trailing : List Byte} (h : dl = trailing.length + 1) :
    unpack f6 dl trailing = .ok ⟨f6.setWidth 8 :: trailing, true, 0⟩ := by
  rw [unpack, if_neg (by omega), if_pos (by omega)]

/-- The trailing bytes hold the whole payload (R149). -/
theorem unpack_unpacked (f6 : BitVec 6) {dl : Nat} {trailing : List Byte} (h : dl ≤ trailing.length) :
    unpack f6 dl trailing = .ok ⟨trailing.take dl, false, trailing.length - dl⟩ := by
  rw [unpack, if_neg (by omega), if_neg (by omega)]

/-- The extended code that the two fields of an APDU hold together (R149). -/
theorem code10_eq (a : BitVec 4) (f : BitVec 6) :
    (placeAt 6 a ||| placeAt 0 f : BitVec 10) = BitVec.ofNat 10 (64 * a.toNat + f.toNat) := by
  rw [placeAt_eq_ofNat _ _ (by omega), ofNat_or_below _ (by omega) (by omega)]
  congr 1
  omega

/-- RES0 of APCI_UNPACK (R150). -/
theorem unpackWord_eq (a : BitVec 4) (f : BitVec 6) (packed : Bool) :
    (placeAt 0 a ||| placeAt 4 (placeAt 6 a ||| placeAt 0 f : BitVec 10) ||| placeAt 14 (bit packed) : Word) =
      BitVec.ofNat 32 (a.toNat + 16 * (64 * a.toNat + f.toNat) + (if packed then 16384 else 0)) := by
  have ha := a.isLt
  have hf := f.isLt
  have hcode : 64 * a.toNat + f.toNat < 2 ^ 10 := by omega
  rw [code10_eq, placeAt_eq_ofNat _ _ (by omega), ofNat_or_above _ (by omega) (by omega), BitVec.toNat_ofNat,
    Nat.mod_eq_of_lt hcode, ofNat_or_above _ (by omega) (by omega), bit_toNat]
  congr 1
  cases packed <;> simp <;> omega

/-- APCI_UNPACK completes with the codes of ARG0 and with what Unpack answers. -/
theorem completes_apciUnpack {s : State} {u : Unpacked} {a f dl n : Nat} (ha : (s.arg0.extractLsb' 0 4).toNat = a)
    (hf : (s.arg0.extractLsb' 4 6).toNat = f) (hdl : (s.arg0.extractLsb' 10 8).toNat = dl)
    (h : unpack (s.arg0.extractLsb' 4 6) dl s.inSample = .ok u)
    (hn : a + 16 * (64 * a + f) + (if u.packed then 16384 else 0) = n) :
    Completes .apciUnpack s { r0 := BitVec.ofNat 32 n, r1 := BitVec.ofNat 32 u.excess } u.data .none := by
  subst ha hf hdl hn
  rw [← unpackWord_eq]
  have hrule : ruleOf .apciUnpack s = apciUnpack s := rfl
  simp only [apciUnpack, h] at hrule
  exact completes_of_rule hrule rfl rfl rfl

/-- Settles O30: the three clauses of Unpack (R149). -/
theorem apciUnpackUnpacks : Obligations.ApciUnpackUnpacks := by
  intro s a f dl n
  have ha : (s.arg0.extractLsb' 0 4).toNat = a := by simp [a]
  have hf : (s.arg0.extractLsb' 4 6).toNat = f := extractLsb'_toNat_eq 4 6 s.arg0
  have hdl : (s.arg0.extractLsb' 10 8).toNat = dl := extractLsb'_toNat_eq 10 8 s.arg0
  refine ⟨fun hover => ?truncated, fun hone => ?packed, fun hfits => ?unpacked⟩
  case truncated => exact raises_of_rule (by simp only [ruleOf, apciUnpack, hdl, unpack_truncated hover])
  case packed =>
    rw [← hf, BitVec.ofNat_toNat, hf]
    exact completes_apciUnpack ha hf hdl (unpack_packed _ hone) rfl
  case unpacked => exact completes_apciUnpack ha hf hdl (unpack_unpacked _ hfits) rfl

/-! ### Packing then unpacking (R151) -/

/-- A byte of at most 63 survives data6, so unpacking puts it back before the bytes that trail. -/
theorem unpack_carried {x : Byte} (h : x.toNat ≤ 63) (xs : List Byte) :
    unpack (x.setWidth 6) (x :: xs).length xs = .ok ⟨x :: xs, true, 0⟩ := by
  have hx : (x.setWidth 6).setWidth 8 = x := by
    apply BitVec.eq_of_toNat_eq
    simp only [BitVec.toNat_setWidth]
    omega
  rw [unpack_packed _ List.length_cons, hx]

/-- All of `d` trails, so unpacking gives `d` whatever the data6 field holds. -/
theorem unpack_all (f6 : BitVec 6) (d : List Byte) : unpack f6 d.length d = .ok ⟨d, false, 0⟩ := by
  rw [unpack_unpacked f6 le_rfl, List.take_length, Nat.sub_self]

/-- Settles O31: by the three cases of Pack; only a first byte of at most 63 leaves the trailing bytes. -/
theorem packThenUnpack : Obligations.PackThenUnpack := by
  intro c d _ p trailing
  obtain hext | hbase := Nat.lt_or_ge 15 c.toNat
  case inl =>
    have hp : p = ⟨c.extractLsb' 6 4, c.extractLsb' 0 6, false⟩ := pack_extended _ _ hext
    have htrail : trailing = d := if_neg (by simp [hp])
    have hc := c.isLt
    rw [hp, htrail]
    refine ⟨unpack_all _ d, fun h => absurd h (by omega), fun _ => ⟨?_, rfl⟩⟩
    simp only [extractLsb'_toNat_eq]
    omega
  case inr =>
    have hlow : (c.setWidth 4 : BitVec 4).toNat = c.toNat := by
      rw [BitVec.toNat_setWidth, Nat.mod_eq_of_lt (by omega)]
    by_cases hcarry : decide (1 ≤ d.length) = true ∧ (d.headD 0).toNat ≤ 63
    case neg =>
      have hp : p = ⟨c.setWidth 4, 0, false⟩ := pack_base hbase hcarry
      have htrail : trailing = d := if_neg (by simp [hp])
      rw [hp, htrail]
      exact ⟨unpack_all _ d, fun _ => hlow, fun h => absurd h (by omega)⟩
    case pos =>
      obtain ⟨hdata, hbyte⟩ := hcarry
      have hp : p = ⟨c.setWidth 4, (d.headD 0).setWidth 6, true⟩ := pack_carries hbase hdata hbyte
      have htrail : trailing = d.tail := if_pos (by rw [hp])
      rw [hp, htrail]
      refine ⟨?_, fun _ => hlow, fun h => absurd h (by omega)⟩
      cases d with
      | nil => exact absurd hdata (by decide)
      | cons x xs => exact unpack_carried hbyte xs

end Sys2Proof.Machine

/-! The CEMI codec as commands: CEMI_ENCODE byte by byte, CEMI_DECODE of every byte string, and the round trip of a frame
(42_cemi.md R170 to R180). -/

namespace Sys2Proof.Machine

/-! ### Fields placed and read back -/

/-- A placed field reads back. -/
@[simp] theorem extractLsb'_placeAt_same {w n lo : Nat} (x : BitVec n) (h : lo + n ≤ w) :
    (placeAt lo x : BitVec w).extractLsb' lo n = x := by
  apply BitVec.eq_of_getLsbD_eq
  intro i hi
  have hin : lo + i < w := by omega
  simp [hi, hin]

/-- A placed field is not seen where it does not reach. -/
@[simp] theorem extractLsb'_placeAt_disjoint {w m lo n k : Nat} (x : BitVec m) (h : lo + n ≤ k ∨ k + m ≤ lo) :
    (placeAt k x : BitVec w).extractLsb' lo n = 0#n := by
  apply BitVec.eq_of_getLsbD_eq
  intro i hi
  obtain hbelow | habove := h
  · have hlt : lo + i < k := by omega
    simp [hlt]
  · have hzero : x.getLsbD (lo + i - k) = false := BitVec.getLsbD_of_ge _ _ (by omega)
    simp [hzero]

/-- Two adjacent fields of a word, placed side by side, are one field. -/
theorem placeAt_or_placeAt_adjacent {v w k lo n m k' lo' : Nat} (x : BitVec v) (hk : k' = k + n) (hlo : lo' = lo + n) :
    (placeAt k (x.extractLsb' lo n) ||| placeAt k' (x.extractLsb' lo' m) : BitVec w) = placeAt k (x.extractLsb' lo (n + m)) := by
  subst hk hlo
  apply BitVec.eq_of_getLsbD_eq
  intro i hi
  simp only [BitVec.getLsbD_or, placeAt_getLsbD, BitVec.getLsbD_extractLsb', hi, decide_true, Bool.true_and]
  obtain hlow | hmid | hhigh : i < k ∨ (k ≤ i ∧ i < k + n) ∨ k + n ≤ i := by omega
  · simp [hlow, show i < k + n by omega]
  · simp [show ¬ i < k by omega, hmid.2, show i - k < n by omega, show i - k < n + m by omega]
  · have hiff : i - (k + n) < m ↔ i - k < n + m := by omega
    have hidx : lo + n + (i - (k + n)) = lo + (i - k) := by omega
    simp [show ¬ i < k by omega, show ¬ i < k + n by omega, show ¬ i - k < n by omega, hiff, hidx]

/-- A field as a word of its own. -/
theorem extractLsb'_eq_ofNat {w : Nat} (lo n : Nat) (x : BitVec w) :
    x.extractLsb' lo n = BitVec.ofNat n (x.toNat / 2 ^ lo % 2 ^ n) := by
  rw [← extractLsb'_toNat_eq, BitVec.ofNat_toNat, BitVec.setWidth_eq]

/-- A field of a field is a field of the word. -/
theorem extractLsb'_extractLsb'_within {w lo m k n : Nat} (x : BitVec w) (h : k + n ≤ m) :
    (x.extractLsb' lo m).extractLsb' k n = x.extractLsb' (lo + k) n := by
  apply BitVec.eq_of_getLsbD_eq
  intro i hi
  have hin : k + i < m := by omega
  simp [hi, hin, Nat.add_assoc]

/-- The two bytes of a 16-bit field (R7). -/
theorem be16_extractLsb' {w : Nat} (lo : Nat) (x : BitVec w) :
    be16 (x.extractLsb' lo 16) = [x.extractLsb' (lo + 8) 8, x.extractLsb' lo 8] := by
  simp only [be16, extractLsb'_extractLsb'_within x (show 8 + 8 ≤ 16 by omega),
    extractLsb'_extractLsb'_within x (show 0 + 8 ≤ 16 by omega), Nat.add_zero]

/-! ### CEMI_DECODE of every byte string (R177 to R179) -/

/-- The result block of a decoded frame, in numbers (R179). -/
theorem writeCemiBlock_frameOf (f : List Byte) (u : Unpacked) :
    let packed := if u.packed then 1 else 0
    writeCemiBlock 0 (frameOf f u) {} =
      { r0 := cemiWord 0 f packed u.excess, r1 := cemiWord 1 f packed u.excess, r2 := cemiWord 2 f packed u.excess,
        r3 := cemiWord 3 f packed u.excess, r4 := cemiWord 4 f packed u.excess, r5 := cemiWord 5 f packed u.excess } := by
  intro packed
  rw [writeCemiBlock_zero, blockWord_zero f u packed u.excess, blockWord_one f u packed u.excess, blockWord_two f u u.excess,
    blockWord_three f u packed u.excess, blockWord_four f u packed u.excess, blockWord_five f u packed]

/-- CEMI_DECODE completes with the block and the payload of what CemiDecode reads (R178). -/
theorem completes_cemiDecode {s : State} {fr : CemiFrame} (h : cemiDecodeFrame s.inSample = .ok fr) :
    Completes .cemiDecode s (writeCemiBlock 0 fr {}) fr.data .none := by
  have hrule : ruleOf .cemiDecode s = cemiDecode s := rfl
  simp only [cemiDecode, h] at hrule
  exact completes_of_rule hrule rfl rfl rfl

/-- CEMI_DECODE of a frame too short for its fields (R177, R178). -/
theorem raises_cemiDecode {s : State} (h : FrameBad s.inSample) : Raises .cemiDecode s .frameTruncated .none :=
  raises_of_rule (by simp only [ruleOf, cemiDecode, cemiDecodeFrame_bad h])

/-- Settles O33: by the two cases of a byte string, too short for its fields or giving a payload. -/
theorem cemiDecodeReadsTheFrame : Obligations.CemiDecodeReadsTheFrame := by
  intro s f
  refine ⟨raises_cemiDecode, fun data packed excess hgives => ?_⟩
  obtain ⟨u, hframe, rfl, rfl, rfl⟩ := cemiDecodeFrame_gives hgives
  rw [← writeCemiBlock_frameOf]
  exact completes_cemiDecode hframe

/-! ### The bytes of an encoded frame (R170, R176) -/

/-- What the code and the data of a frame pack to (R147, R176). -/
def packData (code : BitVec 10) (d : List Byte) : Packed := pack code (!d.isEmpty) (d.headD 0)

/-- The bytes of the data that trail the APDU word. -/
def trailingData (p : Packed) (d : List Byte) : List Byte := if p.carries then d.tail else d

/-- The frame of the fields `f` and the data `d`, packed as `p` (R170, R176). -/
def encodedFrame (f : CemiFields) (p : Packed) (d : List Byte) : List Byte :=
  [f.msg, 0, ctrl1 f, ctrl2 f] ++ be16 f.src ++ be16 f.dst ++ [BitVec.ofNat 8 d.length] ++ be16 (apduWord f p) ++ trailingData p d

theorem encodedFrame_length (f : CemiFields) (p : Packed) (d : List Byte) :
    (encodedFrame f p d).length = 11 + (trailingData p d).length := by
  simp only [encodedFrame, List.length_append, List.length_cons, List.length_nil, be16_length]

/-- CemiEncode writes the frame of what the data packs to (R176). -/
theorem cemiEncodeFrame_eq {P : Params} {f : CemiFields} {d : List Byte} (h : d.length ≤ P.maxData) :
    cemiEncodeFrame P f d = .ok (encodedFrame f (packData f.code d) d) :=
  cemiEncodeFrame_ok h

/-- CEMI_ENCODE of more than 255 data bytes (R174, R176). -/
theorem raises_cemiEncode {s : State} (h : 255 < s.inSample.length) : Raises .cemiEncode s .encodeLength .none :=
  raises_of_rule (by simp only [ruleOf, cemiEncode, cemiEncodeFrame_long (P := Config.params) h])

/-- CEMI_ENCODE completes with the frame of its operands and of what they pack to (R176). -/
theorem completes_cemiEncode {s : State} {p : Packed} (hlen : s.inSample.length ≤ 255)
    (hp : packData (cemiOperands s).code s.inSample = p) :
    Completes .cemiEncode s {} (encodedFrame (cemiOperands s) p s.inSample) .none := by
  subst hp
  have hrule : ruleOf .cemiEncode s = cemiEncode Config.params s := rfl
  simp only [cemiEncode, cemiEncodeFrame_eq (P := Config.params) hlen] at hrule
  exact completes_of_rule hrule rfl rfl rfl

/-- A base code with a first byte that rides in data6 (R147). -/
theorem packData_carried {code : BitVec 10} {d : List Byte} (hc : code.toNat ≤ 15) (hd : d ≠ []) (h : (d.headD 0).toNat ≤ 63) :
    packData code d = ⟨code.setWidth 4, (d.headD 0).setWidth 6, true⟩ :=
  pack_carries hc (by simp [hd]) h

/-- A base code whose data, if any, all trails (R147). -/
theorem packData_base {code : BitVec 10} {d : List Byte} (hc : code.toNat ≤ 15) (h : d = [] ∨ 63 < (d.headD 0).toNat) :
    packData code d = ⟨code.setWidth 4, 0, false⟩ := by
  refine pack_base hc fun ⟨hdata, hbyte⟩ => ?_
  obtain rfl | hbig := h
  · simp at hdata
  · omega

/-- An extended code fills both fields (R147). -/
theorem packData_extended {code : BitVec 10} (d : List Byte) (hc : 15 < code.toNat) :
    packData code d = ⟨code.extractLsb' 6 4, code.extractLsb' 0 6, false⟩ :=
  pack_extended _ _ hc

/-- Settles O32: the frame in numbers, then the APDU word of each case of Pack (R147). -/
theorem cemiEncodeWritesTheFrame : Obligations.CemiEncodeWritesTheFrame := by
  intro s f d code c1 c2 w frame
  have hcode : (cemiOperands s).code.toNat = code := extractLsb'_toNat_eq 0 10 s.arg2
  have completes_frame : ∀ {p : Packed} {n : Nat}, d.length ≤ 255 → packData (cemiOperands s).code d = p →
      w + 64 * p.apci.toNat + p.f6.toNat = n → Completes .cemiEncode s {} (frame n (trailingData p d)) .none := by
    intro p n hlen hp hn
    have hbytes : encodedFrame (cemiOperands s) p d = frame n (trailingData p d) := by
      subst hn
      simp only [encodedFrame, ctrl1_eq, ctrl2_eq, apduWord_eq, be16_ofNat, cemiOperands, be16_extractLsb', extractLsb'_toNat_eq]
      simp only [extractLsb'_eq_ofNat]
      rfl
    exact hbytes ▸ completes_cemiEncode hlen hp
  refine ⟨raises_cemiEncode, fun hlen hbase hdata hbyte => ?carried, fun hlen hbase hdata => ?base, fun hlen hext => ?extended⟩
  case carried =>
    refine completes_frame hlen (packData_carried (hcode ▸ hbase) hdata hbyte) ?_
    simp only [BitVec.toNat_setWidth, hcode]
    omega
  case base =>
    refine completes_frame hlen (packData_base (hcode ▸ hbase) hdata) ?_
    simp only [BitVec.toNat_setWidth, hcode, BitVec.ofNat_eq_ofNat, BitVec.toNat_ofNat]
    omega
  case extended =>
    refine completes_frame hlen (packData_extended d (hcode ▸ hext)) ?_
    simp only [extractLsb'_toNat_eq, hcode]
    omega

/-! ### The fields of an encoded frame (R171 to R174) -/

/-- The APDU word has its fields where R87 reads them. -/
theorem apduWord_fields (f : CemiFields) (p : Packed) :
    (apduWord f p).extractLsb' 0 6 = p.f6 ∧ (apduWord f p).extractLsb' 6 4 = p.apci ∧
      (apduWord f p).extractLsb' 10 4 = f.seq ∧ (apduWord f p).extractLsb' 14 2 = f.tpci := by
  simp (disch := omega) [apduWord, BitVec.extractLsb'_or]

/-- The two fields of the code together (R149). -/
theorem apduWord_code10 (f : CemiFields) (p : Packed) :
    ((apduWord f p).extractLsb' 0 10).toNat = 64 * p.apci.toNat + p.f6.toNat := by
  have ha := p.apci.isLt
  have hf := p.f6.isLt
  rw [extractLsb'_toNat_eq, apduWord_eq, BitVec.toNat_ofNat]
  omega

/-- The control fields of an encoded frame, decomposed: the reserved bit of R172 is 0. -/
theorem controlWord_ctrl (f : CemiFields) :
    controlWord (ctrl1 f) (ctrl2 f) =
      placeAt 0 f.std ||| placeAt 2 f.noRepeat ||| placeAt 3 f.broadcast ||| placeAt 4 f.priority ||| placeAt 6 f.ack |||
        placeAt 7 f.err ||| placeAt 8 f.isGroup ||| placeAt 9 f.hop ||| placeAt 12 f.eff := by
  have hreserved : (placeAt 1 (0#1) : Word) = 0#32 := rfl
  simp (disch := omega) [controlWord, ctrl1, ctrl2, BitVec.extractLsb'_or, hreserved]

/-- The control word that reads an encoded frame's fields back: bit 8 of ARG0, bits 9 to 15, and bits 16 to 22. -/
theorem controlWord_cemiOperands (s : State) :
    controlWord (ctrl1 (cemiOperands s)) (ctrl2 (cemiOperands s)) =
      placeAt 0 (s.arg0.extractLsb' 8 1) ||| placeAt 2 (s.arg0.extractLsb' 9 7) ||| placeAt 9 (s.arg0.extractLsb' 16 7) := by
  rw [controlWord_ctrl]
  simp (disch := omega) only [cemiOperands, BitVec.or_assoc, placeAt_or_placeAt_adjacent]

/-! ### Decoding an encoded frame (R177) -/

/-- What CemiDecode reads in the frame of the fields `f` and the data `d`, packed as `p` (R177). -/
def readBack (f : CemiFields) (p : Packed) (d : List Byte) : CemiFrame where
  msg := f.msg
  info := 0
  ctrl1 := ctrl1 f
  ctrl2 := ctrl2 f
  src := f.src
  dst := f.dst
  dl := BitVec.ofNat 8 d.length
  apdu := apduWord f p
  packed := p.carries
  trailing := (trailingData p d).length
  excess := 0
  data := d

/-- The fields of an encoded frame stand where CemiDecode reads them. -/
theorem frameOf_encodedFrame (f : CemiFields) (p : Packed) (d : List Byte) :
    frameOf (encodedFrame f p d) ⟨d, p.carries, 0⟩ = readBack f p d := by
  have htrailing : (encodedFrame f p d).length - 11 = (trailingData p d).length := by
    rw [encodedFrame_length, Nat.add_sub_cancel_left]
  rw [frameOf, readBack, htrailing, CemiFrame.mk.injEq]
  exact ⟨rfl, rfl, rfl, rfl, unBe16_be16 f.src, unBe16_be16 f.dst, rfl, unBe16_be16 (apduWord f p), rfl, rfl, rfl, rfl⟩

/-- What the data packs to unpacks to the data (R151). -/
theorem unpack_packData (code : BitVec 10) {d : List Byte} (h : d.length ≤ 255) :
    let p := packData code d
    unpack p.f6 d.length (trailingData p d) = .ok ⟨d, p.carries, 0⟩ ∧ (code.toNat ≤ 15 → p.apci.toNat = code.toNat) ∧
      (15 < code.toNat → 64 * p.apci.toNat + p.f6.toNat = code.toNat ∧ p.carries = false) := by
  have hdata : decide (1 ≤ d.length) = !d.isEmpty := by cases d <;> simp
  have hpack := packThenUnpack code d h
  rw [hdata] at hpack
  exact hpack

/-- CemiDecode of the frame CemiEncode writes (R180). -/
theorem cemiDecodeFrame_encodedFrame (f : CemiFields) {d : List Byte} (h : d.length ≤ 255) :
    cemiDecodeFrame (encodedFrame f (packData f.code d) d) = .ok (readBack f (packData f.code d) d) := by
  obtain ⟨hunpack, -⟩ := unpack_packData f.code h
  obtain ⟨hdata6, -⟩ := apduWord_fields f (packData f.code d)
  have hdl : (BitVec.ofNat 8 d.length).toNat = d.length := by
    rw [BitVec.toNat_ofNat, Nat.mod_eq_of_lt (by omega)]
  rw [← hdata6, ← unBe16_be16 (apduWord f _), ← hdl] at hunpack
  rw [← frameOf_encodedFrame]
  exact cemiDecodeFrame_of_unpack (by rw [encodedFrame_length]; omega) hunpack

/-- The first byte rides in data6 exactly where the code is a base code and the byte at most 63 (R147). -/
theorem packData_carries_iff (code : BitVec 10) (d : List Byte) :
    (packData code d).carries = true ↔ code.toNat ≤ 15 ∧ d ≠ [] ∧ (d.headD 0).toNat ≤ 63 := by
  obtain hext | hbase := Nat.lt_or_ge 15 code.toNat
  case inl => simp [packData_extended d hext, hext]
  case inr =>
    by_cases hcarry : d ≠ [] ∧ (d.headD 0).toNat ≤ 63
    case pos =>
      obtain ⟨hdata, hbyte⟩ := hcarry
      exact iff_of_true (by rw [packData_carried hbase hdata hbyte]) ⟨hbase, hdata, hbyte⟩
    case neg =>
      have hall : d = [] ∨ 63 < (d.headD 0).toNat := by
        rw [not_and_or, not_not, not_le] at hcarry
        exact hcarry
      exact iff_of_false (by simp [packData_base hbase hall]) fun h => hcarry h.2

/-! ### The fields of the result block (R179) -/

/-- msg and info_length in the first word. -/
theorem resultBlock_r0 (fr : CemiFrame) :
    (writeCemiBlock 0 fr {}).r0.extractLsb' 0 8 = fr.msg ∧ (writeCemiBlock 0 fr {}).r0.extractLsb' 8 8 = fr.info := by
  have hr0 : (writeCemiBlock 0 fr {}).r0 = placeAt 0 fr.msg ||| placeAt 8 fr.info ||| placeAt 16 fr.ctrl1 ||| placeAt 24 fr.ctrl2 :=
    rfl
  rw [hr0]
  simp (disch := omega) [BitVec.extractLsb'_or]

/-- data_length and the packed flag in the third word. -/
theorem resultBlock_r2 (fr : CemiFrame) :
    (writeCemiBlock 0 fr {}).r2.extractLsb' 0 8 = fr.dl ∧ (writeCemiBlock 0 fr {}).r2.getLsbD 24 = fr.packed := by
  have hr2 : (writeCemiBlock 0 fr {}).r2 =
      placeAt 0 fr.dl ||| placeAt 8 fr.apdu ||| placeAt 24 (bit fr.packed) ||| placeAt 25 fr.isGroup := rfl
  rw [hr2]
  simp (disch := omega) [BitVec.extractLsb'_or]

/-- Both readings of the code, and the transport fields, in the fourth word. -/
theorem resultBlock_r3 (fr : CemiFrame) :
    (writeCemiBlock 0 fr {}).r3.extractLsb' 0 4 = fr.code4 ∧ (writeCemiBlock 0 fr {}).r3.extractLsb' 4 10 = fr.code10 ∧
      (writeCemiBlock 0 fr {}).r3.extractLsb' 14 2 = fr.tpci ∧ (writeCemiBlock 0 fr {}).r3.extractLsb' 16 4 = fr.seq := by
  have hr3 : (writeCemiBlock 0 fr {}).r3 =
      placeAt 0 fr.code4 ||| placeAt 4 fr.code10 ||| placeAt 14 fr.tpci ||| placeAt 16 fr.seq ||| placeAt 20 fr.data6 := rfl
  rw [hr3]
  simp (disch := omega) [BitVec.extractLsb'_or]

/-- The excess in the sixth word. -/
theorem resultBlock_r5 (fr : CemiFrame) :
    (writeCemiBlock 0 fr {}).r5.extractLsb' 16 16 = BitVec.ofNat 16 fr.excess := by
  have hr5 : (writeCemiBlock 0 fr {}).r5 =
      placeAt 0 (BitVec.ofNat 16 fr.trailing) ||| placeAt 16 (BitVec.ofNat 16 fr.excess) := rfl
  rw [hr5]
  simp (disch := omega) [BitVec.extractLsb'_or]

/-! ### The round trip (R180) -/

/-- Source and destination read back as the whole of ARG1. -/
theorem readBack_addresses (s : State) (p : Packed) (d : List Byte) :
    (writeCemiBlock 0 (readBack (cemiOperands s) p d) {}).r1 = s.arg1 := by
  have hr1 : (writeCemiBlock 0 (readBack (cemiOperands s) p d) {}).r1 =
      placeAt 0 (s.arg1.extractLsb' 0 16) ||| placeAt 16 (s.arg1.extractLsb' 16 16) := rfl
  rw [hr1, placeAt_or_placeAt_adjacent s.arg1 rfl rfl]
  simp [placeAt]

/-- The control fields read back from ARG0, with the reserved bit of R172 0. -/
theorem readBack_control (s : State) (p : Packed) (d : List Byte) :
    let r4 := (writeCemiBlock 0 (readBack (cemiOperands s) p d) {}).r4
    r4.extractLsb' 0 1 = s.arg0.extractLsb' 8 1 ∧ r4.extractLsb' 1 1 = 0 ∧ r4.extractLsb' 2 7 = s.arg0.extractLsb' 9 7 ∧
      r4.extractLsb' 9 7 = s.arg0.extractLsb' 16 7 := by
  intro r4
  have hr4 : r4 =
      placeAt 0 (s.arg0.extractLsb' 8 1) ||| placeAt 2 (s.arg0.extractLsb' 9 7) ||| placeAt 9 (s.arg0.extractLsb' 16 7) :=
    controlWord_cemiOperands s
  rw [hr4]
  simp (disch := omega) [BitVec.extractLsb'_or]

/-- Settles O34: CemiDecode reads back what CemiEncode wrote, and the block shows it field by field. -/
theorem cemiRoundTrip : Obligations.CemiRoundTrip := by
  intro s hlen
  let p := packData (cemiOperands s).code s.inSample
  refine ⟨_, completes_cemiEncode hlen rfl, fun s' hs' => ?_⟩
  have hdecode : cemiDecodeFrame s'.inSample = .ok (readBack (cemiOperands s) p s.inSample) :=
    hs' ▸ cemiDecodeFrame_encodedFrame (cemiOperands s) hlen
  obtain ⟨-, hbase, hext⟩ := unpack_packData (cemiOperands s).code hlen
  obtain ⟨-, hapci, hseq, htpci⟩ := apduWord_fields (cemiOperands s) p
  obtain ⟨hmsg, hinfo⟩ := resultBlock_r0 (readBack (cemiOperands s) p s.inSample)
  obtain ⟨hdl, hpacked⟩ := resultBlock_r2 (readBack (cemiOperands s) p s.inSample)
  obtain ⟨hcode4, hcode10, htpci', hseq'⟩ := resultBlock_r3 (readBack (cemiOperands s) p s.inSample)
  obtain ⟨hstd, hreserved, hctrl, hroute⟩ := readBack_control s p s.inSample
  refine ⟨_, completes_cemiDecode hdecode, hmsg, hinfo, readBack_addresses s p s.inSample, ?length, ?packed, fun h => ?code4,
    fun h => ?code10, htpci'.trans htpci, hseq'.trans hseq, hstd, hreserved, hctrl, hroute, resultBlock_r5 _⟩
  case length =>
    rw [hdl]
    exact Nat.mod_eq_of_lt (by omega)
  case packed =>
    rw [hpacked]
    exact packData_carries_iff _ _
  case code4 =>
    rw [hcode4]
    exact (congrArg BitVec.toNat hapci).trans (hbase h)
  case code10 =>
    rw [hcode10]
    exact BitVec.eq_of_toNat_eq ((apduWord_code10 (cemiOperands s) p).trans (hext h).1)

end Sys2Proof.Machine

/-! The KNXnet/IP header codec as commands: HDR_ENCODE writes a header in front of IN, and HDR_DECODE of every byte string, by request
type (43_header.md R200 to R204). -/

namespace Sys2Proof.Machine

/-! ### HDR_ENCODE (R203) -/

/-- The six bytes of a header whose 16-bit fields are the low halves of two registers (R201). -/
theorem encodeHeader_registers (version : Byte) (x y : Word) :
    encodeHeader version (x.extractLsb' 0 16) (y.extractLsb' 0 16) =
      [0x06, version, x.extractLsb' 8 8, x.extractLsb' 0 8, y.extractLsb' 8 8, y.extractLsb' 0 8] := by
  rw [encodeHeader, be16_extractLsb', be16_extractLsb']
  rfl

/-- HDR_ENCODE completes where the header and IN fit the output buffer. -/
theorem completes_hdrEncode {s : State} (h : s.inSample.length ≤ 65529) :
    Completes .hdrEncode s {}
      (encodeHeader (s.arg0.extractLsb' 0 8) (s.arg1.extractLsb' 0 16) (s.arg2.extractLsb' 0 16) ++ s.inSample) .none := by
  have hfits : ¬ Config.params.bufBytes < 6 + s.inSample.length := by
    rw [params_bufBytes]
    omega
  exact completes_of_rule (i := .hdrEncode) (if_neg hfits) rfl rfl rfl

/-- HDR_ENCODE raises EncodeLengthError where the header and IN overflow the output buffer. -/
theorem raises_hdrEncode {s : State} (h : 65529 < s.inSample.length) : Raises .hdrEncode s .encodeLength .none := by
  have hover : Config.params.bufBytes < 6 + s.inSample.length := by
    rw [params_bufBytes]
    omega
  exact raises_of_rule (i := .hdrEncode) (if_pos hover)

/-- Settles O35: by whether IN fits behind a header; the header's bytes are those of the three registers. -/
theorem hdrEncodeWritesTheHeader : Obligations.HdrEncodeWritesTheHeader := by
  intro s
  refine ⟨fun hfits => ?_, raises_hdrEncode⟩
  rw [← encodeHeader_registers]
  exact completes_hdrEncode hfits

/-! ### HDR_DECODE (R204) -/

/-- The payload of a decoded header is the datagram up to request_length, without the six bytes of the header (R202). -/
theorem headerOf_payload_eq_drop_take (b : List Byte) (t : Tail) :
    (headerOf b t).payload = (b.take (wireHalf b 4)).drop 6 :=
  List.drop_take.symm

/-- HDR_DECODE raises HeaderLengthError for a datagram that fails a length check of R202. -/
theorem raises_hdrDecode {s : State} (h : HeaderBad s.inSample) : Raises .hdrDecode s .headerLength .none :=
  raises_of_rule (by simp only [ruleOf, hdrDecode, hdrDecodeBytes_bad h])

/-- HDR_DECODE completes with the header's fields; its tail gives the variant and the third word. -/
theorem completes_hdrDecode {s : State} {t : Tail}
    (h : hdrDecodeBytes Config.params s.inSample = .ok (headerOf s.inSample t)) :
    Completes .hdrDecode s
      { r0 := headerRes0 s.inSample, r1 := headerRes1 s.inSample t.variant.toNat 0, r2 := t.word2 }
      ((s.inSample.take (wireHalf s.inSample 4)).drop 6) .none := by
  have hrule : ruleOf .hdrDecode s = hdrDecode Config.params s := rfl
  simp only [hdrDecode, h, headerWord0_headerOf, headerWord1_headerOf, headerOf_tail, headerOf_payload_eq_drop_take] at hrule
  exact completes_of_rule hrule rfl rfl rfl

/-- Settles O36: by the length checks, then by the tail that the request type selects (R81). -/
theorem hdrDecodeReadsTheHeader : Obligations.HdrDecodeReadsTheHeader := by
  intro s b payload
  refine ⟨raises_hdrDecode, fun hgood hwrapper => ?wrapper, fun hgood htimer => ?timer, fun hgood hw ht => ?plain⟩
  case wrapper =>
    rw [← wrapperWord_headerOf hgood hwrapper]
    exact completes_hdrDecode (hdrDecodeBytes_wrapper hgood hwrapper)
  case timer => exact completes_hdrDecode (hdrDecodeBytes_timer hgood htimer)
  case plain => exact completes_hdrDecode (hdrDecodeBytes_plain hgood hw ht)

end Sys2Proof.Machine

/-! The cryptographic primitives: the S-box as an inverse and an affine map, the known answers, and the default keystream cipher
(44_crypto.md R231, R238 to R240). -/

namespace Sys2Proof.Machine

/-! ### The S-box (R231) -/

/-- The rotations that undo the linear part of the affine map of R231. -/
def undoLinear (w : Byte) : Byte := w.rotateLeft 1 ^^^ w.rotateLeft 3 ^^^ w.rotateLeft 6

theorem getLsbD_rotateLeft_byte (w : Byte) {r i : Nat} (hr : r < 8) (hi : i < 8) :
    (w.rotateLeft r).getLsbD i = w.getLsbD ((i + (8 - r)) % 8) := by
  rw [BitVec.getLsbD_rotateLeft_of_le hr]
  by_cases h : i < r
  · rw [decide_eq_true h, cond_true, Nat.mod_eq_of_lt (by omega), show 8 - r + i = i + (8 - r) by omega]
  · rw [decide_eq_false h, cond_false, decide_eq_true hi, Bool.true_and, show (i + (8 - r)) % 8 = i - r by omega]

theorem getLsbD_undoLinear (w : Byte) {i : Nat} (hi : i < 8) :
    (undoLinear w).getLsbD i = (w.getLsbD ((i + 7) % 8) ^^ w.getLsbD ((i + 5) % 8) ^^ w.getLsbD ((i + 2) % 8)) := by
  have hrot {r : Nat} (hr : r < 8) := getLsbD_rotateLeft_byte w hr hi
  rw [undoLinear, BitVec.getLsbD_xor, BitVec.getLsbD_xor, hrot (by decide), hrot (by decide), hrot (by decide)]

/-- The sum of five bits of `undoLinear`, written out: every bit but `b0` occurs twice. -/
theorem xor_of_pairs (b0 b1 b2 b3 b4 b5 b6 b7 : Bool) :
    ((b7 ^^ b5 ^^ b2) ^^ (b3 ^^ b1 ^^ b6) ^^ (b4 ^^ b2 ^^ b7) ^^ (b5 ^^ b3 ^^ b0) ^^ (b6 ^^ b4 ^^ b1)) = b0 := by
  decide +revert

/-- The linear part of the affine map gives back what `undoLinear` was taken of. -/
theorem linear_undoLinear (w : Byte) {i : Nat} (hi : i < 8) :
    ((undoLinear w).getLsbD i ^^ (undoLinear w).getLsbD ((i + 4) % 8) ^^ (undoLinear w).getLsbD ((i + 5) % 8) ^^
      (undoLinear w).getLsbD ((i + 6) % 8) ^^ (undoLinear w).getLsbD ((i + 7) % 8)) = w.getLsbD i := by
  have hmod (j : Nat) : j % 8 < 8 := Nat.mod_lt j (by decide)
  have hwrap (a b : Nat) : ((i + a) % 8 + b) % 8 = (i + (a + b) % 8) % 8 := by omega
  simp only [getLsbD_undoLinear w hi, getLsbD_undoLinear w (hmod _), hwrap, Nat.reduceAdd, Nat.reduceMod, Nat.add_zero,
    Nat.mod_eq_of_lt hi]
  exact xor_of_pairs ..

/-- The inverse in GF(2^8) that the table's entry for `x` is the affine map of: the map undone on the entry. -/
def sboxInverse (x : Byte) : Byte := undoLinear (sbox x ^^^ 0x63)

theorem sboxInverse_zero : sboxInverse 0 = 0 := by decide

/-- The printed table, entry by entry. -/
theorem gfProduct_sboxInverse : ∀ x : Byte, x ≠ 0 → gfProduct x (sboxInverse x) = 1 := by
  decide +kernel

/-- Settles O38: `sboxInverse` is the inverse, and the affine map of it is the table's entry. -/
theorem sboxIsInverseThenAffine : Obligations.SboxIsInverseThenAffine := by
  intro x
  refine ⟨sboxInverse x, fun hx => hx ▸ sboxInverse_zero, gfProduct_sboxInverse x, fun i hi => ?affine⟩
  case affine =>
    rw [sboxInverse, linear_undoLinear _ hi, BitVec.getLsbD_xor, Bool.xor_assoc, Bool.xor_self, Bool.xor_false]

/-! ### The known answers (R239) -/

/-- The key of the known answers K2 to K7. -/
def knownKey : Block := Block.ofBits 0x2b7e151628aed2a6abf7158809cf4f3c

theorem aes_knownKey_zero : aes knownKey Block.zero = Block.ofBits 0x7df76b0c1ab899b33e42f047b91b546f := by
  decide +kernel

theorem cmacK1_knownKey : cmacK1 knownKey = Block.ofBits 0xfbeed618357133667c85e08f7236a8de := by
  rw [cmacK1, aes_knownKey_zero]
  decide

theorem cmacK2_knownKey : cmacK2 knownKey = Block.ofBits 0xf7ddac306ae266ccf90bc11ee46d513b := by
  rw [cmacK2, cmacK1_knownKey]
  decide

/-- Settles O37: the subkeys by doubling K2's block, and each other answer by running the model on its input. -/
theorem knownAnswers : Obligations.KnownAnswers := by
  refine ⟨?aes, aes_knownKey_zero, cmacK1_knownKey, cmacK2_knownKey, ?empty, ?oneBlock, ?padded, ?fourBlocks⟩
  case aes | empty | oneBlock | padded | fourBlocks => decide +kernel

/-! ### The keystream and the default cipher (R238, R240) -/

/-- Settles O39: byte `i` of the keystream is byte `i` of its blocks, and the counter is a byte, so modulo 256. -/
theorem keystreamBytes : Obligations.KeystreamBytes := by
  intro k nonce n
  refine ⟨keystream_length k nonce n, fun i hi => ?_⟩
  have hcounter : BitVec.ofNat 8 ((i / 16 + 1) % 256) = BitVec.ofNat 8 (1 + i / 16) :=
    BitVec.eq_of_toNat_eq (by simp [Nat.add_comm])
  have hblocks := keystreamBlocks_getD k nonce ((n + 15) / 16) 1 i (by omega)
  rw [hcounter, ← hblocks, keystream, List.getD_eq_getElem?_getD, List.getElem?_take_of_lt hi, List.getD_eq_getElem?_getD]

/-- Settles O40: the first pass keeps the length, so the second XORs the same keystream. -/
theorem cipherIsAnInvolution : Obligations.CipherIsAnInvolution := by
  intro k nonce p
  have hlen : (keystreamCipher k nonce p).length = p.length := keystreamCipher_length k nonce p
  refine ⟨?_, hlen⟩
  rw [keystreamCipher, hlen]
  exact xorBytes_xorBytes p _ (keystream_length k nonce p.length).ge

end Sys2Proof.Machine

/-! The secure frame processor as commands: the nonce and the tag, what SEC_UNWRAP and SEC_TIMER_VERIFY ask of a datagram, the
wrapper that SEC_WRAP writes, and the two commands one after the other (45_secure.md R260 to R275). -/

namespace Sys2Proof.Machine

/-! ### Slices byte by byte -/

theorem slice_zero (b : List Byte) (n : Nat) : slice b 0 n = b.take n := rfl

/-- What is left of a slice behind its first `k` bytes. -/
theorem drop_slice (b : List Byte) (i j k : Nat) : (slice b i j).drop k = slice b (i + k) j := by
  rw [slice, slice, List.drop_take, List.drop_drop, Nat.sub_sub]

theorem getElem?_slice {b : List Byte} {i j k : Nat} (h : k < j - i) : (slice b i j)[k]? = b[i + k]? := by
  rw [slice, List.getElem?_take_of_lt h, List.getElem?_drop]

/-- Strings of one length that agree byte by byte between `i` and `j` have the same slice there. -/
theorem slice_congr {b b' : List Byte} {i j : Nat} (hlen : b'.length = b.length)
    (h : ∀ k, i ≤ k → k < j → b'.getD k 0 = b.getD k 0) : slice b' i j = slice b i j := by
  apply List.ext_getElem (by rw [slice_length, slice_length, hlen])
  intro k hk' hk
  rw [slice_length] at hk
  have hbyte := h (i + k) (by omega) (by omega)
  rw [List.getD_eq_getElem _ _ (by omega), List.getD_eq_getElem _ _ (by omega)] at hbyte
  simpa [slice] using hbyte

/-- Strings with the same slice agree at each byte of it. -/
theorem getD_eq_of_slice_eq {b b' : List Byte} {i j k : Nat} (h : slice b' i j = slice b i j) (hi : i ≤ k) (hj : k < j) :
    b'.getD k 0 = b.getD k 0 := by
  have hk : i + (k - i) = k := by omega
  have hbyte := congrArg (·[k - i]?) h
  simp only [getElem?_slice (show k - i < j - i by omega), hk] at hbyte
  rw [List.getD_eq_getElem?_getD, hbyte, List.getD_eq_getElem?_getD]

/-! ### SEC_NONCE (R264) -/

/-- Settles O41: by the length check, then by KIND; N_auth ends in ARG0's two low bytes. -/
theorem secNonceBuildsTheNonce : Obligations.SecNonceBuildsTheNonce := by
  intro s
  refine ⟨fun hshort => ⟨?_, ?_⟩, fun hlen => ⟨?auth, ?dec⟩⟩
  case auth =>
    have hrule : ruleOf (.secNonce 0) s = .ok { out := nonceAuth (slice s.inSample 0 14) (s.arg0.extractLsb' 0 16) } :=
      if_neg (Nat.not_lt.mpr hlen)
    rw [nonceAuth, be16_extractLsb', slice_zero] at hrule
    exact completes_of_rule hrule rfl rfl rfl
  case dec =>
    have hrule : ruleOf (.secNonce 1) s = .ok { out := nonceDec (slice s.inSample 0 14) } := if_neg (Nat.not_lt.mpr hlen)
    exact completes_of_rule hrule rfl rfl rfl
  all_goals exact raises_of_rule (if_pos hshort)

/-! ### CMAC_GEN (R265) -/

/-- Settles O42: by KEY_VALID. -/
theorem cmacGenNeedsTheKey : Obligations.CmacGenNeedsTheKey := by
  intro s
  refine ⟨fun hkey => ⟨?_, cmac_length _ _⟩, fun hkey => ?_⟩
  · exact completes_of_rule (i := .cmacGen) (d := { out := cmac s.key s.inSample }) (if_pos hkey) rfl rfl rfl
  · exact raises_of_rule (i := .cmacGen) (if_neg (by simpa [State.keyValid] using hkey))

/-! ### SEC_UNWRAP (R266 to R269) -/

theorem raises_secUnwrap {s : State} {e : ErrCode} {sec : SecState}
    (h : unwrapCore Config.params s.key s.keyValid s.inSample = .error ⟨e, sec⟩) : Raises .secUnwrap s e sec :=
  raises_of_rule (by simp only [ruleOf, secUnwrap, h])

/-- SEC_UNWRAP of a wrapper that UnwrapCore accepts: the header words of the datagram and the plaintext. -/
theorem completes_secUnwrap {s : State} {p : List Byte} (hgood : ¬ HeaderBad s.inSample) (hr : wireHalf s.inSample 2 = 0x0950)
    (h : unwrapCore Config.params s.key s.keyValid s.inSample =
      .ok (headerOf s.inSample (.wrapper (wrapperTail s.inSample (wireHalf s.inSample 4))),
        wrapperTail s.inSample (wireHalf s.inSample 4), p)) :
    Completes .secUnwrap s
      { r0 := headerRes0 s.inSample, r1 := headerRes1 s.inSample 1 0, r2 := headerRes2 s.inSample } p .authenticated := by
  have hword := secureWord1_eq s.inSample (.wrapper (wrapperTail s.inSample (wireHalf s.inSample 4))) 1 (by rw [hr]; decide)
  have hrule : ruleOf .secUnwrap s = secUnwrap Config.params s := rfl
  simp only [secUnwrap, h, headerWord0_headerOf, hword, wrapperWord_headerOf hgood hr] at hrule
  exact completes_of_rule hrule rfl rfl rfl

/-- Settles O43: each clause is one branch of UnwrapCore. -/
theorem secUnwrapVerifiesThenDecrypts : Obligations.SecUnwrapVerifiesThenDecrypts := by
  intro s b
  refine ⟨fun hbad => ?short, fun hgood hr => ?other, fun hgood hr => ?wrapper⟩
  case short => exact raises_secUnwrap (unwrapCore_bad _ _ hbad)
  case other => exact raises_secUnwrap (unwrapCore_other _ _ hgood hr)
  case wrapper =>
    have core := unwrapCore_wrapper s.key s.keyValid hgood hr
    refine ⟨fun hkey => ?noKey, fun hkey hmac => ?wrongTag, fun hkey hmac => ?rightTag⟩
    case noKey => exact raises_secUnwrap (core.trans (if_pos hkey))
    all_goals
      have hvalid : ¬ s.keyValid = false := by simpa [State.keyValid] using hkey
      rw [if_neg hvalid] at core
    case wrongTag => exact raises_secUnwrap (core.trans (if_pos hmac))
    case rightTag => exact completes_secUnwrap hgood hr (core.trans (if_neg (not_not.mpr hmac)))

/-! ### SEC_TIMER_VERIFY (R270, R271) -/

theorem raises_secTimerVerify {s : State} {e : ErrCode} {sec : SecState}
    (h : timerCore Config.params s.key s.keyValid s.inSample = .error ⟨e, sec⟩) : Raises .secTimerVerify s e sec :=
  raises_of_rule (by simp only [ruleOf, secTimerVerify, h])

/-- SEC_TIMER_VERIFY of a timer notify that TimerCore accepts: the header words of the datagram and its bytes [6, 20). -/
theorem completes_secTimerVerify {s : State} (hr : wireHalf s.inSample 2 = 0x0955)
    (h : timerCore Config.params s.key s.keyValid s.inSample =
      .ok (headerOf s.inSample (.timer (timerTail s.inSample)), timerTail s.inSample)) :
    Completes .secTimerVerify s { r0 := headerRes0 s.inSample, r1 := headerRes1 s.inSample 2 0 } (slice s.inSample 6 20)
      .authenticated := by
  have hword := secureWord1_eq s.inSample (.timer (timerTail s.inSample)) 2 (by rw [hr]; decide)
  have hrule : ruleOf .secTimerVerify s = secTimerVerify Config.params s := rfl
  simp only [secTimerVerify, h, headerWord0_headerOf, hword, timerTail_fields] at hrule
  exact completes_of_rule hrule rfl rfl rfl

/-- Settles O44: each clause is one branch of TimerCore. -/
theorem secTimerVerifyChecksTheTag : Obligations.SecTimerVerifyChecksTheTag := by
  intro s b
  refine ⟨fun hbad => ?short, fun hgood hr => ?other, fun hgood hr => ?timer⟩
  case short => exact raises_secTimerVerify (timerCore_bad _ _ hbad)
  case other => exact raises_secTimerVerify (timerCore_other _ _ hgood hr)
  case timer =>
    have core := timerCore_timer s.key s.keyValid hgood hr
    refine ⟨fun hkey => ?noKey, fun hkey hmac => ?wrongTag, fun hkey hmac => ?rightTag⟩
    case noKey => exact raises_secTimerVerify (core.trans (if_pos hkey))
    all_goals
      have hvalid : ¬ s.keyValid = false := by simpa [State.keyValid] using hkey
      rw [if_neg hvalid] at core
    case wrongTag => exact raises_secTimerVerify (core.trans (if_pos hmac))
    case rightTag => exact completes_secTimerVerify hr (core.trans (if_neg (not_not.mpr hmac)))

/-! ### SEC_WRAP (R272) -/

/-- The encrypted frame SEC_WRAP makes of IN: the plaintext from byte 16 on, under N_dec of bytes [2, 16) (R261, R272). -/
def wrapFrame (P : Params) (key : Block) (b : List Byte) : List Byte :=
  P.secEncipher key (slice b 2 16 ++ [0x01]) (b.drop 16)

/-- The datagram SEC_WRAP makes of IN (R272), piece by piece; `secWrap_eq` ties it to the rule. -/
def wrapOutput (P : Params) (key : Block) (version : Byte) (b : List Byte) : List Byte :=
  encodeHeader version P.reqSecureWrapper (BitVec.ofNat 16 (b.length + 22)) ++ b.take 16 ++ wrapFrame P key b ++
    cmac key (slice b 2 16 ++ be16 (BitVec.ofNat 16 (wrapFrame P key b).length) ++ wrapFrame P key b)

/-- The fields of IN stand in the datagram in the order they have in IN (R272). -/
theorem wrapDatagram_slices (P : Params) (key : Block) (version : Byte) {b : List Byte} (h16 : 16 ≤ b.length) :
    wrapDatagram P key version (slice b 0 2) (slice b 2 8) (slice b 8 14) (slice b 14 16) (b.drop 16) =
      wrapOutput P key version b := by
  have hnonce : slice b 2 8 ++ slice b 8 14 ++ slice b 14 16 = slice b 2 16 := by
    rw [slice_append_slice _ (by omega) (by omega), slice_append_slice _ (by omega) (by omega)]
  have hfields : b.take 16 = slice b 0 2 ++ slice b 2 8 ++ slice b 8 14 ++ slice b 14 16 := by
    rw [slice_append_slice _ (by omega) (by omega), slice_append_slice _ (by omega) (by omega),
      slice_append_slice _ (by omega) (by omega), slice_zero]
  have hlen : 38 + (b.drop 16).length = b.length + 22 := by
    rw [List.length_drop]
    omega
  rw [wrapOutput, hfields]
  simp only [wrapDatagram, wrapperTag, nonceAuth, nonceDec, hnonce, hlen, wrapFrame, List.append_assoc]

/-- Everything SEC_WRAP can come to, its checks in their order (R272). -/
theorem secWrap_eq (o : OpenParams) (s : State) :
    secWrap (Config.paramsAt o) s =
      if s.inSample.length < 16 then .error ⟨.frameTruncated, .none⟩
      else if 65513 < s.inSample.length then .error ⟨.encodeLength, .none⟩
      else if s.keyValid = false then .error ⟨.keyRequired, .none⟩
      else .ok { out := wrapOutput (Config.paramsAt o) s.key (s.arg0.extractLsb' 0 8) s.inSample } := by
  by_cases h16 : s.inSample.length < 16
  · simp only [secWrap, if_pos h16]
  · have hbuf : (Config.paramsAt o).bufBytes < 38 + (s.inSample.drop 16).length ↔ 65513 < s.inSample.length := by
      show 65535 < 38 + (s.inSample.drop 16).length ↔ _
      rw [List.length_drop]
      omega
    simp only [secWrap, if_neg h16, hbuf, wrapDatagram_slices _ _ _ (Nat.le_of_not_lt h16)]

/-- The request type and the length that a header's bytes carry (R201). -/
theorem wireHalf_of_header {w : List Byte} {version : Byte} {rt rl : Half} (h : w.take 6 = encodeHeader version rt rl) :
    wireHalf w 2 = rt.toNat ∧ wireHalf w 4 = rl.toNat := by
  have within (i j : Nat) (hj : j ≤ 6) : slice w i j = slice (encodeHeader version rt rl) i j := by
    rw [← h, slice, slice, List.drop_take, List.take_take, Nat.min_eq_left (by omega)]
  have htype : slice w 2 (2 + 2) = be16 rt := within 2 4 (by omega)
  have hlength : slice w 4 (4 + 2) = be16 rl := within 4 6 (by omega)
  exact ⟨by rw [← unBe16_slice_toNat, htype, unBe16_be16], by rw [← unBe16_slice_toNat, hlength, unBe16_be16]⟩

/-- `w` is a wrapper of IN `b` as the engine with the parameters `P` writes it: its bytes, and the tag that SEC_UNWRAP asks for. -/
structure Wraps (P : Params) (key : Block) (version : Byte) (b w : List Byte) : Prop where
  header : w.take 6 = encodeHeader version P.reqSecureWrapper (BitVec.ofNat 16 (b.length + 22))
  length : w.length = b.length + 22
  requestLength : wireHalf w 4 = b.length + 22
  fields : slice w 6 22 = b.take 16
  frame : slice w 22 (b.length + 6) = wrapFrame P key b
  tag : storedMac w = wrapperMac key w

theorem Wraps.requestType {P : Params} {key : Block} {version : Byte} {b w : List Byte} (h : Wraps P key version b w) :
    wireHalf w 2 = P.reqSecureWrapper.toNat :=
  (wireHalf_of_header h.header).1

/-- Timestamp, serial and tag of the wrapper are those of IN (R82, R272). -/
theorem slice_nonce_of_fields {b w : List Byte} (h : slice w 6 22 = b.take 16) : slice w 8 22 = slice b 2 16 := by
  rw [← drop_slice w 6 22 2, h, ← slice_zero, drop_slice]

/-- The wrapper SEC_WRAP writes, at the engine's own request type (`wrapper_fields` is at the default one), where the encrypted
frame is as long as the plaintext. -/
theorem wrapOutput_wraps {P : Params} {key : Block} {b : List Byte} (version : Byte) (h16 : 16 ≤ b.length)
    (hmax : b.length ≤ 65513) (hframe : (wrapFrame P key b).length = b.length - 16) :
    Wraps P key version b (wrapOutput P key version b) := by
  have hheader (rt : Half) : (encodeHeader version rt (BitVec.ofNat 16 (b.length + 22))).length = 6 := encodeHeader_length _ _ _
  have htake : (b.take 16).length = 16 := by simpa using h16
  have hcut : (wrapOutput P key version b).take 6 =
      encodeHeader version P.reqSecureWrapper (BitVec.ofNat 16 (b.length + 22)) := by
    simp only [wrapOutput, List.append_assoc]
    exact List.take_left' (hheader _)
  have hrl : wireHalf (wrapOutput P key version b) 4 = b.length + 22 := by
    rw [(wireHalf_of_header hcut).2, BitVec.toNat_ofNat, Nat.mod_eq_of_lt (by omega)]
  have hfields : slice (wrapOutput P key version b) 6 22 = b.take 16 := by
    simp only [wrapOutput, List.append_assoc]
    rw [← List.append_assoc]
    exact slice_append_mid _ _ _ (hheader _) (by rw [htake])
  have hcipher : slice (wrapOutput P key version b) 22 (b.length + 6) = wrapFrame P key b :=
    slice_append_mid _ _ _ (by rw [List.length_append, hheader, htake]) (by omega)
  refine ⟨hcut, ?length, hrl, hfields, hcipher, ?tag⟩
  case length =>
    simp only [wrapOutput, List.length_append, hheader, htake, hframe, cmac_length]
    omega
  case tag =>
    rw [wrapperMac, slice_nonce_of_fields hfields, hrl, show b.length + 22 - 38 = b.length - 16 by omega,
      show b.length + 22 - 16 = b.length + 6 by omega, hcipher, storedMac, hrl, ← hframe,
      ← List.append_nil (wrapOutput P key version b)]
    refine slice_append_mid _ _ _ ?_ ?_
    · simp only [List.length_append, hheader, htake, hframe]
      omega
    · rw [cmac_length]
      omega

/-- SEC_WRAP of an IN that fits, in an engine whose encryption direction keeps the length: it completes with a wrapper of IN. -/
theorem completesAt_secWrap {o : OpenParams} {s : State} (h16 : 16 ≤ s.inSample.length) (hmax : s.inSample.length ≤ 65513)
    (hkey : s.keyctl.getLsbD 0 = true) (hlen : ∀ k n p, (o.secEncipher k n p).length = p.length) :
    ∃ w, CompletesAt o .secWrap s {} w .none ∧
      Wraps (Config.paramsAt o) s.key (s.arg0.extractLsb' 0 8) s.inSample w := by
  have hvalid : ¬ s.keyValid = false := by simpa [State.keyValid] using hkey
  have hexec : execAt o .secWrap s = .next (s.finish (secWrap (Config.paramsAt o) s)) := rfl
  rw [secWrap_eq, if_neg (Nat.not_lt.mpr h16), if_neg (Nat.not_lt.mpr hmax), if_neg hvalid] at hexec
  refine ⟨_, completesAt_of_ok hexec, wrapOutput_wraps _ h16 hmax ?_⟩
  exact (hlen _ _ _).trans List.length_drop

/-! ### SEC_WRAP at the defaults -/

theorem completesAt_openDefaults {i : Instr} {s : State} {res : Results} {out : List Byte} {sec : SecState} :
    CompletesAt Config.openDefaults i s res out sec ↔ Completes i s res out sec := by
  rw [CompletesAt, Completes, execAt_openDefaults]

/-- The keystream of R238 keeps the contract, in both directions. -/
theorem openDefaults_cipherContract : Config.openDefaults.CipherContract where
  length := by
    rintro k n c _ ⟨⟩
    exact keystreamCipher_length k n c
  encipher_length := keystreamCipher_length
  inverse k n p := congrArg some (cipherIsAnInvolution k n p).1

theorem raises_secWrap {s : State} {e : ErrCode} {sec : SecState}
    (h : secWrap (Config.paramsAt Config.openDefaults) s = .error ⟨e, sec⟩) : Raises .secWrap s e sec :=
  raises_of_rule h

/-- Settles O45: the three checks in their order, then the bytes of the wrapper. -/
theorem secWrapWritesTheWrapper : Obligations.SecWrapWritesTheWrapper := by
  intro s n
  have hrule := secWrap_eq Config.openDefaults s
  refine ⟨fun hshort => ?short, fun hlong => ?long, fun h16 hmax hkey => ?noKey, fun h16 hmax hkey => ?wrapper⟩
  case short => exact raises_secWrap (hrule.trans (if_pos hshort))
  all_goals rw [if_neg (show ¬ s.inSample.length < 16 by omega)] at hrule
  case long => exact raises_secWrap (hrule.trans (if_pos hlong))
  case noKey =>
    rw [if_neg (Nat.not_lt.mpr hmax)] at hrule
    exact raises_secWrap (hrule.trans (if_pos hkey))
  case wrapper =>
    obtain ⟨w, hw, header, length, -, fields, frame, tag⟩ :=
      completesAt_secWrap h16 hmax hkey openDefaults_cipherContract.encipher_length
    refine ⟨w, completesAt_openDefaults.mp hw, length, header, fields, frame.trans ?_, tag⟩
    show keystreamCipher _ _ _ = _
    rw [keystreamCipher, List.length_drop]

/-! ### SEC_UNWRAP of what SEC_WRAP wrote (R275) -/

/-- SEC_UNWRAP of a wrapper of `b` under the key it was written with: the tag agrees, and the cipher gives the plaintext back. -/
theorem completesAt_secUnwrap_of_wraps {o : OpenParams} (ho : o.CipherContract) {s : State} {version : Byte} {b : List Byte}
    (h16 : 16 ≤ b.length) (hkey : s.keyctl.getLsbD 0 = true)
    (hw : Wraps (Config.paramsAt o) s.key version b s.inSample) :
    ∃ res, CompletesAt o .secUnwrap s res (b.drop 16) .authenticated := by
  have hrl := hw.requestLength
  have hlen : wireHalf s.inSample 4 ≤ s.inSample.length := by rw [hrl, hw.length]
  have hvalid : ¬ s.keyValid = false := by simpa [State.keyValid] using hkey
  have hplain : (Config.paramsAt o).secCipher s.key (slice s.inSample 8 22 ++ [0x01])
      (slice s.inSample 22 (wireHalf s.inSample 4 - 16)) = some (b.drop 16) := by
    rw [hrl, show b.length + 22 - 16 = b.length + 6 by omega, hw.frame, slice_nonce_of_fields hw.fields]
    exact ho.inverse _ _ _
  have core := unwrapCore_wrapperAt (Config.paramsAt o) s.key s.keyValid (by omega) hlen hw.requestType
  rw [if_neg hvalid, if_neg (not_not.mpr hw.tag.symm), hplain] at core
  exact ⟨_, completesAt_secUnwrap (by omega) hlen core⟩

/-- Wrapping, then unwrapping, in an engine whose cipher keeps its contract. -/
theorem wrapThenUnwrapAt {o : OpenParams} (ho : o.CipherContract) {s : State} (h16 : 16 ≤ s.inSample.length)
    (hmax : s.inSample.length ≤ 65513) (hkey : s.keyctl.getLsbD 0 = true) :
    ∃ w, CompletesAt o .secWrap s {} w .none ∧
      ∀ s' : State, s'.inSample = w → s'.key = s.key → s'.keyctl.getLsbD 0 = true →
        ∃ res, CompletesAt o .secUnwrap s' res (s.inSample.drop 16) .authenticated := by
  obtain ⟨w, hcompletes, hwraps⟩ := completesAt_secWrap h16 hmax hkey ho.encipher_length
  refine ⟨w, hcompletes, fun s' hin hkeys hkey' => ?_⟩
  rw [← hin, ← hkeys] at hwraps
  exact completesAt_secUnwrap_of_wraps ho h16 hkey' hwraps

/-- Settles O46: at any OPEN values by the contract of the cipher, which the defaults keep. -/
theorem wrapThenUnwrap : Obligations.WrapThenUnwrap := by
  intro s h16 hmax hkey
  refine ⟨?defaults, fun o ho => wrapThenUnwrapAt ho h16 hmax hkey⟩
  simpa only [completesAt_openDefaults] using wrapThenUnwrapAt openDefaults_cipherContract h16 hmax hkey

/-! ### A changed tag (R273) -/

/-- A command ends in one way: not with an error and normally. -/
theorem Raises.not_completes {i : Instr} {s : State} {e : ErrCode} {sec sec' : SecState} {res : Results} {out : List Byte}
    (hr : Raises i s e sec) : ¬ Completes i s res out sec' := by
  obtain ⟨t, ht, herr⟩ := hr
  rintro ⟨t', ht', hok⟩
  cases ht.symm.trans ht'
  have hcode := congrArg (BitVec.extractLsb' 8 8) (herr.status.symm.trans hok.status)
  rw [statusWord_errCode, statusWord_errCode] at hcode
  exact e.code_ne_zero hcode

/-- SEC_UNWRAP completes only on a wrapper whose tag agrees, with a key (R266 to R268). -/
theorem accepted_of_completes_secUnwrap {s : State} {res : Results} {out : List Byte} {sec : SecState}
    (h : Completes .secUnwrap s res out sec) :
    ¬ HeaderBad s.inSample ∧ wireHalf s.inSample 2 = 0x0950 ∧ wrapperMac s.key s.inSample = storedMac s.inSample := by
  obtain ⟨short, other, wrapper⟩ := secUnwrapVerifiesThenDecrypts s
  have hgood : ¬ HeaderBad s.inSample := fun hbad => (short hbad).not_completes h
  have hr : wireHalf s.inSample 2 = 0x0950 := by_contra fun hr => (other hgood hr).not_completes h
  obtain ⟨noKey, wrongTag, -⟩ := wrapper hgood hr
  refine ⟨hgood, hr, by_contra fun hmac => ?_⟩
  cases hkey : s.keyctl.getLsbD 0 with
  | false => exact (noKey hkey).not_completes h
  | true => exact (wrongTag hkey hmac).not_completes h

/-- A wrapper's length checks, its type and the tag it must carry read no byte of its cmac field (R206, R268). -/
theorem wrapper_congr_outside_cmac {b b' : List Byte} (hgood : ¬ HeaderBad b) (hr : wireHalf b 2 = 0x0950)
    (hlen : b'.length = b.length) (hsame : ∀ i, i < wireHalf b 4 - 16 → b'.getD i 0 = b.getD i 0) :
    ¬ HeaderBad b' ∧ wireHalf b' 2 = 0x0950 ∧ wireHalf b' 4 = wireHalf b 4 ∧
      ∀ key, wrapperMac key b' = wrapperMac key b := by
  have h38 : 38 ≤ wireHalf b 4 := by
    simp only [HeaderBad, not_or] at hgood
    omega
  have hhalf (i : Nat) (hi : i ≤ 4) : wireHalf b' i = wireHalf b i := by
    rw [wireHalf, wireHalf, hsame i (by omega), hsame (i + 1) (by omega)]
  have hslice (i j : Nat) (hj : j ≤ wireHalf b 4 - 16) : slice b' i j = slice b i j :=
    slice_congr hlen fun k _ hk => hsame k (by omega)
  refine ⟨?_, (hhalf 2 (by omega)).trans hr, hhalf 4 le_rfl, fun key => ?_⟩
  · rwa [HeaderBad, hhalf 2 (by omega), hhalf 4 le_rfl, hlen]
  · rw [wrapperMac, wrapperMac, hhalf 4 le_rfl, hslice 8 22 (by omega), hslice 22 _ le_rfl]

/-- Settles O47: the tag asked for is as before, and the tag carried is not. -/
theorem tamperedTagIsRejected : Obligations.TamperedTagIsRejected := by
  intro s s' res out haccepts hkeys hkey hlen hsame ⟨i, hi, hlt, hne⟩
  obtain ⟨hgood, hr, hmac⟩ := accepted_of_completes_secUnwrap haccepts
  obtain ⟨hgood', hr', hrl, hasked⟩ := wrapper_congr_outside_cmac hgood hr hlen fun i hi => hsame i (.inl hi)
  obtain ⟨-, wrongTag, -⟩ := (secUnwrapVerifiesThenDecrypts s').2.2 hgood' hr'
  refine wrongTag hkey fun htag => hne ?_
  rw [hasked, hkeys, hmac, storedMac, storedMac, hrl] at htag
  exact getD_eq_of_slice_eq htag.symm hi hlt

/-! ### What a rejected command shows (R263, R274) -/

theorem SecState.code_eq_three_iff {x : SecState} : x.code = 3 ↔ x = .rejected := by
  cases x <;> decide

theorem ErrCode.code_eq_six_iff {e : ErrCode} : e.code = 6 ↔ e = .authentication := by
  cases e <;> decide

/-- A rule leaves REJECTED exactly with AuthenticationError (R263). -/
theorem ruleOf_rejected_iff {i : Instr} {s : State} {e : Raised} (h : ruleOf i s = .error e) :
    e.sec = .rejected ↔ e.err = .authentication := by
  rcases ruleOf_error h with ⟨rfl, -⟩ | ⟨hnone, hauth, -⟩ | ⟨-, rfl | rfl | ⟨hsec, hauth, -⟩⟩
  case inr.inl => simp [hnone, hauth]
  case inr.inr.inr.inr => simp [hsec, hauth]
  all_goals decide

/-- A normal end is not REJECTED (R262). -/
theorem ruleOf_ok_not_rejected {i : Instr} {s : State} {d : Done} (h : ruleOf i s = .ok d) : d.sec ≠ .rejected := by
  rcases (ruleOf_ok h).1 with hsec | ⟨-, hsec⟩ <;> simp [hsec]

/-- A cleared result block holds 0 in every register (R403). -/
theorem Results.get_empty (k : Nat) : Results.get {} k = 0 := by
  unfold Results.get
  split <;> rfl

/-- Settles O48: by the end of the command's rule; an error end shows nothing. -/
theorem rejectedShowsNothing : Obligations.RejectedShowsNothing := by
  intro i s t ht
  rw [exec_eq] at ht
  cases ht
  have hiff : (s.finish (ruleOf i s)).secState = 3 ↔ (s.finish (ruleOf i s)).errCode = 6 := by
    cases hr : ruleOf i s with
    | ok d =>
      rw [State.finish_ok, State.normalEnd_secState, State.normalEnd_errCode, SecState.code_eq_three_iff]
      exact iff_of_false (ruleOf_ok_not_rejected hr) (by decide)
    | error e =>
      rw [State.finish_error, State.errorEnd_secState, State.errorEnd_errCode, SecState.code_eq_three_iff,
        ErrCode.code_eq_six_iff]
      exact ruleOf_rejected_iff hr
  refine ⟨hiff, fun hrejected => ?_⟩
  obtain ⟨hres, hlen, hout⟩ := s.finish_shows_nothing (ruleOf i s) (by rw [hiff.mp hrejected]; decide)
  exact ⟨fun k => by rw [hres, Results.get_empty], hlen, hout⟩

end Sys2Proof.Machine

/-! DPT 9.001 as commands: DPT_DECODE and DPT_ENCODE with their checks in order, the round trip, and which pairs of bytes are the
encoder's own (46_datapoint.md R290 to R297). -/

namespace Sys2Proof.Machine

/-! ### The commands (R290, R294, R295) -/

/-- The registry holds 9.001 alone (R290). -/
theorem dptRegistry_contains_eq_false_iff (id : Word) :
    Config.params.dptRegistry.contains id = false ↔ id ≠ 0x00090001 := by
  simp [Config.params, Config.paramsAt]

/-- DPT_DECODE checks the id before the length (R294). -/
theorem raises_dptDecode_unknown {s : State} (hid : s.arg0 ≠ 0x00090001) : Raises .dptDecode s .unknownDatapoint .none :=
  raises_of_rule (i := .dptDecode) (if_pos ((dptRegistry_contains_eq_false_iff _).mpr hid))

theorem raises_dptDecode_short {s : State} (hid : s.arg0 = 0x00090001) (hlen : s.inSample.length < 2) :
    Raises .dptDecode s .frameTruncated .none := by
  have known := mt (dptRegistry_contains_eq_false_iff s.arg0).mp (not_not.mpr hid)
  exact raises_of_rule (i := .dptDecode) ((if_neg known).trans (if_pos hlen))

/-- DPT_DECODE completes with the value and the fields of the first two bytes (R294). -/
theorem completes_dptDecode {s : State} {d : Dpt9} (hid : s.arg0 = 0x00090001) (hlen : 2 ≤ s.inSample.length)
    (hd : Dpt9.ofBytes (s.inSample.getD 0 0) (s.inSample.getD 1 0) = d) :
    Completes .dptDecode s { r0 := BitVec.ofInt 32 d.value, r1 := d.word } [] .none := by
  subst hd
  have known := mt (dptRegistry_contains_eq_false_iff s.arg0).mp (not_not.mpr hid)
  exact completes_of_rule (i := .dptDecode) ((if_neg known).trans (if_neg (Nat.not_lt.mpr hlen))) rfl rfl rfl

/-- DPT_ENCODE checks the id before the value (R295). -/
theorem raises_dptEncode_unknown {s : State} (hid : s.arg0 ≠ 0x00090001) : Raises .dptEncode s .unknownDatapoint .none :=
  raises_of_rule (i := .dptEncode) (if_pos ((dptRegistry_contains_eq_false_iff _).mpr hid))

theorem ruleOf_dptEncode_known {s : State} (hid : s.arg0 = 0x00090001) :
    ruleOf .dptEncode s =
      match dpt9Encode s.arg1.toInt with
      | .ok d => .ok { res := { r1 := d.word }, out := d.bytes }
      | .error e => .error ⟨e, .none⟩ :=
  if_neg (mt (dptRegistry_contains_eq_false_iff s.arg0).mp (not_not.mpr hid))

theorem raises_dptEncode_range {s : State} (hid : s.arg0 = 0x00090001)
    (h : s.arg1.toInt < -27300 ∨ 67076000 < s.arg1.toInt) : Raises .dptEncode s .range .none :=
  raises_of_rule (by rw [ruleOf_dptEncode_known hid, dpt9Encode_range h])

/-- DPT_ENCODE completes with the fields and the bytes that Dpt9Encode answers (R295). -/
theorem completes_dptEncode {s : State} {d : Dpt9} (hid : s.arg0 = 0x00090001) (hd : dpt9Encode s.arg1.toInt = .ok d) :
    Completes .dptEncode s { r1 := d.word } d.bytes .none :=
  completes_of_rule (by rw [ruleOf_dptEncode_known hid, hd]) rfl rfl rfl

/-! ### The least exponent (R293) -/

/-- The exponents at which `v`, halved with floor, fits the mantissa and its sign (R293). -/
def fittingExponents (v : Int) : Set Nat := {e | Dpt9.Fits (v / 2 ^ e)}

/-- In range Dpt9Encode answers the fields at the least exponent at which the value fits (`dpt9Encode_ok`). -/
theorem dpt9Encode_least {v : Int} (h1 : -27300 ≤ v) (h2 : v ≤ 67076000) :
    ∃ e ≤ 15, IsLeast (fittingExponents v) e ∧ dpt9Encode v = .ok (dpt9Fields (v / 2 ^ e) e) := by
  obtain ⟨e, he, hfits, hmin, henc⟩ := dpt9Encode_ok h1 h2
  exact ⟨e, he, ⟨hfits, fun k hk => Nat.le_of_not_lt fun hlt => hmin k hlt hk⟩, henc⟩

/-- Dpt9Encode answers fields for the values in range alone (R293). -/
theorem range_of_dpt9Encode_ok {v : Int} {d : Dpt9} (h : dpt9Encode v = .ok d) : -27300 ≤ v ∧ v ≤ 67076000 := by
  by_contra hout
  rw [dpt9Encode_range (by omega)] at h
  cases h

theorem ediv_two_pow_succ (v : Int) (k : Nat) : v / 2 ^ (k + 1) = v / 2 ^ k / 2 := by
  rw [pow_succ, Int.ediv_ediv_of_nonneg (by positivity)]

/-- Halving a value that fits leaves one that fits. -/
theorem fittingExponents_of_le {v : Int} {k e : Nat} (hk : k ∈ fittingExponents v) (hle : k ≤ e) : e ∈ fittingExponents v := by
  induction e, hle using Nat.le_induction with
  | base => exact hk
  | succ n _ ih =>
    obtain ⟨hlo, hhi⟩ : Dpt9.Fits (v / 2 ^ n) := ih
    change Dpt9.Fits (v / 2 ^ (n + 1))
    rw [ediv_two_pow_succ]
    constructor <;> omega

/-- Flooring a value to a multiple of its power of two keeps its least exponent: one halving earlier the two stand at `2 * r + 1` or
`2 * r` and at `2 * r`, and both bounds are even. -/
theorem isLeast_fittingExponents_floor {v : Int} {e : Nat} (h : IsLeast (fittingExponents v) e) :
    IsLeast (fittingExponents (v / 2 ^ e * 2 ^ e)) e := by
  have hpow (k : Nat) : (2 ^ k : Int) ≠ 0 := by positivity
  obtain ⟨hfits, hmin⟩ := h
  refine ⟨?fits, fun k hk => Nat.le_of_not_lt fun hlt => ?least⟩
  case fits =>
    change Dpt9.Fits (v / 2 ^ e * 2 ^ e / 2 ^ e)
    rwa [Int.mul_ediv_cancel _ (hpow e)]
  case least =>
    obtain ⟨n, rfl⟩ : ∃ n, e = n + 1 := ⟨e - 1, by omega⟩
    have hearlier : ¬ Dpt9.Fits (v / 2 ^ n) := fun hn => absurd (hmin hn) (by omega)
    have hfloor : Dpt9.Fits (v / 2 ^ (n + 1) * 2 ^ (n + 1) / 2 ^ n) := fittingExponents_of_le hk (by omega)
    rw [pow_succ', ← mul_assoc, Int.mul_ediv_cancel _ (hpow n), ← pow_succ', ediv_two_pow_succ] at hfloor
    simp only [Dpt9.Fits] at hearlier hfloor
    omega

/-- A value within the mantissa is not halved (R293, R296). -/
theorem eq_zero_of_isLeast_fittingExponents {v : Int} {e : Nat} (h : IsLeast (fittingExponents v) e) (hv : Dpt9.Fits v) :
    e = 0 :=
  Nat.le_zero.mp (h.2 (show Dpt9.Fits (v / 2 ^ 0) by rwa [pow_zero, Int.ediv_one]))

/-- What Dpt9Encode answered it answers again for the value of its answer: flooring kept the least exponent (R296, R297). -/
theorem dpt9Encode_value_of_ok {v : Int} {d : Dpt9} (h : dpt9Encode v = .ok d) (hlo : -27300 ≤ d.value)
    (hhi : d.value ≤ 67076000) : dpt9Encode d.value = .ok d := by
  obtain ⟨h1, h2⟩ := range_of_dpt9Encode_ok h
  obtain ⟨e, he, hleast, henc⟩ := dpt9Encode_least h1 h2
  obtain rfl : dpt9Fields (v / 2 ^ e) e = d := Except.ok.inj (henc.symm.trans h)
  rw [dpt9Fields_value hleast.1 he] at hlo hhi ⊢
  obtain ⟨e', -, hleast', henc'⟩ := dpt9Encode_least hlo hhi
  obtain rfl : e' = e := hleast'.unique (isLeast_fittingExponents_floor hleast)
  rw [henc', Int.mul_ediv_cancel _ (by positivity)]

/-! ### Flooring to a multiple of a power of two (R296) -/

theorem floorMultiple_bounds (v : Int) (e : Nat) :
    v - 2 ^ e < v / 2 ^ e * 2 ^ e ∧ v / 2 ^ e * 2 ^ e ≤ v ∧ (v / 2 ^ e * 2 ^ e = v ↔ (2 ^ e : Int) ∣ v) := by
  have hpow : (0 : Int) < 2 ^ e := by positivity
  have hlt := Int.lt_ediv_add_one_mul_self v hpow
  rw [add_mul, one_mul] at hlt
  exact ⟨by omega, Int.ediv_mul_le v hpow.ne', Dvd.intro_left _, Int.ediv_mul_cancel⟩

/-! ### The obligations -/

/-- Settles O50: the checks in their order, then the fields of the two bytes as numbers. -/
theorem dptDecodeGivesTheValue : Obligations.DptDecodeGivesTheValue := by
  intro s
  refine ⟨raises_dptDecode_unknown, raises_dptDecode_short, fun hid hlen => ?_⟩
  have h0 := (s.inSample.getD 0 0).isLt
  have h1 := (s.inSample.getD 1 0).isLt
  have done := completes_dptDecode hid hlen rfl
  obtain ⟨hsign, hexp, hmant⟩ := Dpt9.ofBytes_eq (s.inSample.getD 0 0) (s.inSample.getD 1 0)
  have hwire : (s.inSample.getD 0 0).toNat % 8 * 256 + (s.inSample.getD 1 0).toNat = wireHalf s.inSample 0 % 2048 := by
    rw [wireHalf, Nat.zero_add]
    omega
  have hneg : (s.inSample.getD 0 0).toNat / 128 = 1 ↔ 128 ≤ (s.inSample.getD 0 0).toNat := by omega
  rw [Dpt9.value_eq, Dpt9.word_eq, hsign, hexp, hmant, hwire] at done
  simpa only [hneg] using done

/-- Settles O51: the checks in their order, then the fields at the least exponent as numbers. -/
theorem dptEncodeGivesTheBytes : Obligations.DptEncodeGivesTheBytes := by
  intro s v
  refine ⟨raises_dptEncode_unknown, raises_dptEncode_range, fun hid hlo hhi => ?_⟩
  obtain ⟨e, he, ⟨hfits, hleast⟩, henc⟩ := dpt9Encode_least hlo hhi
  have hearlier (k : Nat) (hk : k < e) : v / 2 ^ k < -2048 ∨ 2047 < v / 2 ^ k := by
    by_contra hfit
    have hk' : Dpt9.Fits (v / 2 ^ k) := by constructor <;> omega
    exact absurd (hleast hk') (by omega)
  have hsign : v / 2 ^ e < 0 ↔ v < 0 := by
    rw [← not_le, ← not_le, Int.ediv_nonneg_iff_of_pos (by positivity)]
  have done := completes_dptEncode hid henc
  obtain ⟨hs, hx, hm⟩ := dpt9Fields_eq hfits he
  rw [Dpt9.word_eq, Dpt9.bytes_eq, hs, hx, hm] at done
  exact ⟨e, he, hfits.1, hfits.2, hearlier, by simpa only [hsign] using done⟩

/-- Settles O52: the bytes read back as the fields at the least exponent, whose value is the floor to a multiple of its power. -/
theorem dptRoundTrip : Obligations.DptRoundTrip := by
  intro s hid v
  refine ⟨raises_dptEncode_range hid, fun hlo hhi => ?_⟩
  obtain ⟨e, he, hleast, henc⟩ := dpt9Encode_least hlo hhi
  generalize hd : dpt9Fields (v / 2 ^ e) e = d at henc
  have hexp : (d.bytes.getD 0 0).toNat / 8 % 16 = e := by
    rw [← (Dpt9.ofBytes_eq _ (d.bytes.getD 1 0)).2.1, Dpt9.ofBytes_bytes, ← hd, (dpt9Fields_eq hleast.1 he).2.1]
  have hvalue : d.value = v / 2 ^ e * 2 ^ e := by rw [← hd, dpt9Fields_value hleast.1 he]
  obtain ⟨habove, hbelow, hexact⟩ := floorMultiple_bounds v e
  refine ⟨_, d.bytes, completes_dptEncode hid henc, ?_⟩
  simp only [hexp]
  refine ⟨fun s' hid' hin => ⟨d.word, ?_⟩, habove, hbelow, hexact, fun hmin hmax => ?_⟩
  · rw [← hvalue]
    exact completes_dptDecode hid' (by rw [hin]; exact le_rfl) (by rw [hin, Dpt9.ofBytes_bytes])
  · rw [eq_zero_of_isLeast_fittingExponents hleast ⟨hmin, hmax⟩, pow_zero, Int.ediv_one, mul_one]

/-- Settles O53: a pair the encoder produces is the bytes of its fields, and those encode back; the example by evaluation. -/
theorem dptNormalForm : Obligations.DptNormalForm := by
  refine ⟨?pairs, ⟨0, 0, 2⟩, by decide, by decide⟩
  intro b0 b1 v hhi hlo
  obtain ⟨e, -, -, henc⟩ := dpt9Encode_least hlo hhi
  refine ⟨_, henc, fun hsame => ⟨v, _, henc, hsame⟩, ?_⟩
  rintro ⟨v', d, hd, hbytes⟩
  have hfields : Dpt9.ofBytes b0 b1 = d := by simpa [hbytes] using Dpt9.ofBytes_bytes d
  have hagain : dpt9Encode v = .ok d := by
    simp only [v, hfields] at hlo hhi ⊢
    exact dpt9Encode_value_of_ok hd hlo hhi
  rw [Except.ok.inj (henc.symm.trans hagain), hbytes]

end Sys2Proof.Machine

/-! The datagram commands: the bytes a builder writes, and DECODE of every datagram, by its type (47_datagram.md R310 to R318). -/

namespace Sys2Proof.Machine

/-! ### The frame a builder writes (R310, R316) -/

/-- What the data packs to under a base code, in the spec's terms: the bytes that trail, the code, and the byte that rides in
data6, if one does (R147). -/
theorem packData_of_base {code : BitVec 10} (hc : code.toNat ≤ 15) (d : List Byte) :
    trailingData (packData code d) d = trailingBytes d ∧ (packData code d).apci.toNat = code.toNat ∧
      (packData code d).f6.toNat = if 0 < d.length ∧ (d.headD 0).toNat ≤ 63 then (d.headD 0).toNat else 0 := by
  have hlow : (code.setWidth 4 : BitVec 4).toNat = code.toNat := by
    rw [BitVec.toNat_setWidth, Nat.mod_eq_of_lt (by omega)]
  by_cases hcarry : 0 < d.length ∧ (d.headD 0).toNat ≤ 63
  case pos =>
    obtain ⟨hdata, hbyte⟩ := hcarry
    rw [packData_carried hc (List.length_pos_iff.mp hdata) hbyte, trailingBytes, if_pos ⟨hdata, hbyte⟩, if_pos ⟨hdata, hbyte⟩]
    refine ⟨rfl, hlow, ?_⟩
    rw [BitVec.toNat_setWidth, Nat.mod_eq_of_lt (by omega)]
  case neg =>
    have hall : d = [] ∨ 63 < (d.headD 0).toNat := by
      rwa [not_and_or, List.length_pos_iff, not_not, not_le] at hcarry
    rw [packData_base hc hall, trailingBytes, if_neg hcarry, if_neg hcarry]
    exact ⟨rfl, hlow, rfl⟩

/-- The APDU word of a builder's code: its first byte is 0, its second holds the code's low bits and data6 (R147, R310). -/
theorem be16_apduWord_builderFields (s : State) (a : Address) {code : BitVec 10} (hc : code.toNat < 4) (d : List Byte) :
    be16 (apduWord (builderFields s a code) (packData code d)) = [0x00, packedLow code.toNat d] := by
  obtain ⟨-, hapci, hf6⟩ := packData_of_base (code := code) (by omega) d
  have hsix := (packData code d).f6.isLt
  have hzero : (64 * code.toNat + (packData code d).f6.toNat) / 256 = 0 := by omega
  have hword : apduWord (builderFields s a code) (packData code d) =
      BitVec.ofNat 16 (64 * code.toNat + (packData code d).f6.toNat) := by
    rw [apduWord_eq, hapci]
    simp [builderFields]
  rw [hword, be16_ofNat, hzero, packedLow, hf6]
  rfl

/-- Field `lo + w - 1 : lo` of OPT as a number (R24). -/
def optField (s : State) (lo w : Nat) : Nat := s.opt.toNat / 2 ^ lo % 2 ^ w

/-- Control field 1 of a builder: a standard frame with the options of OPT (R172, R310). -/
theorem ctrl1_builderFields (s : State) (a : Address) (code : BitVec 10) :
    ctrl1 (builderFields s a code) =
      BitVec.ofNat 8 (128 + 32 * optField s 2 1 + 16 * optField s 3 1 + 4 * optField s 0 2) := by
  rw [ctrl1_eq]
  simp only [builderFields, State.optNoRepeat, State.optBroadcast, State.optPriority, extractLsb'_toNat_eq]
  rfl

/-- Control field 2 of a builder: the group bit of the address and the hop count of OPT (R173, R310). -/
theorem ctrl2_builderFields (s : State) (a : Address) (code : BitVec 10) :
    ctrl2 (builderFields s a code) =
      BitVec.ofNat 8 ((if a.family.code.toNat = 0 then 0 else 128) + 16 * optField s 4 3) := by
  have hgroup : 128 * (bit a.family.isGroup).toNat = if a.family.code.toNat = 0 then 0 else 128 := by
    cases a.family <;> rfl
  rw [ctrl2_eq]
  simp only [builderFields, State.optHopCount, extractLsb'_toNat_eq, hgroup]
  rfl

theorem builderFields_src (s : State) (a : Address) (code : BitVec 10) :
    (builderFields s a code).src = BitVec.ofNat 16 s.src.toNat := by
  apply BitVec.eq_of_toNat_eq
  simp [builderFields, State.srcAddress]

/-- The datagram of a builder's frame, in the spec's numbers (R310, R316). -/
theorem plainDatagram_encodedFrame (s : State) (a : Address) {code : BitVec 10} (hc : code.toNat < 4) (d : List Byte) :
    plainDatagram Config.params (encodedFrame (builderFields s a code) (packData code d) d) =
      builtDatagram s a.value.toNat a.family.code.toNat code.toNat d := by
  obtain ⟨htrail, -⟩ := packData_of_base (code := code) (by omega) d
  have hlen : 6 + (encodedFrame (builderFields s a code) (packData code d) d).length = 17 + (trailingBytes d).length := by
    rw [encodedFrame_length, htrail]
    omega
  have hmsg : (builderFields s a code).msg = BitVec.ofNat 8 (optField s 8 8) := extractLsb'_eq_ofNat 8 8 s.opt
  have hdst : (builderFields s a code).dst = BitVec.ofNat 16 a.value.toNat := by
    rw [BitVec.ofNat_toNat, BitVec.setWidth_eq]
    rfl
  rw [plainDatagram, hlen, encodedFrame, be16_apduWord_builderFields s a hc, htrail, ctrl1_builderFields, ctrl2_builderFields,
    builderFields_src, hmsg, hdst]
  simp only [builtDatagram, List.append_assoc]
  rfl

/-! ### The builders (R311, R313 to R316) -/

/-- FORM_INT takes the address from ARG0, and all of IN is data (R311). -/
theorem builderInputs_int (hint : Family) (imm : Half) (s : State) :
    builderInputs .int hint imm s = (parseAddress .int hint s.arg0 []).map fun a => (a, s.inSample) := by
  rw [builderInputs]
  cases parseAddress .int hint s.arg0 [] <;> rfl

/-- Every other form takes the address from the first bytes of IN, and the rest is data (R311). -/
theorem builderInputs_string {f : Form} (hf : f ≠ .int) (hint : Family) (imm : Half) (s : State) :
    builderInputs f hint imm s =
      if s.inSample.length < imm.toNat then .error .frameTruncated
      else (parseAddress f hint 0 (s.inSample.take imm.toNat)).map fun a => (a, s.inSample.drop imm.toNat) := by
  rw [builderInputs]
  · cases parseAddress f hint 0 (s.inSample.take imm.toNat) <;> rfl
  · exact hf

/-- A builder is well-formed by its FORM and HINT, and its rule is Build with a code of its own (R92, R313 to R315). -/
theorem builder_rule {form hint : BitVec 2} {imm : Half} {i : Instr}
    (hi : i ∈ [Instr.buildAction form hint imm, .buildStatus form hint imm, .buildResponse form hint imm]) :
    i.wellFormed = (form != 3 && hint != 3) ∧
      ∃ code useData, ∀ s, ruleOf i s = build Config.params code useData form hint imm s := by
  simp only [List.mem_cons, List.not_mem_nil, or_false] at hi
  rcases hi with rfl | rfl | rfl
  exacts [⟨rfl, 2, true, fun _ => rfl⟩, ⟨rfl, 0, false, fun _ => rfl⟩, ⟨rfl, 1, true, fun _ => rfl⟩]

/-- Build ends with the error of its inputs (R311, R316). -/
theorem build_error_of_inputs {form hint : BitVec 2} {f : Form} {fam : Family} {imm : Half} {s : State} {e : ErrCode}
    (P : Params) (code : BitVec 10) (useData : Bool) (hf : formOperand form = some f) (hh : hintOperand hint = some fam)
    (h : builderInputs f fam imm s = .error e) : build P code useData form hint imm s = .error ⟨e, .none⟩ := by
  simp only [build, hf, hh, h]

/-- Build of an address and data that fit a frame: its datagram and the address word (R316). -/
theorem build_of_inputs {form hint : BitVec 2} {f : Form} {fam : Family} {imm : Half} {s : State} {a : Address} {d : List Byte}
    {code : BitVec 10} {useData : Bool} (hc : code.toNat < 4) (hf : formOperand form = some f)
    (hh : hintOperand hint = some fam) (h : builderInputs f fam imm s = .ok (a, d))
    (hlen : (if useData then d else []).length ≤ 255) :
    build Config.params code useData form hint imm s =
      .ok
        { res := { r0 := addrWord a }
          out := builtDatagram s a.value.toNat a.family.code.toNat code.toNat (if useData then d else []) } := by
  rw [← plainDatagram_encodedFrame s a hc]
  simp only [build, hf, hh, h, cemiEncodeFrame_eq (P := Config.params) hlen]
  rfl

/-- Build of more data than a frame carries (R174, R316). -/
theorem build_long {form hint : BitVec 2} {f : Form} {fam : Family} {imm : Half} {s : State} {a : Address} {d : List Byte}
    (code : BitVec 10) (hf : formOperand form = some f) (hh : hintOperand hint = some fam)
    (h : builderInputs f fam imm s = .ok (a, d)) (hlen : 255 < d.length) :
    build Config.params code true form hint imm s = .error ⟨.encodeLength, .none⟩ := by
  simp only [build, hf, hh, h, if_true, cemiEncodeFrame_long (P := Config.params) hlen]

/-- The address `v` of family `fam` and the data `d` that a builder reads from ARG0 and IN (R311, R117). -/
def BuilderReads (form hint : BitVec 2) (imm : Half) (s : State) (v fam raw : Nat) (d : List Byte) : Prop :=
  (form = 0 ∧ ParsesTo 0 hint s.arg0.toNat [] v fam raw ∧ d = s.inSample) ∨
    (form ≠ 0 ∧ imm.toNat ≤ s.inSample.length ∧ ParsesTo form hint 0 (s.inSample.take imm.toNat) v fam raw ∧
      d = s.inSample.drop imm.toNat)

theorem formOperand_string {form : BitVec 2} (h : form = 1 ∨ form = 2) : ∃ f, formOperand form = some f ∧ f ≠ .int := by
  rcases h with rfl | rfl
  · exact ⟨.bytes, rfl, by decide⟩
  · exact ⟨.str, rfl, by decide⟩

/-- An address that R117's relation gives is of a legal FORM. -/
theorem ParsesTo.form_le_two {form hint : BitVec 2} {n : Nat} {str : List Byte} {v fam raw : Nat}
    (h : ParsesTo form hint n str v fam raw) : form = 0 ∨ form = 1 ∨ form = 2 := by
  rcases h with ⟨rfl, -⟩ | ⟨rfl, -⟩ | ⟨rfl, -⟩ | ⟨rfl, -⟩ <;> decide

/-- What a builder reads is what its two operands come to (R311). -/
theorem BuilderReads.builderInputs_eq {form hint : BitVec 2} {imm : Half} {s : State} {v fam raw : Nat} {d : List Byte}
    {family : Family} (hh : family.code.toNat = hintFamily hint) (h : BuilderReads form hint imm s v fam raw d) :
    ∃ f a, formOperand form = some f ∧ builderInputs f family imm s = .ok (a, d) ∧ a.value.toNat = v ∧
      a.family.code.toNat = fam ∧ addrWord a = addressWord v fam raw := by
  rcases h with ⟨rfl, hparse, rfl⟩ | ⟨hform, himm, hparse, rfl⟩
  · obtain ⟨a, ha, hv, hfam, hraw⟩ := parseAddress_of_parsesTo formOperand_zero hh hparse
    exact ⟨.int, a, rfl, by rw [builderInputs_int, ha]; rfl, hv, hfam, addrWord_of hv hfam hraw⟩
  · obtain ⟨f, hf, hne⟩ := formOperand_string (hparse.form_le_two.resolve_left hform)
    obtain ⟨a, ha, hv, hfam, hraw⟩ := parseAddress_of_parsesTo (n := 0) hf hh hparse
    have hin : builderInputs f family imm s = .ok (a, s.inSample.drop imm.toNat) := by
      rw [builderInputs_string hne, if_neg (Nat.not_lt.mpr himm), ha]
      rfl
    exact ⟨f, a, hf, hin, hv, hfam, addrWord_of hv hfam hraw⟩

/-- Settles O54: Build with each command's code, on what the builder reads. -/
theorem buildersWriteTheDatagram : Obligations.BuildersWriteTheDatagram := by
  intro form hint imm s v fam raw d hhint (hreads : BuilderReads form hint imm s v fam raw d)
  obtain ⟨family, hh, hfamily⟩ := hintOperand_legal hhint
  obtain ⟨f, a, hf, hin, rfl, rfl, hword⟩ := hreads.builderInputs_eq hfamily
  rw [← hword]
  refine ⟨?status, fun hlen => ⟨?action, ?response⟩, fun hlen => ⟨?longAction, ?longResponse⟩⟩
  case status =>
    have hnone : (if false then d else []).length ≤ 255 := Nat.zero_le _
    exact completes_of_rule (build_of_inputs (code := 0) (by decide) hf hh hin hnone) rfl rfl rfl
  case action =>
    exact completes_of_rule (build_of_inputs (code := 2) (useData := true) (by decide) hf hh hin hlen) rfl rfl rfl
  case response =>
    exact completes_of_rule (build_of_inputs (code := 1) (useData := true) (by decide) hf hh hin hlen) rfl rfl rfl
  case longAction => exact raises_of_rule (build_long 2 hf hh hin hlen)
  case longResponse => exact raises_of_rule (build_long 1 hf hh hin hlen)

/-- Settles O55: Build's checks in their order, whichever builder it is. -/
theorem buildersCheckInOrder : Obligations.BuildersCheckInOrder := by
  intro form hint imm s i hi
  obtain ⟨hwf, code, useData, hrule⟩ := builder_rule hi
  have raises_of_inputs : ∀ {f : Form} {fam : Family} {e : ErrCode}, formOperand form = some f → hintOperand hint = some fam →
      builderInputs f fam imm s = .error e → Raises i s e .none := fun hf hh he =>
    raises_of_rule ((hrule s).trans (build_error_of_inputs _ code useData hf hh he))
  refine ⟨fun hillegal => ?illegal, fun hform hhint hshort => ?short, fun hform hhint himm hnone => ?address,
    fun hform hhint hbig => ?integer⟩
  case illegal =>
    have hbad : i.wellFormed = false := by
      rw [hwf]
      rcases hillegal with rfl | rfl <;> simp
    exact raises_of_rule (ruleOf_illFormed hbad s)
  all_goals obtain ⟨fam, hh, hfam⟩ := hintOperand_legal hhint
  case short =>
    obtain ⟨f, hf, hne⟩ := formOperand_string hform
    exact raises_of_inputs hf hh (by rw [builderInputs_string hne, if_pos hshort])
  case address =>
    obtain ⟨f, hf, hne⟩ := formOperand_string hform
    have hparse : parseAddress f fam 0 (s.inSample.take imm.toNat) = .error .addressFormat :=
      (parseAddress_cases _ _ _ _).resolve_right fun ⟨a, ha⟩ => hnone ⟨_, _, _, parsesTo_of_parseAddress hf hfam ha⟩
    exact raises_of_inputs hf hh (by rw [builderInputs_string hne, if_neg (Nat.not_lt.mpr himm), hparse]; rfl)
  case integer =>
    subst hform
    have hparse : parseAddress .int fam s.arg0 [] = .error .addressFormat := if_pos hbig
    exact raises_of_inputs formOperand_zero hh (by rw [builderInputs_int, hparse]; rfl)

/-! ### DECODE of a datagram with no secure tail (R317, R318) -/

/-- The session set at the defaults of R6, as numbers (R318). -/
theorem headerOf_rt_mem_session_iff (b : List Byte) (t : Tail) :
    (headerOf b t).rt ∈ Config.params.reqSessionSet ↔ 0x0951 ≤ wireHalf b 2 ∧ wireHalf b 2 ≤ 0x0954 := by
  simp only [params_reqSessionSet, List.mem_cons, List.not_mem_nil, or_false, ← BitVec.toNat_inj, headerOf_rt_toNat,
    BitVec.ofNat_eq_ofNat, BitVec.toNat_ofNat]
  omega

theorem headerOf_rt_not_mem_session {b : List Byte} (t : Tail) (h : wireHalf b 2 < 0x0950 ∨ 0x0955 < wireHalf b 2) :
    (headerOf b t).rt ∉ Config.params.reqSessionSet := by
  rw [headerOf_rt_mem_session_iff]
  omega

theorem ruleOf_decode_plain {s : State} (hgood : ¬ HeaderBad s.inSample) (hw : wireHalf s.inSample 2 ≠ 0x0950)
    (ht : wireHalf s.inSample 2 ≠ 0x0955) :
    ruleOf .decode s = decodePlain Config.params s (headerOf s.inSample .plain) := by
  simp only [ruleOf, decodeDatagram, hdrDecodeBytes_plain hgood hw ht, headerOf_tail]

/-- DECODE completes with the header words, the CEMI block, the display word and the data of a plain datagram's frame. -/
theorem completes_decode_plain {s : State} {fr : CemiFrame} (hgood : ¬ HeaderBad s.inSample)
    (htype : wireHalf s.inSample 2 < 0x0950 ∨ 0x0955 < wireHalf s.inSample 2)
    (h : cemiDecodeFrame (slice s.inSample 6 (wireHalf s.inSample 4)) = .ok fr) :
    Completes .decode s
      (writeCemiBlock 3 fr { r0 := headerRes0 s.inSample, r1 := headerRes1 s.inSample 0 0, r11 := displayWord s fr }) fr.data
      .none := by
  have hrule := ruleOf_decode_plain hgood (by omega) (by omega)
  simp only [decodePlain, if_neg (headerOf_rt_not_mem_session .plain htype), headerOf_payload, h, headerWord0_headerOf,
    routeWord_headerOf] at hrule
  exact completes_of_rule hrule rfl rfl rfl

theorem raises_decode_bad {s : State} (h : HeaderBad s.inSample) : Raises .decode s .headerLength .none :=
  raises_of_rule (by simp only [ruleOf, decodeDatagram, hdrDecodeBytes_bad h])

/-- DECODE of a plain datagram whose payload is no CEMI frame. -/
theorem raises_decode_plain {s : State} (hgood : ¬ HeaderBad s.inSample)
    (htype : wireHalf s.inSample 2 < 0x0950 ∨ 0x0955 < wireHalf s.inSample 2)
    (h : FrameBad (slice s.inSample 6 (wireHalf s.inSample 4))) : Raises .decode s .frameTruncated .none := by
  have hrule := ruleOf_decode_plain hgood (by omega) (by omega)
  simp only [decodePlain, if_neg (headerOf_rt_not_mem_session .plain htype), headerOf_payload, cemiDecodeFrame_bad h] at hrule
  exact raises_of_rule hrule

/-- The display word of a decoded frame, in numbers (R318). -/
theorem displayWord_frameOf (s : State) (f : List Byte) (u : Unpacked) : displayWord s (frameOf f u) = displayRes s f := by
  have hbyte := (f.getD 3 0).isLt
  have hgroup : (frameOf f u).isGroup = 0 ↔ (f.getD 3 0).toNat < 128 := by
    have hbit : (frameOf f u).isGroup = (f.getD 3 0).extractLsb' 7 1 := rfl
    rw [hbit, ← BitVec.toNat_inj, extractLsb'_toNat_eq, show (0 : BitVec 1).toNat = 0 from rfl]
    omega
  have hfmt : (destFmt s (frameOf f u)).toNat =
      if (f.getD 3 0).toNat < 128 then 0 else if s.opt.getLsbD 7 then 2 else 1 := by
    by_cases hlow : (f.getD 3 0).toNat < 128
    · rw [destFmt, if_pos (hgroup.mpr hlow), if_pos hlow]
      rfl
    · rw [destFmt, if_neg (hgroup.not.mpr hlow), if_neg hlow, State.optTwoLevelGroup]
      cases s.opt.getLsbD 7 <;> rfl
  have hlt := (destFmt s (frameOf f u)).isLt
  rw [displayWord, placeAt_eq_ofNat _ _ (by omega), ofNat_or_above _ (by omega) (by omega),
    ofNat_or_above _ (by omega) (by simp; omega), displayRes, hfmt]
  congr 1
  simp
  omega

/-- The block of DECODE for a decoded frame, in numbers (R179, R317). -/
theorem writeCemiBlock_three_frameOf (f : List Byte) (u : Unpacked) (r : Results) :
    let packed := if u.packed then 1 else 0
    writeCemiBlock 3 (frameOf f u) r =
      { r with
        r3 := cemiWord 0 f packed u.excess, r4 := cemiWord 1 f packed u.excess, r5 := cemiWord 2 f packed u.excess,
        r6 := cemiWord 3 f packed u.excess, r7 := cemiWord 4 f packed u.excess, r8 := cemiWord 5 f packed u.excess } := by
  intro packed
  rw [writeCemiBlock_three, blockWord_zero f u packed u.excess, blockWord_one f u packed u.excess, blockWord_two f u u.excess,
    blockWord_three f u packed u.excess, blockWord_four f u packed u.excess, blockWord_five f u packed]

/-- Settles O56: the length checks, then the two cases of the payload. -/
theorem decodeOfAPlainDatagram : Obligations.DecodeOfAPlainDatagram := by
  intro s b f
  refine ⟨raises_decode_bad, fun hgood htype => ⟨raises_decode_plain hgood htype, fun data packed excess hgives => ?_⟩⟩
  obtain ⟨u, hframe, rfl, rfl, rfl⟩ := cemiDecodeFrame_gives hgives
  have hdone := completes_decode_plain hgood htype hframe
  rw [writeCemiBlock_three_frameOf, displayWord_frameOf] at hdone
  exact hdone

/-! ### DECODE of a session service and of a timer notify (R317, R318) -/

/-- A session service's payload is returned unparsed (R318). -/
theorem completes_decode_session {s : State} (hgood : ¬ HeaderBad s.inSample) (hlo : 0x0951 ≤ wireHalf s.inSample 2)
    (hhi : wireHalf s.inSample 2 ≤ 0x0954) :
    Completes .decode s { r0 := headerRes0 s.inSample, r1 := headerRes1 s.inSample 0 (3 * 1048576) }
      (slice s.inSample 6 (wireHalf s.inSample 4)) .none := by
  have hsession := (headerOf_rt_mem_session_iff s.inSample .plain).mpr ⟨hlo, hhi⟩
  have hrule := ruleOf_decode_plain hgood (by omega) (by omega)
  simp only [decodePlain, if_pos hsession, headerWord0_headerOf, routeWord_headerOf] at hrule
  exact completes_of_rule hrule rfl rfl rfl

theorem ruleOf_decode_timer {s : State} (hgood : ¬ HeaderBad s.inSample) (hr : wireHalf s.inSample 2 = 0x0955) :
    ruleOf .decode s = decodeTimer Config.params s := by
  simp only [ruleOf, decodeDatagram, hdrDecodeBytes_timer hgood hr, headerOf_tail]

theorem raises_decode_timer {s : State} {e : ErrCode} {sec : SecState} (hgood : ¬ HeaderBad s.inSample)
    (hr : wireHalf s.inSample 2 = 0x0955) (h : timerCore Config.params s.key s.keyValid s.inSample = .error ⟨e, sec⟩) :
    Raises .decode s e sec :=
  raises_of_rule (by rw [ruleOf_decode_timer hgood hr, decodeTimer, h])

/-- DECODE of a timer notify that TimerCore accepts: the header words on route 2 and its bytes [6, 20). -/
theorem completes_decode_timer {s : State} (hgood : ¬ HeaderBad s.inSample) (hr : wireHalf s.inSample 2 = 0x0955)
    (h : timerCore Config.params s.key s.keyValid s.inSample =
      .ok (headerOf s.inSample (.timer (timerTail s.inSample)), timerTail s.inSample)) :
    Completes .decode s { r0 := headerRes0 s.inSample, r1 := headerRes1 s.inSample 2 (524288 + 2 * 1048576) }
      (slice s.inSample 6 20) .authenticated := by
  have hrule := ruleOf_decode_timer hgood hr
  simp only [decodeTimer, h, headerWord0_headerOf, routeWord_headerOf, timerTail_fields] at hrule
  exact completes_of_rule hrule rfl rfl rfl

/-- Settles O57: a session service by its header alone; of a timer notify each clause is one branch of TimerCore. -/
theorem decodeOfSessionAndTimer : Obligations.DecodeOfSessionAndTimer := by
  intro s b
  refine ⟨completes_decode_session, fun hgood hr => ?timer⟩
  have core := timerCore_timer s.key s.keyValid hgood hr
  refine ⟨fun hkey => ?noKey, fun hkey hmac => ?wrongTag, fun hkey hmac => ?rightTag⟩
  case noKey => exact raises_decode_timer hgood hr (core.trans (if_pos hkey))
  all_goals
    have hvalid : ¬ s.keyValid = false := by simpa [State.keyValid] using hkey
    rw [if_neg hvalid] at core
  case wrongTag => exact raises_decode_timer hgood hr (core.trans (if_pos hmac))
  case rightTag => exact completes_decode_timer hgood hr (core.trans (if_neg (not_not.mpr hmac)))

/-! ### DECODE of a secure wrapper (R317) -/

theorem ruleOf_decode_wrapper {s : State} (hgood : ¬ HeaderBad s.inSample) (hr : wireHalf s.inSample 2 = 0x0950) :
    ruleOf .decode s = decodeWrapper Config.params s := by
  simp only [ruleOf, decodeDatagram, hdrDecodeBytes_wrapper hgood hr, headerOf_tail]

/-- HdrDecode answers a header for every datagram that passes the length checks (R202). -/
theorem exists_hdrDecodeBytes_ok {b : List Byte} (h : ¬ HeaderBad b) : ∃ x, hdrDecodeBytes Config.params b = .ok x := by
  rcases hdrDecodeBytes_eq b with ⟨hbad, -⟩ | ⟨-, ⟨-, hok⟩ | ⟨-, hok⟩ | ⟨-, -, hok⟩⟩
  · exact absurd hbad h
  all_goals exact ⟨_, hok⟩

/-- The plaintext is a secure or a session service, which DECODE does not open (R317, R318). -/
theorem secureOrSession_iff {p : List Byte} {ih : Header} (h : hdrDecodeBytes Config.params p = .ok ih) :
    (ih.tail ≠ .plain ∨ ih.rt ∈ Config.params.reqSessionSet) ↔ 0x0950 ≤ wireHalf p 2 ∧ wireHalf p 2 ≤ 0x0955 := by
  obtain ⟨-, ⟨hr, rfl⟩ | ⟨hr, rfl⟩ | ⟨hw, ht, rfl⟩⟩ := hdrDecodeBytes_ok h
  · simp [hr]
  · simp [hr]
  · simp only [headerOf_tail, ne_eq, not_true_eq_false, false_or, headerOf_rt_mem_session_iff]
    omega

/-- IN is a wrapper of the plaintext `p` that carries its tag, and the key is valid: what UnwrapCore accepts (R267 to R269). -/
structure Authentic (s : State) (p : List Byte) : Prop where
  good : ¬ HeaderBad s.inSample
  type : wireHalf s.inSample 2 = 0x0950
  key : s.keyctl.getLsbD 0 = true
  tag : wrapperMac s.key s.inSample = storedMac s.inSample
  plain : wrapperPlain s.key s.inSample = p

theorem Authentic.unwrapCore_eq {s : State} {p : List Byte} (h : Authentic s p) :
    unwrapCore Config.params s.key s.keyValid s.inSample =
      .ok (headerOf s.inSample (.wrapper (wrapperTail s.inSample (wireHalf s.inSample 4))),
        wrapperTail s.inSample (wireHalf s.inSample 4), p) := by
  have hvalid : ¬ s.keyValid = false := by simpa [State.keyValid] using h.key
  rw [unwrapCore_wrapper _ _ h.good h.type, if_neg hvalid, if_neg (not_not.mpr h.tag), h.plain]

theorem raises_decode_wrapper {s : State} {e : ErrCode} {sec : SecState} (hgood : ¬ HeaderBad s.inSample)
    (hr : wireHalf s.inSample 2 = 0x0950) (h : unwrapCore Config.params s.key s.keyValid s.inSample = .error ⟨e, sec⟩) :
    Raises .decode s e sec :=
  raises_of_rule (by rw [ruleOf_decode_wrapper hgood hr, decodeWrapper, h])

/-- The plaintext fails the length checks. -/
theorem Authentic.raises_header {s : State} {p : List Byte} (h : Authentic s p) (hbad : HeaderBad p) :
    Raises .decode s .headerLength .authenticated := by
  have hrule := ruleOf_decode_wrapper h.good h.type
  simp only [decodeWrapper, h.unwrapCore_eq, hdrDecodeBytes_bad hbad] at hrule
  exact raises_of_rule hrule

/-- The plaintext is a secure or a session service. -/
theorem Authentic.raises_unsupported {s : State} {p : List Byte} (h : Authentic s p) (hgood : ¬ HeaderBad p)
    (hlo : 0x0950 ≤ wireHalf p 2) (hhi : wireHalf p 2 ≤ 0x0955) : Raises .decode s .unsupportedFrame .authenticated := by
  have hrule := ruleOf_decode_wrapper h.good h.type
  obtain ⟨ih, hih⟩ := exists_hdrDecodeBytes_ok hgood
  simp only [decodeWrapper, h.unwrapCore_eq, hih, if_pos ((secureOrSession_iff hih).mpr ⟨hlo, hhi⟩)] at hrule
  exact raises_of_rule hrule

/-- The plaintext is a plain datagram whose payload is no CEMI frame. -/
theorem Authentic.raises_frame {s : State} {p : List Byte} (h : Authentic s p) (hgood : ¬ HeaderBad p)
    (htype : wireHalf p 2 < 0x0950 ∨ 0x0955 < wireHalf p 2) (hbad : FrameBad (slice p 6 (wireHalf p 4))) :
    Raises .decode s .frameTruncated .authenticated := by
  have hih := hdrDecodeBytes_plain hgood (by omega) (by omega)
  have hplain := (not_congr (secureOrSession_iff hih)).mpr (by omega)
  have hrule := ruleOf_decode_wrapper h.good h.type
  simp only [decodeWrapper, h.unwrapCore_eq, hih, if_neg hplain, headerOf_payload, cemiDecodeFrame_bad hbad] at hrule
  exact raises_of_rule hrule

/-- The plaintext is a plain datagram: both headers, the CEMI block, the display word and the data. -/
theorem Authentic.completes {s : State} {p : List Byte} {fr : CemiFrame} (h : Authentic s p)
    (hgood : ¬ HeaderBad p) (htype : wireHalf p 2 < 0x0950 ∨ 0x0955 < wireHalf p 2)
    (hfr : cemiDecodeFrame (slice p 6 (wireHalf p 4)) = .ok fr) :
    Completes .decode s
      (writeCemiBlock 3 fr
        { r0 := headerRes0 s.inSample, r1 := headerRes1 s.inSample 1 (524288 + 1048576), r2 := headerRes2 s.inSample,
          r9 := headerRes0 p, r10 := headerRes1 p 0 0, r11 := displayWord s fr })
      fr.data .authenticated := by
  have hih := hdrDecodeBytes_plain hgood (by omega) (by omega)
  have hplain := (not_congr (secureOrSession_iff hih)).mpr (by omega)
  have hrule := ruleOf_decode_wrapper h.good h.type
  simp only [decodeWrapper, h.unwrapCore_eq, hih, if_neg hplain, headerOf_payload, hfr, headerWord0_headerOf,
    headerWord1_headerOf, routeWord_headerOf, wrapperWord_headerOf h.good h.type] at hrule
  exact completes_of_rule hrule rfl rfl rfl

/-- Settles O58: the first two clauses are branches of UnwrapCore, the others the cases of an authentic wrapper's plaintext. -/
theorem decodeOfAWrapper : Obligations.DecodeOfAWrapper := by
  intro s b p f hgood hr
  have core := unwrapCore_wrapper s.key s.keyValid hgood hr
  refine ⟨fun hkey => ?noKey, fun hkey hmac => ?wrongTag, fun hkey hmac => ?rightTag⟩
  case noKey => exact raises_decode_wrapper hgood hr (core.trans (if_pos hkey))
  case wrongTag =>
    have hvalid : ¬ s.keyValid = false := by simpa [State.keyValid] using hkey
    exact raises_decode_wrapper hgood hr (core.trans ((if_neg hvalid).trans (if_pos hmac)))
  case rightTag =>
    have authentic : Authentic s p := ⟨hgood, hr, hkey, hmac, rfl⟩
    refine ⟨authentic.raises_header, authentic.raises_unsupported, authentic.raises_frame,
      fun hplain htype data packed excess hgives => ?_⟩
    obtain ⟨u, hframe, rfl, rfl, rfl⟩ := cemiDecodeFrame_gives hgives
    have hdone := authentic.completes hplain htype hframe
    rw [writeCemiBlock_three_frameOf, displayWord_frameOf] at hdone
    exact hdone

/-! ### DECODE of what a builder wrote (R316, R317) -/

/-- A plain datagram passes the length checks, and DECODE reads its type and its frame (R202, R316). -/
theorem plainDatagram_fields {c : List Byte} (hc : c.length ≤ 65529) :
    let b := plainDatagram Config.params c
    ¬ HeaderBad b ∧ wireHalf b 2 = 0x0530 ∧ slice b 6 (wireHalf b 4) = c ∧ headerRes0 b = 0x05301006 := by
  intro b
  have hb : b = encodeHeader 0x10 0x0530 (BitVec.ofNat 16 (6 + c.length)) ++ c := rfl
  have hheader : b.take 6 = encodeHeader 0x10 0x0530 (BitVec.ofNat 16 (6 + c.length)) := by
    rw [hb, List.take_left' (encodeHeader_length _ _ _)]
  obtain ⟨htype, hrl⟩ := wireHalf_of_header hheader
  rw [BitVec.toNat_ofNat, Nat.mod_eq_of_lt (by omega)] at hrl
  change wireHalf b 2 = 0x0530 at htype
  have hlen : b.length = 6 + c.length := plainDatagram_length _ _
  refine ⟨?checks, htype, ?frame, ?word⟩
  case checks =>
    simp only [HeaderBad, htype, hrl, hlen]
    omega
  case frame =>
    rw [hrl, hb, ← List.append_nil (_ ++ c)]
    exact slice_append_mid _ _ _ (encodeHeader_length _ _ _) rfl
  case word =>
    have hversion : b.getD 0 0 = 0x06 ∧ b.getD 1 0 = 0x10 := ⟨rfl, rfl⟩
    rw [headerRes0, htype, hversion.1, hversion.2]
    rfl

/-- Source and destination in the second word of the block (R179). -/
theorem writeCemiBlock_r4 (fr : CemiFrame) (r : Results) :
    (writeCemiBlock 3 fr r).r4 = BitVec.ofNat 32 (fr.src.toNat + 65536 * fr.dst.toNat) := by
  have hsrc := fr.src.isLt
  have hr4 : (writeCemiBlock 3 fr r).r4 = placeAt 0 fr.src ||| placeAt 16 fr.dst := rfl
  rw [hr4, placeAt_eq_ofNat _ _ (by omega), ofNat_or_above _ (by omega) (by omega)]
  congr 1
  omega

/-- The group bit in the third word of the block (R179). -/
theorem writeCemiBlock_r5_group (fr : CemiFrame) (r : Results) :
    (writeCemiBlock 3 fr r).r5.getLsbD 25 = fr.isGroup.getLsbD 0 := by
  have hr5 : (writeCemiBlock 3 fr r).r5 =
      placeAt 0 fr.dl ||| placeAt 8 fr.apdu ||| placeAt 24 (bit fr.packed) ||| placeAt 25 fr.isGroup := rfl
  rw [hr5]
  simp

/-- The group bit of a frame as CemiDecode reads it back (R173). -/
theorem readBack_isGroup (f : CemiFields) (p : Packed) (d : List Byte) : (readBack f p d).isGroup = f.isGroup := by
  have hgroup : (readBack f p d).isGroup = (ctrl2 f).extractLsb' 7 1 := rfl
  rw [hgroup]
  simp (disch := omega) [ctrl2, BitVec.extractLsb'_or]

theorem exists_family {n : Nat} (h : n < 3) : ∃ f : Family, f.code.toNat = n := by
  interval_cases n
  exacts [⟨.individual, rfl⟩, ⟨.group3, rfl⟩, ⟨.group2, rfl⟩]

theorem isGroup_iff (f : Family) : (bit f.isGroup).getLsbD 0 = true ↔ f.code.toNat ≠ 0 := by
  cases f <;> decide

/-- DECODE of a builder's datagram completes with the block of the frame the builder wrote (R316, R317). -/
theorem completes_decode_builtDatagram {s s' : State} {a : Address} {code : BitVec 10} {d : List Byte} (hc : code.toNat < 4)
    (hlen : d.length ≤ 255) (hin : s'.inSample = builtDatagram s a.value.toNat a.family.code.toNat code.toNat d) :
    ∃ r : Results, r.r0 = 0x05301006 ∧
      Completes .decode s' (writeCemiBlock 3 (readBack (builderFields s a code) (packData code d) d) r) d .none := by
  rw [← plainDatagram_encodedFrame s a hc] at hin
  have hframe : (encodedFrame (builderFields s a code) (packData code d) d).length ≤ 65529 := by
    have htrailing : (trailingData (packData code d) d).length ≤ d.length := by
      unfold trailingData
      split <;> simp
    rw [encodedFrame_length]
    omega
  obtain ⟨hgood, htype, hpayload, hword⟩ := plainDatagram_fields hframe
  rw [← hin] at hgood htype hpayload hword
  have hdecode : cemiDecodeFrame (encodedFrame (builderFields s a code) (packData code d) d) =
      .ok (readBack (builderFields s a code) (packData code d) d) := cemiDecodeFrame_encodedFrame (builderFields s a code) hlen
  rw [← hpayload] at hdecode
  exact ⟨_, hword, completes_decode_plain hgood (.inl (by omega)) hdecode⟩

/-- Settles O59: the block of the frame that the builder wrote shows its addresses, its group bit and its code. -/
theorem decodeReadsBuiltDatagrams : Obligations.DecodeReadsBuiltDatagrams := by
  intro s s' v fam code d hv hfam hcode hlen hin
  obtain ⟨family, rfl⟩ := exists_family hfam
  obtain ⟨a, rfl, rfl⟩ : ∃ a : Address, a.value.toNat = v ∧ a.family = family :=
    ⟨⟨BitVec.ofNat 16 v, family, true⟩, Nat.mod_eq_of_lt hv, rfl⟩
  obtain ⟨code, rfl⟩ : ∃ c : BitVec 10, c.toNat = code := ⟨BitVec.ofNat 10 code, Nat.mod_eq_of_lt (by omega)⟩
  obtain ⟨r, hword, hdone⟩ := completes_decode_builtDatagram (by omega) hlen hin
  refine ⟨_, hdone, hword, ?addresses, ?group, ?action, resultBlock_r5 _⟩
  case addresses =>
    have hsrc : (builderFields s a code).src.toNat = s.src.toNat % 65536 := by
      rw [builderFields_src, BitVec.toNat_ofNat]
    rw [writeCemiBlock_r4, ← hsrc]
    rfl
  case group =>
    rw [writeCemiBlock_r5_group, readBack_isGroup]
    exact isGroup_iff a.family
  case action =>
    obtain ⟨-, hapci, -⟩ := apduWord_fields (builderFields s a code) (packData code d)
    obtain ⟨-, hbase, -⟩ := packData_of_base (code := code) (by omega) d
    obtain ⟨hcode4, -⟩ := resultBlock_r3 (readBack (builderFields s a code) (packData code d) d)
    exact (congrArg BitVec.toNat (hcode4.trans hapci)).trans hbase

end Sys2Proof.Machine

/-! Reset, the start of a command and the window in which it is pending (60_exceptions.md R401; 70_reset_and_hazards.md R450 to
R452). -/

namespace Sys2Proof.Machine

/-! ### Reset (R450, R451) -/

/-- Every piece of the engine's state after a reset (R451). -/
theorem State.platformReset_atReset (s : State) : AtReset s.platformReset where
  cmd := rfl
  status := rfl
  opt := rfl
  src := rfl
  inLen := rfl
  outLen := rfl
  arg0 := rfl
  arg1 := rfl
  arg2 := rfl
  arg3 := rfl
  key0 := rfl
  key1 := rfl
  key2 := rfl
  key3 := rfl
  keyctl := rfl
  res := Results.get_empty
  inBuf _ := rfl
  outBuf _ := rfl
  inSample := rfl
  idle := s.platformReset_busy

/-- Settles O6: the values are those that the platform's reset gives. -/
theorem resetValues : Obligations.ResetValues :=
  State.platformReset_atReset State.reset

/-- Settles O7: the platform's reset meets the invariant. -/
theorem resetMeetsTheInvariant : Obligations.ResetMeetsTheInvariant :=
  State.platformReset_inv State.reset

/-- The platform's reset is the step's event (R450, log 8). -/
theorem step_of_reset {s : State} {rest : List Event} (h : s.env = .reset :: rest) :
    step s = .next (State.platformReset { s with env := rest }) := by
  rw [step, stepBy, h]

/-- Settles O12: the reset event gives the values of R451 whatever the state held. -/
theorem platformReset : Obligations.PlatformReset :=
  fun _ _ henv => ⟨_, step_of_reset henv, State.platformReset_atReset _, rfl, rfl⟩

/-! ### The start of a command (R401) -/

/-- A host write of CMD while BUSY is 0 starts a command. -/
theorem State.hostWrite_cmd {s : State} (hb : s.busy = false) (v : Word) : s.hostWrite 0 32 v = s.commandStart v :=
  State.hostWrite_register hb (by decide) (by decide) v

/-- IN is the bytes of IN_BUF below IN_LEN (R31). -/
theorem State.inputBytes_eq (s : State) : s.inputBytes = (List.range (s.inLen.toNat % 65536)).map s.inBuf.read := by
  rw [State.inputBytes, Memory.bytes, extractLsb'_toNat_eq, pow_zero, Nat.div_one]
  rfl

@[simp] theorem State.commandStart_done (s : State) (v : Word) : (s.commandStart v).done = false := statusWord_done _ _ _ _

@[simp] theorem State.commandStart_err (s : State) (v : Word) : (s.commandStart v).err = false := statusWord_err _ _ _ _

@[simp] theorem State.commandStart_errCode (s : State) (v : Word) : (s.commandStart v).errCode = 0 := statusWord_errCode _ _ _ _

@[simp] theorem State.commandStart_secState (s : State) (v : Word) : (s.commandStart v).secState = 0 := statusWord_sec _ _ _ _

/-- Settles O10: the write is a command start, whose fields are told one by one; the started command is pending. -/
theorem commandStart : Obligations.CommandStart := by
  intro s rest v hb henv
  have hstep : step s = .next (State.commandStart { s with env := rest } v) := by
    rw [step_of_write henv, State.hostWrite_cmd (s := { s with env := rest }) hb]
  refine ⟨_, hstep, rfl, State.inputBytes_eq _, State.commandStart_busy _ v, State.commandStart_done _ v,
    State.commandStart_err _ v, State.commandStart_errCode _ v, State.commandStart_secState _ v, Results.get_empty, rfl,
    fun _ => rfl, rfl, rfl, rfl, rfl, rfl, rfl, rfl, rfl, rfl, rfl, rfl, rfl, rfl, rfl, rfl, ?ignored, fun i hi => ?turn⟩
  case ignored => exact State.hostWrite_of_busy (State.commandStart_busy _ v)
  case turn =>
    rw [State.engineTurn_pending (State.commandStart_busy _ v)]
    exact State.runPendingBy_of_decode exec hi

/-! ### The busy window (R452) -/

/-- A legal STATUS with BUSY set is BUSY alone (R22, R401). -/
theorem LegalStatus.eq_one_of_busy {w : Word} (h : LegalStatus w) (hb : w.getLsbD 0 = true) : w = 1 := by
  rcases h with rfl | rfl | ⟨sec, rfl⟩ | ⟨e, sec, rfl⟩
  · simp at hb
  · rfl
  · exact absurd ((statusWord_busy _ _ _ _).symm.trans hb) Bool.false_ne_true
  · exact absurd ((statusWord_busy _ _ _ _).symm.trans hb) Bool.false_ne_true

/-- Settles O11: host writes are ignored, and each read shows its field, of which a pending command's outcome is all 0. -/
theorem busyWindow : Obligations.BusyWindow := by
  intro s hinv hb
  obtain ⟨-, hres, hlen, hout⟩ := hinv.pending hb
  have reads : ∀ off, off < 0x100 ∧ off % 4 = 0 → s.hostRead (BitVec.ofNat 18 off) 32 = s.readReg off :=
    fun _ ⟨hoff, halign⟩ => s.hostRead_register hoff halign
  refine ⟨fun addr bits v rest henv => ?ignored, ?status, fun k hk => ?results, ?outLen, fun i hi => ?output, fun k hk => ?keys,
    reads 0x000 (by decide), reads 0x008 (by decide), reads 0x00C (by decide), reads 0x010 (by decide), reads 0x018 (by decide),
    reads 0x01C (by decide), reads 0x020 (by decide), reads 0x024 (by decide), reads 0x040 (by decide),
    fun i hi => s.hostRead_inBuf hi⟩
  case ignored => rw [step_of_write henv, State.hostWrite_of_busy (s := { s with env := rest }) hb]
  case status => exact (reads 0x004 (by decide)).trans (hinv.status.eq_one_of_busy hb)
  case results => rw [reads _ (by omega), s.readReg_result hk, hres, Results.get_empty]
  case outLen => exact (reads 0x014 (by decide)).trans hlen
  case output =>
    rw [s.hostRead_outBuf hi, hout]
    rfl
  case keys => rw [reads _ (by omega), s.readReg_key hk]

end Sys2Proof.Machine
